-- ==== Sys2Proof/Word.lean ====
section
/-! DEFINITION. The two word types of the machine: the byte and the 16-bit address (00_scope.md R5, R6, R8). -/

namespace Sys2Proof

/-- A u8: the byte is 8 bits everywhere (20_memory.md R50). -/
abbrev Byte := BitVec 8

/-- A u16: an address of the CPU bus, and the width of PC (00_scope.md R5, 10_state.md R28). -/
abbrev Addr := BitVec 16

/-- The PPU's 15-bit VRAM address (10_state.md R33, R38). -/
abbrev VramAddr := BitVec 15

end Sys2Proof
end

