-- ==== Sys2Proof/Syntax.lean ====
section
/-! DEFINITION. The instructions: one constructor per mnemonic of spec/opcode_table.json, with the operand form (addressing mode and operand bytes) as its argument, so that every defined row of the table is one constructor with one form (30_encoding.md R90 to R107). -/

namespace Sys2Proof

/-- The addressing modes that form an effective address (30_encoding.md R96 to R99, R101, R102). -/
inductive MemMode where
  | zp | zpx | zpy | abs | abx | aby | izx | izy
  deriving DecidableEq, Repr

/-- An operand in memory: the mode with its operand byte or its operand word. -/
inductive MemOperand where
  | zp (a : Byte)
  | zpx (a : Byte)
  | zpy (a : Byte)
  | abs (w : Addr)
  | abx (w : Addr)
  | aby (w : Addr)
  | izx (b : Byte)
  | izy (b : Byte)
  deriving DecidableEq, Repr

/-- What a reading instruction reads: its second byte (Immediate, R95) or a byte of memory. -/
inductive Source where
  | imm (d : Byte)
  | mem (o : MemOperand)
  deriving DecidableEq, Repr

/-- What a shift or rotate works on: the accumulator (Accumulator, R94) or a byte of memory. -/
inductive Target where
  | acc
  | mem (o : MemOperand)
  deriving DecidableEq, Repr

/-- The two forms of JMP (R98, R100, 44_jumps_stack_brk_nop.md R210). -/
inductive JumpOperand where
  | abs (w : Addr)
  | ind (w : Addr)
  deriving DecidableEq, Repr

/-- The forms of the unofficial NOPs (45_undocumented.md R239). -/
inductive NopOperand where
  | imp
  | imm (d : Byte)
  | mem (o : MemOperand)
  deriving DecidableEq, Repr

/-- The instructions (30_encoding.md R104, R105). The undocumented ones carry a `*` in the spec. -/
inductive Instr where
  -- 40_loads_stores_transfers.md
  | lda (src : Source)
  | ldx (src : Source)
  | ldy (src : Source)
  | sta (o : MemOperand)
  | stx (o : MemOperand)
  | sty (o : MemOperand)
  | tax
  | tay
  | tsx
  | txa
  | txs
  | tya
  -- 41_arithmetic_logic_shifts.md
  | adc (src : Source)
  | sbc (src : Source)
  | and (src : Source)
  | ora (src : Source)
  | eor (src : Source)
  | asl (tgt : Target)
  | lsr (tgt : Target)
  | rol (tgt : Target)
  | ror (tgt : Target)
  | bit (o : MemOperand)
  -- 42_branches_compares.md
  | bcc (off : Byte)
  | bcs (off : Byte)
  | beq (off : Byte)
  | bne (off : Byte)
  | bmi (off : Byte)
  | bpl (off : Byte)
  | bvc (off : Byte)
  | bvs (off : Byte)
  | cmp (src : Source)
  | cpx (src : Source)
  | cpy (src : Source)
  -- 43_incdec_flags.md
  | inc (o : MemOperand)
  | dec (o : MemOperand)
  | inx
  | iny
  | dex
  | dey
  | clc
  | sec
  | cld
  | sed
  | cli
  | sei
  | clv
  -- 44_jumps_stack_brk_nop.md
  | jmp (j : JumpOperand)
  | jsr (w : Addr)
  | rts
  | rti
  | pha
  | pla
  | php
  | plp
  | brk
  | nop
  -- 45_undocumented.md
  | lax (o : MemOperand)
  | sax (o : MemOperand)
  | dcp (o : MemOperand)
  | isb (o : MemOperand)
  | slo (o : MemOperand)
  | rla (o : MemOperand)
  | sre (o : MemOperand)
  | rra (o : MemOperand)
  | nopU (opcode : Byte) (n : NopOperand)
  | sbcU (d : Byte)
  -- 30_encoding.md R107: the 25 bytes with no entry in the table
  | undefined (opcode : Byte)
  deriving DecidableEq, Repr

/-- The addressing mode of a memory operand. -/
def MemOperand.mode : MemOperand → MemMode
  | .zp _ => .zp
  | .zpx _ => .zpx
  | .zpy _ => .zpy
  | .abs _ => .abs
  | .abx _ => .abx
  | .aby _ => .aby
  | .izx _ => .izx
  | .izy _ => .izy

end Sys2Proof
end

