-- ==== Sys2Proof/WellFormed.lean ====
section
/-! DEFINITION. Which terms of Instr are instructions: the addressing modes each mnemonic has (30_encoding.md R105), the bytes of the unofficial NOPs (45_undocumented.md R239) and the undefined bytes (30_encoding.md R107). -/

namespace Sys2Proof

/-- A memory operand whose mode is one of those listed. -/
def MemOperand.hasMode (o : MemOperand) (modes : List MemMode) : Bool := decide (o.mode ∈ modes)

/-- A source that is immediate or has one of the modes listed. -/
def Source.hasMode (src : Source) (modes : List MemMode) : Bool :=
  match src with
  | .imm _ => true
  | .mem o => o.hasMode modes

/-- A target that is the accumulator or has one of the modes listed. -/
def Target.hasMode (tgt : Target) (modes : List MemMode) : Bool :=
  match tgt with
  | .acc => true
  | .mem o => o.hasMode modes

/-- The seven memory modes of LDA, STA, ADC, SBC, AND, ORA, EOR, CMP, *DCP, *ISB, *SLO, *RLA, *SRE, *RRA (R105). -/
def accModes : List MemMode := [.zp, .zpx, .abs, .abx, .aby, .izx, .izy]

/-- ASL, LSR, ROL, ROR, INC, DEC and LDY (R105). -/
def xIndexedModes : List MemMode := [.zp, .zpx, .abs, .abx]

/-- LDX (R105). -/
def ldxModes : List MemMode := [.zp, .zpy, .abs, .aby]

/-- STX (R105). -/
def stxModes : List MemMode := [.zp, .zpy, .abs]

/-- STY (R105). -/
def styModes : List MemMode := [.zp, .zpx, .abs]

/-- BIT, CPX, CPY (R105). -/
def plainModes : List MemMode := [.zp, .abs]

/-- *LAX (R105). -/
def laxModes : List MemMode := [.zp, .zpy, .abs, .aby, .izx, .izy]

/-- *SAX (R105). -/
def saxModes : List MemMode := [.zp, .zpy, .abs, .izx]

/-- The *NOP bytes of each form (45_undocumented.md R239). -/
def nopBytes (n : NopOperand) : List Byte :=
  match n with
  | .imp => [0x1A, 0x3A, 0x5A, 0x7A, 0xDA, 0xFA]
  | .imm _ => [0x80, 0x82, 0x89, 0xC2, 0xE2]
  | .mem (.zp _) => [0x04, 0x44, 0x64]
  | .mem (.zpx _) => [0x14, 0x34, 0x54, 0x74, 0xD4, 0xF4]
  | .mem (.abs _) => [0x0C]
  | .mem (.abx _) => [0x1C, 0x3C, 0x5C, 0x7C, 0xDC, 0xFC]
  | .mem (.zpy _) | .mem (.aby _) | .mem (.izx _) | .mem (.izy _) => []

/-- The 25 bytes that are not instructions (30_encoding.md R107). -/
def undefinedBytes : List Byte :=
  [0x02, 0x12, 0x22, 0x32, 0x42, 0x52, 0x62, 0x72, 0x92, 0xB2, 0xD2, 0xF2] ++
  [0x0B, 0x2B, 0x4B, 0x6B, 0x8B, 0xAB, 0xCB, 0x93, 0x9F, 0x9C, 0x9E, 0x9B, 0xBB]

/-- The well-formed instructions: those the opcode map has a row for (30_encoding.md R104, R105, R107). -/
def Instr.wf : Instr → Bool
  | .lda src | .adc src | .sbc src | .and src | .ora src | .eor src | .cmp src => src.hasMode accModes
  | .ldx src => src.hasMode ldxModes
  | .ldy src => src.hasMode xIndexedModes
  | .cpx src | .cpy src => src.hasMode plainModes
  | .sta o | .dcp o | .isb o | .slo o | .rla o | .sre o | .rra o => o.hasMode accModes
  | .stx o => o.hasMode stxModes
  | .sty o => o.hasMode styModes
  | .bit o => o.hasMode plainModes
  | .inc o | .dec o => o.hasMode xIndexedModes
  | .lax o => o.hasMode laxModes
  | .sax o => o.hasMode saxModes
  | .asl tgt | .lsr tgt | .rol tgt | .ror tgt => tgt.hasMode xIndexedModes
  | .nopU opcode n => decide (opcode ∈ nopBytes n)
  | .undefined opcode => decide (opcode ∈ undefinedBytes)
  | .tax | .tay | .tsx | .txa | .txs | .tya | .inx | .iny | .dex | .dey => true
  | .clc | .sec | .cld | .sed | .cli | .sei | .clv => true
  | .bcc _ | .bcs _ | .beq _ | .bne _ | .bmi _ | .bpl _ | .bvc _ | .bvs _ => true
  | .jmp _ | .jsr _ | .rts | .rti | .pha | .pla | .php | .plp | .brk | .nop | .sbcU _ => true

end Sys2Proof
end

