-- ==== Sys2Proof/Decode.lean ====
section
/-! DEFINITION. Decoding, total on any bytes, and after it the encoder: the opcode map of 30_encoding.md R104 by byte, and the same map by mnemonic of R105. -/

namespace Sys2Proof

/-- `hi : lo`, the little-endian 16-bit quantity with the byte of the lower address as `lo` (20_memory.md R62, R64). -/
def word16 (hi lo : Byte) : Addr := hi ++ lo

/-- Bits 7..0 of an address (30_encoding.md R90, format F3). -/
def loByte (w : Addr) : Byte := w.setWidth 8

/-- Bits 15..8 of an address (30_encoding.md R90, format F3). -/
def hiByte (w : Addr) : Byte := (w >>> 8).setWidth 8

/-- What the opcode byte says of the bytes after it: the formats F1, F2, F3 of 30_encoding.md R90. `f2skip` is F2 with
an operand byte that is skipped and not read on the bus: the Immediate *NOPs (45_undocumented.md R239). -/
inductive Form where
  | f1 (i : Instr)
  | f2 (mk : Byte → Instr)
  | f2skip (mk : Byte → Instr)
  | f3 (mk : Addr → Instr)

/-- Bytes $00 to $0F (30_encoding.md R104). -/
def opcodeRow0 : List Form :=
  [.f1 .brk,
   .f2 fun d => .ora (.mem (.izx d)),
   .f1 (.undefined 0x02),
   .f2 fun d => .slo (.izx d),
   .f2 fun d => .nopU 0x04 (.mem (.zp d)),
   .f2 fun d => .ora (.mem (.zp d)),
   .f2 fun d => .asl (.mem (.zp d)),
   .f2 fun d => .slo (.zp d),
   .f1 .php,
   .f2 fun d => .ora (.imm d),
   .f1 (.asl .acc),
   .f1 (.undefined 0x0B),
   .f3 fun w => .nopU 0x0C (.mem (.abs w)),
   .f3 fun w => .ora (.mem (.abs w)),
   .f3 fun w => .asl (.mem (.abs w)),
   .f3 fun w => .slo (.abs w)]

/-- Bytes $10 to $1F (30_encoding.md R104). -/
def opcodeRow1 : List Form :=
  [.f2 fun d => .bpl d,
   .f2 fun d => .ora (.mem (.izy d)),
   .f1 (.undefined 0x12),
   .f2 fun d => .slo (.izy d),
   .f2 fun d => .nopU 0x14 (.mem (.zpx d)),
   .f2 fun d => .ora (.mem (.zpx d)),
   .f2 fun d => .asl (.mem (.zpx d)),
   .f2 fun d => .slo (.zpx d),
   .f1 .clc,
   .f3 fun w => .ora (.mem (.aby w)),
   .f1 (.nopU 0x1A .imp),
   .f3 fun w => .slo (.aby w),
   .f3 fun w => .nopU 0x1C (.mem (.abx w)),
   .f3 fun w => .ora (.mem (.abx w)),
   .f3 fun w => .asl (.mem (.abx w)),
   .f3 fun w => .slo (.abx w)]

/-- Bytes $20 to $2F (30_encoding.md R104). -/
def opcodeRow2 : List Form :=
  [.f3 fun w => .jsr w,
   .f2 fun d => .and (.mem (.izx d)),
   .f1 (.undefined 0x22),
   .f2 fun d => .rla (.izx d),
   .f2 fun d => .bit (.zp d),
   .f2 fun d => .and (.mem (.zp d)),
   .f2 fun d => .rol (.mem (.zp d)),
   .f2 fun d => .rla (.zp d),
   .f1 .plp,
   .f2 fun d => .and (.imm d),
   .f1 (.rol .acc),
   .f1 (.undefined 0x2B),
   .f3 fun w => .bit (.abs w),
   .f3 fun w => .and (.mem (.abs w)),
   .f3 fun w => .rol (.mem (.abs w)),
   .f3 fun w => .rla (.abs w)]

/-- Bytes $30 to $3F (30_encoding.md R104). -/
def opcodeRow3 : List Form :=
  [.f2 fun d => .bmi d,
   .f2 fun d => .and (.mem (.izy d)),
   .f1 (.undefined 0x32),
   .f2 fun d => .rla (.izy d),
   .f2 fun d => .nopU 0x34 (.mem (.zpx d)),
   .f2 fun d => .and (.mem (.zpx d)),
   .f2 fun d => .rol (.mem (.zpx d)),
   .f2 fun d => .rla (.zpx d),
   .f1 .sec,
   .f3 fun w => .and (.mem (.aby w)),
   .f1 (.nopU 0x3A .imp),
   .f3 fun w => .rla (.aby w),
   .f3 fun w => .nopU 0x3C (.mem (.abx w)),
   .f3 fun w => .and (.mem (.abx w)),
   .f3 fun w => .rol (.mem (.abx w)),
   .f3 fun w => .rla (.abx w)]

/-- Bytes $40 to $4F (30_encoding.md R104). -/
def opcodeRow4 : List Form :=
  [.f1 .rti,
   .f2 fun d => .eor (.mem (.izx d)),
   .f1 (.undefined 0x42),
   .f2 fun d => .sre (.izx d),
   .f2 fun d => .nopU 0x44 (.mem (.zp d)),
   .f2 fun d => .eor (.mem (.zp d)),
   .f2 fun d => .lsr (.mem (.zp d)),
   .f2 fun d => .sre (.zp d),
   .f1 .pha,
   .f2 fun d => .eor (.imm d),
   .f1 (.lsr .acc),
   .f1 (.undefined 0x4B),
   .f3 fun w => .jmp (.abs w),
   .f3 fun w => .eor (.mem (.abs w)),
   .f3 fun w => .lsr (.mem (.abs w)),
   .f3 fun w => .sre (.abs w)]

/-- Bytes $50 to $5F (30_encoding.md R104). -/
def opcodeRow5 : List Form :=
  [.f2 fun d => .bvc d,
   .f2 fun d => .eor (.mem (.izy d)),
   .f1 (.undefined 0x52),
   .f2 fun d => .sre (.izy d),
   .f2 fun d => .nopU 0x54 (.mem (.zpx d)),
   .f2 fun d => .eor (.mem (.zpx d)),
   .f2 fun d => .lsr (.mem (.zpx d)),
   .f2 fun d => .sre (.zpx d),
   .f1 .cli,
   .f3 fun w => .eor (.mem (.aby w)),
   .f1 (.nopU 0x5A .imp),
   .f3 fun w => .sre (.aby w),
   .f3 fun w => .nopU 0x5C (.mem (.abx w)),
   .f3 fun w => .eor (.mem (.abx w)),
   .f3 fun w => .lsr (.mem (.abx w)),
   .f3 fun w => .sre (.abx w)]

/-- Bytes $60 to $6F (30_encoding.md R104). -/
def opcodeRow6 : List Form :=
  [.f1 .rts,
   .f2 fun d => .adc (.mem (.izx d)),
   .f1 (.undefined 0x62),
   .f2 fun d => .rra (.izx d),
   .f2 fun d => .nopU 0x64 (.mem (.zp d)),
   .f2 fun d => .adc (.mem (.zp d)),
   .f2 fun d => .ror (.mem (.zp d)),
   .f2 fun d => .rra (.zp d),
   .f1 .pla,
   .f2 fun d => .adc (.imm d),
   .f1 (.ror .acc),
   .f1 (.undefined 0x6B),
   .f3 fun w => .jmp (.ind w),
   .f3 fun w => .adc (.mem (.abs w)),
   .f3 fun w => .ror (.mem (.abs w)),
   .f3 fun w => .rra (.abs w)]

/-- Bytes $70 to $7F (30_encoding.md R104). -/
def opcodeRow7 : List Form :=
  [.f2 fun d => .bvs d,
   .f2 fun d => .adc (.mem (.izy d)),
   .f1 (.undefined 0x72),
   .f2 fun d => .rra (.izy d),
   .f2 fun d => .nopU 0x74 (.mem (.zpx d)),
   .f2 fun d => .adc (.mem (.zpx d)),
   .f2 fun d => .ror (.mem (.zpx d)),
   .f2 fun d => .rra (.zpx d),
   .f1 .sei,
   .f3 fun w => .adc (.mem (.aby w)),
   .f1 (.nopU 0x7A .imp),
   .f3 fun w => .rra (.aby w),
   .f3 fun w => .nopU 0x7C (.mem (.abx w)),
   .f3 fun w => .adc (.mem (.abx w)),
   .f3 fun w => .ror (.mem (.abx w)),
   .f3 fun w => .rra (.abx w)]

/-- Bytes $80 to $8F (30_encoding.md R104). -/
def opcodeRow8 : List Form :=
  [.f2skip fun d => .nopU 0x80 (.imm d),
   .f2 fun d => .sta (.izx d),
   .f2skip fun d => .nopU 0x82 (.imm d),
   .f2 fun d => .sax (.izx d),
   .f2 fun d => .sty (.zp d),
   .f2 fun d => .sta (.zp d),
   .f2 fun d => .stx (.zp d),
   .f2 fun d => .sax (.zp d),
   .f1 .dey,
   .f2skip fun d => .nopU 0x89 (.imm d),
   .f1 .txa,
   .f1 (.undefined 0x8B),
   .f3 fun w => .sty (.abs w),
   .f3 fun w => .sta (.abs w),
   .f3 fun w => .stx (.abs w),
   .f3 fun w => .sax (.abs w)]

/-- Bytes $90 to $9F (30_encoding.md R104). -/
def opcodeRow9 : List Form :=
  [.f2 fun d => .bcc d,
   .f2 fun d => .sta (.izy d),
   .f1 (.undefined 0x92),
   .f1 (.undefined 0x93),
   .f2 fun d => .sty (.zpx d),
   .f2 fun d => .sta (.zpx d),
   .f2 fun d => .stx (.zpy d),
   .f2 fun d => .sax (.zpy d),
   .f1 .tya,
   .f3 fun w => .sta (.aby w),
   .f1 .txs,
   .f1 (.undefined 0x9B),
   .f1 (.undefined 0x9C),
   .f3 fun w => .sta (.abx w),
   .f1 (.undefined 0x9E),
   .f1 (.undefined 0x9F)]

/-- Bytes $A0 to $AF (30_encoding.md R104). -/
def opcodeRowA : List Form :=
  [.f2 fun d => .ldy (.imm d),
   .f2 fun d => .lda (.mem (.izx d)),
   .f2 fun d => .ldx (.imm d),
   .f2 fun d => .lax (.izx d),
   .f2 fun d => .ldy (.mem (.zp d)),
   .f2 fun d => .lda (.mem (.zp d)),
   .f2 fun d => .ldx (.mem (.zp d)),
   .f2 fun d => .lax (.zp d),
   .f1 .tay,
   .f2 fun d => .lda (.imm d),
   .f1 .tax,
   .f1 (.undefined 0xAB),
   .f3 fun w => .ldy (.mem (.abs w)),
   .f3 fun w => .lda (.mem (.abs w)),
   .f3 fun w => .ldx (.mem (.abs w)),
   .f3 fun w => .lax (.abs w)]

/-- Bytes $B0 to $BF (30_encoding.md R104). -/
def opcodeRowB : List Form :=
  [.f2 fun d => .bcs d,
   .f2 fun d => .lda (.mem (.izy d)),
   .f1 (.undefined 0xB2),
   .f2 fun d => .lax (.izy d),
   .f2 fun d => .ldy (.mem (.zpx d)),
   .f2 fun d => .lda (.mem (.zpx d)),
   .f2 fun d => .ldx (.mem (.zpy d)),
   .f2 fun d => .lax (.zpy d),
   .f1 .clv,
   .f3 fun w => .lda (.mem (.aby w)),
   .f1 .tsx,
   .f1 (.undefined 0xBB),
   .f3 fun w => .ldy (.mem (.abx w)),
   .f3 fun w => .lda (.mem (.abx w)),
   .f3 fun w => .ldx (.mem (.aby w)),
   .f3 fun w => .lax (.aby w)]

/-- Bytes $C0 to $CF (30_encoding.md R104). -/
def opcodeRowC : List Form :=
  [.f2 fun d => .cpy (.imm d),
   .f2 fun d => .cmp (.mem (.izx d)),
   .f2skip fun d => .nopU 0xC2 (.imm d),
   .f2 fun d => .dcp (.izx d),
   .f2 fun d => .cpy (.mem (.zp d)),
   .f2 fun d => .cmp (.mem (.zp d)),
   .f2 fun d => .dec (.zp d),
   .f2 fun d => .dcp (.zp d),
   .f1 .iny,
   .f2 fun d => .cmp (.imm d),
   .f1 .dex,
   .f1 (.undefined 0xCB),
   .f3 fun w => .cpy (.mem (.abs w)),
   .f3 fun w => .cmp (.mem (.abs w)),
   .f3 fun w => .dec (.abs w),
   .f3 fun w => .dcp (.abs w)]

/-- Bytes $D0 to $DF (30_encoding.md R104). -/
def opcodeRowD : List Form :=
  [.f2 fun d => .bne d,
   .f2 fun d => .cmp (.mem (.izy d)),
   .f1 (.undefined 0xD2),
   .f2 fun d => .dcp (.izy d),
   .f2 fun d => .nopU 0xD4 (.mem (.zpx d)),
   .f2 fun d => .cmp (.mem (.zpx d)),
   .f2 fun d => .dec (.zpx d),
   .f2 fun d => .dcp (.zpx d),
   .f1 .cld,
   .f3 fun w => .cmp (.mem (.aby w)),
   .f1 (.nopU 0xDA .imp),
   .f3 fun w => .dcp (.aby w),
   .f3 fun w => .nopU 0xDC (.mem (.abx w)),
   .f3 fun w => .cmp (.mem (.abx w)),
   .f3 fun w => .dec (.abx w),
   .f3 fun w => .dcp (.abx w)]

/-- Bytes $E0 to $EF (30_encoding.md R104). -/
def opcodeRowE : List Form :=
  [.f2 fun d => .cpx (.imm d),
   .f2 fun d => .sbc (.mem (.izx d)),
   .f2skip fun d => .nopU 0xE2 (.imm d),
   .f2 fun d => .isb (.izx d),
   .f2 fun d => .cpx (.mem (.zp d)),
   .f2 fun d => .sbc (.mem (.zp d)),
   .f2 fun d => .inc (.zp d),
   .f2 fun d => .isb (.zp d),
   .f1 .inx,
   .f2 fun d => .sbc (.imm d),
   .f1 .nop,
   .f2 fun d => .sbcU d,
   .f3 fun w => .cpx (.mem (.abs w)),
   .f3 fun w => .sbc (.mem (.abs w)),
   .f3 fun w => .inc (.abs w),
   .f3 fun w => .isb (.abs w)]

/-- Bytes $F0 to $FF (30_encoding.md R104). -/
def opcodeRowF : List Form :=
  [.f2 fun d => .beq d,
   .f2 fun d => .sbc (.mem (.izy d)),
   .f1 (.undefined 0xF2),
   .f2 fun d => .isb (.izy d),
   .f2 fun d => .nopU 0xF4 (.mem (.zpx d)),
   .f2 fun d => .sbc (.mem (.zpx d)),
   .f2 fun d => .inc (.zpx d),
   .f2 fun d => .isb (.zpx d),
   .f1 .sed,
   .f3 fun w => .sbc (.mem (.aby w)),
   .f1 (.nopU 0xFA .imp),
   .f3 fun w => .isb (.aby w),
   .f3 fun w => .nopU 0xFC (.mem (.abx w)),
   .f3 fun w => .sbc (.mem (.abx w)),
   .f3 fun w => .inc (.abx w),
   .f3 fun w => .isb (.abx w)]

/-- The opcode map: row = high nibble, column = low nibble (30_encoding.md R104). -/
def opcodeMap : List (List Form) :=
  [opcodeRow0, opcodeRow1, opcodeRow2, opcodeRow3, opcodeRow4, opcodeRow5, opcodeRow6, opcodeRow7] ++
  [opcodeRow8, opcodeRow9, opcodeRowA, opcodeRowB, opcodeRowC, opcodeRowD, opcodeRowE, opcodeRowF]

/-- The entry of an opcode byte; the map has 256 (30_encoding.md R90, R114). -/
def decodeOpcode (op : Byte) : Form :=
  (opcodeMap.getD (op.toNat / 16) []).getD (op.toNat % 16) (.f1 (.undefined op))

/-- Length of an instruction in bytes, from its opcode byte alone (30_encoding.md R91, R109). -/
def Form.length : Form → Nat
  | .f1 _ => 1
  | .f2 _ | .f2skip _ => 2
  | .f3 _ => 3

/-- Why a list of bytes is no instruction: it is empty, or it ends before the operand of its opcode byte. Every opcode
byte itself decodes, the 25 undefined ones to `Instr.undefined` (30_encoding.md R107, R114). -/
inductive DecodeError where
  | noBytes
  | operandMissing (opcode : Byte)
  deriving DecidableEq, Repr

/-- The first instruction of a list of bytes, with the bytes after it (30_encoding.md R90, R109). -/
def decode : List Byte → Except DecodeError (Instr × List Byte)
  | [] => .error .noBytes
  | op :: rest =>
    match decodeOpcode op, rest with
    | .f1 i, rest => .ok (i, rest)
    | .f2 mk, d :: rest => .ok (mk d, rest)
    | .f2skip mk, d :: rest => .ok (mk d, rest)
    | .f3 mk, lo :: hi :: rest => .ok (mk (word16 hi lo), rest)
    | _, _ => .error (.operandMissing op)

/-- The three bytes of the bits `w` of an instruction of `nbits` bits, bit 0 the least significant bit of the first byte. -/
def tableBytes (nbits w : Nat) : List Byte :=
  let bits := w % 2 ^ nbits
  [BitVec.ofNat 8 bits, BitVec.ofNat 8 (bits / 256), BitVec.ofNat 8 (bits / 65536)]

/-- What the decoder reads from an instruction whose bits are `w`, numbered as spec/opcode_table.json numbers them. -/
def decodeTableWord (nbits w : Nat) : Option Instr :=
  match decode (tableBytes nbits w) with
  | .ok (i, _) => some i
  | .error _ => none

/-- The operand bytes of a memory operand, low byte first (30_encoding.md R90). -/
def MemOperand.bytes : MemOperand → List Byte
  | .zp a | .zpx a | .zpy a => [a]
  | .izx b | .izy b => [b]
  | .abs w | .abx w | .aby w => [loByte w, hiByte w]

/-- The bytes of an instruction with a memory operand: the opcode byte of the operand's mode, taken from the
mnemonic's row of 30_encoding.md R105, then the operand bytes; no bytes where the row has no such mode. -/
def encodeMem (ops : List (MemMode × Byte)) (o : MemOperand) : List Byte :=
  match ops.lookup o.mode with
  | some op => op :: o.bytes
  | none => []

/-- The bytes of a reading instruction; `imm` is the opcode byte of its Immediate form (30_encoding.md R105). -/
def encodeSource (imm : Byte) (ops : List (MemMode × Byte)) : Source → List Byte
  | .imm d => [imm, d]
  | .mem o => encodeMem ops o

/-- The bytes of a shift or rotate; `acc` is the opcode byte of its Accumulator form (30_encoding.md R105). -/
def encodeTarget (acc : Byte) (ops : List (MemMode × Byte)) : Target → List Byte
  | .acc => [acc]
  | .mem o => encodeMem ops o

/-- The bytes of an unofficial NOP (45_undocumented.md R239). -/
def encodeNop (opcode : Byte) : NopOperand → List Byte
  | .imp => [opcode]
  | .imm d => [opcode, d]
  | .mem o => opcode :: o.bytes

/-- The bytes of a well-formed instruction (30_encoding.md R105). -/
def encode : Instr → List Byte
  | .lda src => encodeSource 0xA9 [(.izx, 0xA1), (.zp, 0xA5), (.abs, 0xAD), (.izy, 0xB1), (.zpx, 0xB5), (.aby, 0xB9), (.abx, 0xBD)] src
  | .ldx src => encodeSource 0xA2 [(.zp, 0xA6), (.abs, 0xAE), (.zpy, 0xB6), (.aby, 0xBE)] src
  | .ldy src => encodeSource 0xA0 [(.zp, 0xA4), (.abs, 0xAC), (.zpx, 0xB4), (.abx, 0xBC)] src
  | .sta o => encodeMem [(.izx, 0x81), (.zp, 0x85), (.abs, 0x8D), (.izy, 0x91), (.zpx, 0x95), (.aby, 0x99), (.abx, 0x9D)] o
  | .stx o => encodeMem [(.zp, 0x86), (.abs, 0x8E), (.zpy, 0x96)] o
  | .sty o => encodeMem [(.zp, 0x84), (.abs, 0x8C), (.zpx, 0x94)] o
  | .tax => [0xAA]
  | .tay => [0xA8]
  | .tsx => [0xBA]
  | .txa => [0x8A]
  | .txs => [0x9A]
  | .tya => [0x98]
  | .adc src => encodeSource 0x69 [(.izx, 0x61), (.zp, 0x65), (.abs, 0x6D), (.izy, 0x71), (.zpx, 0x75), (.aby, 0x79), (.abx, 0x7D)] src
  | .sbc src => encodeSource 0xE9 [(.izx, 0xE1), (.zp, 0xE5), (.abs, 0xED), (.izy, 0xF1), (.zpx, 0xF5), (.aby, 0xF9), (.abx, 0xFD)] src
  | .and src => encodeSource 0x29 [(.izx, 0x21), (.zp, 0x25), (.abs, 0x2D), (.izy, 0x31), (.zpx, 0x35), (.aby, 0x39), (.abx, 0x3D)] src
  | .ora src => encodeSource 0x09 [(.izx, 0x01), (.zp, 0x05), (.abs, 0x0D), (.izy, 0x11), (.zpx, 0x15), (.aby, 0x19), (.abx, 0x1D)] src
  | .eor src => encodeSource 0x49 [(.izx, 0x41), (.zp, 0x45), (.abs, 0x4D), (.izy, 0x51), (.zpx, 0x55), (.aby, 0x59), (.abx, 0x5D)] src
  | .asl tgt => encodeTarget 0x0A [(.zp, 0x06), (.abs, 0x0E), (.zpx, 0x16), (.abx, 0x1E)] tgt
  | .lsr tgt => encodeTarget 0x4A [(.zp, 0x46), (.abs, 0x4E), (.zpx, 0x56), (.abx, 0x5E)] tgt
  | .rol tgt => encodeTarget 0x2A [(.zp, 0x26), (.abs, 0x2E), (.zpx, 0x36), (.abx, 0x3E)] tgt
  | .ror tgt => encodeTarget 0x6A [(.zp, 0x66), (.abs, 0x6E), (.zpx, 0x76), (.abx, 0x7E)] tgt
  | .bit o => encodeMem [(.zp, 0x24), (.abs, 0x2C)] o
  | .bcc off => [0x90, off]
  | .bcs off => [0xB0, off]
  | .beq off => [0xF0, off]
  | .bne off => [0xD0, off]
  | .bmi off => [0x30, off]
  | .bpl off => [0x10, off]
  | .bvc off => [0x50, off]
  | .bvs off => [0x70, off]
  | .cmp src => encodeSource 0xC9 [(.izx, 0xC1), (.zp, 0xC5), (.abs, 0xCD), (.izy, 0xD1), (.zpx, 0xD5), (.aby, 0xD9), (.abx, 0xDD)] src
  | .cpx src => encodeSource 0xE0 [(.zp, 0xE4), (.abs, 0xEC)] src
  | .cpy src => encodeSource 0xC0 [(.zp, 0xC4), (.abs, 0xCC)] src
  | .inc o => encodeMem [(.zp, 0xE6), (.abs, 0xEE), (.zpx, 0xF6), (.abx, 0xFE)] o
  | .dec o => encodeMem [(.zp, 0xC6), (.abs, 0xCE), (.zpx, 0xD6), (.abx, 0xDE)] o
  | .inx => [0xE8]
  | .iny => [0xC8]
  | .dex => [0xCA]
  | .dey => [0x88]
  | .clc => [0x18]
  | .sec => [0x38]
  | .cld => [0xD8]
  | .sed => [0xF8]
  | .cli => [0x58]
  | .sei => [0x78]
  | .clv => [0xB8]
  | .jmp (.abs w) => [0x4C, loByte w, hiByte w]
  | .jmp (.ind w) => [0x6C, loByte w, hiByte w]
  | .jsr w => [0x20, loByte w, hiByte w]
  | .rts => [0x60]
  | .rti => [0x40]
  | .pha => [0x48]
  | .pla => [0x68]
  | .php => [0x08]
  | .plp => [0x28]
  | .brk => [0x00]
  | .nop => [0xEA]
  | .lax o => encodeMem [(.izx, 0xA3), (.zp, 0xA7), (.abs, 0xAF), (.izy, 0xB3), (.zpy, 0xB7), (.aby, 0xBF)] o
  | .sax o => encodeMem [(.izx, 0x83), (.zp, 0x87), (.abs, 0x8F), (.zpy, 0x97)] o
  | .dcp o => encodeMem [(.izx, 0xC3), (.zp, 0xC7), (.abs, 0xCF), (.izy, 0xD3), (.zpx, 0xD7), (.aby, 0xDB), (.abx, 0xDF)] o
  | .isb o => encodeMem [(.izx, 0xE3), (.zp, 0xE7), (.abs, 0xEF), (.izy, 0xF3), (.zpx, 0xF7), (.aby, 0xFB), (.abx, 0xFF)] o
  | .slo o => encodeMem [(.izx, 0x03), (.zp, 0x07), (.abs, 0x0F), (.izy, 0x13), (.zpx, 0x17), (.aby, 0x1B), (.abx, 0x1F)] o
  | .rla o => encodeMem [(.izx, 0x23), (.zp, 0x27), (.abs, 0x2F), (.izy, 0x33), (.zpx, 0x37), (.aby, 0x3B), (.abx, 0x3F)] o
  | .sre o => encodeMem [(.izx, 0x43), (.zp, 0x47), (.abs, 0x4F), (.izy, 0x53), (.zpx, 0x57), (.aby, 0x5B), (.abx, 0x5F)] o
  | .rra o => encodeMem [(.izx, 0x63), (.zp, 0x67), (.abs, 0x6F), (.izy, 0x73), (.zpx, 0x77), (.aby, 0x7B), (.abx, 0x7F)] o
  | .nopU opcode n => encodeNop opcode n
  | .sbcU d => [0xEB, d]
  | .undefined opcode => [opcode]

end Sys2Proof
end

