-- ==== Sys2Proof/Machine/Flags.lean ====
section
/-! DEFINITION. The status register P: its bits, and every flag computation the instruction rules share (10_state.md section 2, 41_arithmetic_logic_shifts.md R149, 42_branches_compares.md R179). -/

namespace Sys2Proof.Machine

/-- A byte with bit `i` set to `b` and every other bit as it was. -/
def withBit (i : Nat) (b : Bool) (p : Byte) : Byte :=
  if b then p ||| ((1 : Byte) <<< i) else p &&& ~~~((1 : Byte) <<< i)

/-! The bits of P (10_state.md R25). -/

def flagC (p : Byte) : Bool := p.getLsbD 0
def flagZ (p : Byte) : Bool := p.getLsbD 1
def flagI (p : Byte) : Bool := p.getLsbD 2
def flagD (p : Byte) : Bool := p.getLsbD 3
def flagB (p : Byte) : Bool := p.getLsbD 4
def flagU (p : Byte) : Bool := p.getLsbD 5
def flagV (p : Byte) : Bool := p.getLsbD 6
def flagN (p : Byte) : Bool := p.getLsbD 7

def setC (b : Bool) (p : Byte) : Byte := withBit 0 b p
def setZ (b : Bool) (p : Byte) : Byte := withBit 1 b p
def setI (b : Bool) (p : Byte) : Byte := withBit 2 b p
def setD (b : Bool) (p : Byte) : Byte := withBit 3 b p
def setV (b : Bool) (p : Byte) : Byte := withBit 6 b p
def setN (b : Bool) (p : Byte) : Byte := withBit 7 b p

/-- `SetNZ(v)` (10_state.md R27). -/
def setNZ (v : Byte) (p : Byte) : Byte := setN (v.getLsbD 7) (setZ (v == 0) p)

/-- The sum `t <- A + m + P.C`, on unbounded integers (41_arithmetic_logic_shifts.md R149). -/
def addSum (a m : Byte) (p : Byte) : Nat := a.toNat + m.toNat + (flagC p).toNat

/-- The result `r <- t mod 256` of `AddCore(m)` (41_arithmetic_logic_shifts.md R149). -/
def addResult (a m : Byte) (p : Byte) : Byte := BitVec.ofNat 8 (addSum a m p)

/-- P after `AddCore(m)` (41_arithmetic_logic_shifts.md R149); D is not read (R148). -/
def addFlags (a m : Byte) (p : Byte) : Byte :=
  let r := addResult a m p
  let v := ((a ^^^ m) &&& 0x80) == 0 && ((a ^^^ r) &&& 0x80) != 0
  setNZ r (setV v (setC (decide (255 < addSum a m p)) p))

/-- P after `Compare(reg, m)` (42_branches_compares.md R179). -/
def compareFlags (reg m : Byte) (p : Byte) : Byte := setNZ (reg - m) (setC (decide (m.toNat ≤ reg.toNat)) p)

/-- P after BIT with operand `m` (41_arithmetic_logic_shifts.md R159). -/
def bitFlags (a m : Byte) (p : Byte) : Byte :=
  setV (m.getLsbD 6) (setN (m.getLsbD 7) (setZ ((m &&& a) == 0) p))

/-- The results of the shifts and rotates, with `c` the carry before (41_arithmetic_logic_shifts.md R155 to R158). -/
def shiftLeft (v : Byte) : Byte := v <<< 1
def shiftRight (v : Byte) : Byte := v >>> 1
def rotateLeft (c : Bool) (v : Byte) : Byte := withBit 0 c (v <<< 1)
def rotateRight (c : Bool) (v : Byte) : Byte := withBit 7 c (v >>> 1)

/-- P after a shift or rotate that moves `out` into C and leaves `r` (41_arithmetic_logic_shifts.md R155 to R158). -/
def shiftFlags (out : Bool) (r : Byte) (p : Byte) : Byte := setNZ r (setC out p)

/-- The copy of P that PHP and BRK push: B and U set (10_state.md R26). -/
def pushedByProgram (p : Byte) : Byte := p ||| 0x30

/-- The copy of P that NMI entry pushes: B clear, U set (10_state.md R26). -/
def pushedByNmi (p : Byte) : Byte := (p &&& 0xEF) ||| 0x20

/-- P as PLP and RTI load it: B masked, U forced (10_state.md R26). -/
def pulledStatus (d : Byte) : Byte := (d &&& 0xEF) ||| 0x20

end Sys2Proof.Machine
end

