-- ==== Sys2Proof/Config.lean ====
section
/-! DEFINITION. What an implementation fixes (the parameters of 00_scope.md R5) and the free values the spec leaves open (60_exceptions.md R305). -/

namespace Sys2Proof

/-- `MIRRORING` (00_scope.md R5, 20_memory.md R80). -/
inductive Mirroring where
  | horizontal
  | vertical
  | fourScreen
  deriving DecidableEq, Repr

/-- The two sizes of `PRG_ROM`: 16 KiB x n with n in 1, 2 (00_scope.md R5). -/
inductive PrgSize where
  | kib16
  | kib32
  deriving DecidableEq, Repr

/-- `BRK_MODE` (00_scope.md R5, 44_jumps_stack_brk_nop.md R221). -/
inductive BrkMode where
  | hardware
  | halt
  deriving DecidableEq, Repr

/-- `RESET_PC_OVERRIDE`: none, or $C000 (70_reset_and_hazards.md R343). -/
inductive ResetPc where
  | vector
  | forceC000
  deriving DecidableEq, Repr

/-- The build-time switches (00_scope.md R5). -/
structure Build where
  brkMode : BrkMode
  resetPc : ResetPc
  deriving DecidableEq, Repr

/-- The snapshot of PPU state the renderer is a function of (60_exceptions.md R322). -/
structure PictureSnapshot where
  vram : List Host.Cell
  pal : List Host.Cell
  oam : List Host.Cell
  ctrl : Byte
  mask : Byte
  v : VramAddr
  t : VramAddr
  x : BitVec 3
  chr : List Host.Cell
  mirroring : Mirroring
  deriving DecidableEq, Repr

/-- DESIGN CHOICE (log 6; safe). Whether, in the picture the renderer of 60_exceptions.md R322 would draw from a
snapshot, some pixel has both a non-zero sprite-0 pattern value and a non-zero background pattern value (R305 (b)).
The renderer is out of scope (00_scope.md R4 (3)), so its picture is an uninterpreted function of the snapshot R322 lists. -/
opaque Config.spriteZeroOverlap : PictureSnapshot → Bool

/-- DESIGN CHOICE (log 6; safe). `S0_HIT_POLICY` (60_exceptions.md R305, D29): the free value that decides, each time
the conditions of R305 (b) hold, whether the policy in force sets the Sprite-0-hit flag there. The argument is the
model's own counter `Ppu.s0Draws`. -/
opaque Config.s0Policy : Nat → Bool

end Sys2Proof
end

