-- ==== Sys2Proof/Machine/State.lean ====
section
/-! DEFINITION. The state of the machine as plain data (10_state.md), the reasons a step can stop, and the state right after reset. -/

namespace Sys2Proof.Machine

/-- A memory: (index, byte) cells in one canonical form, indexes strictly rising and no cell equal to what an
unlisted index reads as (`Memory.wf`). -/
abbrev Memory := List Host.Cell

/-- What an unlisted index of every memory reads as. For vram, pal and oam it is the power-on value D17 of 10_state.md
R46; for the RAM (RAM_INIT, OPEN) and the ROMs it is a DESIGN CHOICE (log 2, log 3; unsafe). -/
def Memory.unlisted : Byte := 0

/-- The canonical form: indexes strictly rising, no cell holding the unlisted value. -/
def Memory.wf : Memory → Bool
  | [] => true
  | c :: m => c.2 != Memory.unlisted && m.all (fun d => decide (c.1 < d.1)) && Memory.wf m

/-- Every listed index is below the size of the memory. -/
def Memory.within (m : Memory) (size : Nat) : Bool := m.all (fun c => decide (c.1 < size))

/-- The cartridge, immutable after construction (10_state.md R32): it is a parameter of the step, held in a field that
no step writes (log 1). -/
structure Cartridge where
  prg : Memory
  prgSize : PrgSize
  chr : Memory
  mirroring : Mirroring
  deriving DecidableEq, Repr

/-- The PPU as the CPU can observe it (10_state.md R33). `s0Draws` is the model's own: the counter of the free value
`Config.s0Policy` (60_exceptions.md R305; log 6). -/
structure Ppu where
  vram : Memory
  pal : Memory
  oam : Memory
  ctrl : Byte
  mask : Byte
  status : Byte
  oamAddr : Byte
  v : VramAddr
  t : VramAddr
  x : BitVec 3
  w : Bool
  f : Bool
  buf : Byte
  dot : Nat
  scanline : Nat
  nmiPending : Bool
  s0Draws : Nat
  deriving DecidableEq, Repr

/-- A joypad: buttons `b`, index `i` (0..8), strobe latch `s` (10_state.md R42). -/
structure Joypad where
  b : Byte
  i : Nat
  s : Bool
  deriving DecidableEq, Repr

/-- The whole machine: the CPU registers (10_state.md R20), the Bus (R31), the PPU (R33), the joypads (R42), the
parameters of the step (R44; log 1), and `halted`, the model's own: the run has ended by BRK in Halt mode
(70_reset_and_hazards.md R360 (a); log 8). -/
structure State where
  a : Byte
  x : Byte
  y : Byte
  sp : Byte
  p : Byte
  pc : Addr
  ram : Memory
  cycles : Nat
  frameReady : Bool
  pendingNmi : Bool
  dmaStall : Nat
  ppu : Ppu
  joy1 : Joypad
  joy2 : Joypad
  cart : Cartridge
  build : Build
  halted : Bool
  deriving DecidableEq, Repr

/-- The fatal outcomes of a step (60_exceptions.md R266 to R270); each is terminal and carries no state (log 10). -/
inductive Fault where
  /-- Raised by the meaning of `Instr.undefined`: the opcode fetched is one of the 25 undefined bytes; `pc` is the
  address it was fetched from (60_exceptions.md R267). Safe: the spec names this outcome. -/
  | unknownOpcode (byte : Byte) (pc : Addr)
  /-- Raised by a bus write to $8000-$FFFF (60_exceptions.md R268). Safe: the spec names this outcome. -/
  | writeToRom (addr : Addr)
  /-- Raised by a read of port $2007 while `v` is in $4000-$7FFF (60_exceptions.md R269). Safe: the spec names it. -/
  | unmappedPpuRead (addr : VramAddr)
  /-- Raised by a write to port $2007 while `v` is in $0000-$1FFF or $4000-$7FFF (60_exceptions.md R270). Safe: the spec
  names it. -/
  | unmappedPpuWrite (addr : VramAddr)
  /-- Raised by `step` alone, in a state whose run has already ended by BRK in Halt mode (70_reset_and_hazards.md
  R360 (a)). DESIGN CHOICE (log 8); safe: the spec gives no step there. -/
  | runEnded
  deriving DecidableEq, Repr

/-- Why an instruction has no meaning. -/
inductive Refusal where
  /-- Raised by `exec` for an instruction not modelled yet. Safe: nothing is claimed of it. -/
  | notModelled (mnemonic : String)
  deriving DecidableEq, Repr

/-! The register updates. -/

def State.setA (s : State) (v : Byte) : State := { s with a := v }
def State.setX (s : State) (v : Byte) : State := { s with x := v }
def State.setY (s : State) (v : Byte) : State := { s with y := v }
def State.setSp (s : State) (v : Byte) : State := { s with sp := v }
def State.setP (s : State) (v : Byte) : State := { s with p := v }
def State.setPc (s : State) (v : Addr) : State := { s with pc := v }
def State.setRam (s : State) (v : Memory) : State := { s with ram := v }
def State.setDmaStall (s : State) (v : Nat) : State := { s with dmaStall := v }
def State.setPendingNmi (s : State) (v : Bool) : State := { s with pendingNmi := v }
def State.setFrameReady (s : State) (v : Bool) : State := { s with frameReady := v }
def State.setPpu (s : State) (v : Ppu) : State := { s with ppu := v }
def State.setJoy1 (s : State) (v : Joypad) : State := { s with joy1 := v }
def State.setJoy2 (s : State) (v : Joypad) : State := { s with joy2 := v }
def State.setCart (s : State) (v : Cartridge) : State := { s with cart := v }
def State.setHalted (s : State) (v : Bool) : State := { s with halted := v }

/-- The PPU at power-on (10_state.md R46, D17; log 5). -/
def Ppu.powerOn : Ppu where
  vram := []
  pal := []
  oam := []
  ctrl := 0
  mask := 0
  status := 0
  oamAddr := 0
  v := 0
  t := 0
  x := 0
  w := false
  f := false
  buf := 0
  dot := 0
  scanline := 0
  nmiPending := false
  s0Draws := 0

/-- A joypad at power-on (10_state.md R46, D17; log 5). -/
def Joypad.powerOn : Joypad := { b := 0, i := 0, s := false }

/-- A cartridge nothing has been programmed into. DESIGN CHOICE (log 3; unsafe): the cartridge is an argument. -/
def Cartridge.unprogrammed : Cartridge :=
  { prg := [], prgSize := .kib32, chr := [], mirroring := .horizontal }

/-- The spec's default build: `BRK_MODE` Hardware (D1), no reset override (D35) (00_scope.md R5). -/
def Build.default : Build := { brkMode := .hardware, resetPc := .vector }

/-- The machine right after power-on and `Cpu.reset` (70_reset_and_hazards.md R340; 10_state.md R46), with the
unprogrammed cartridge, whose reset vector holds $0000 (log 3), and RAM_INIT all $00 (log 2). -/
def State.reset : State where
  a := 0
  x := 0
  y := 0
  sp := 0xFD
  p := 0x24
  pc := 0x0000
  ram := []
  cycles := 0
  frameReady := false
  pendingNmi := false
  dmaStall := 0
  ppu := Ppu.powerOn
  joy1 := Joypad.powerOn
  joy2 := Joypad.powerOn
  cart := Cartridge.unprogrammed
  build := Build.default
  halted := false

end Sys2Proof.Machine
end

