-- ==== Sys2Proof/Machine/Joypad.lean ====
section
/-! DEFINITION. The joypads: strobe, serial read and the host's buttons (60_exceptions.md section 8). -/

namespace Sys2Proof.Machine

/-- `Joypad.write(d)` (60_exceptions.md R314). -/
def joypadWrite (d : Byte) (j : Joypad) : Joypad :=
  if d.getLsbD 0 then { j with s := true, i := 0 } else { j with s := false }

/-- The byte `Joypad.read()` returns: the bit in bit 0, zeros above (60_exceptions.md R315). -/
def joypadReadValue (j : Joypad) : Byte :=
  if 7 < j.i then 1 else (j.b >>> j.i) &&& 1

/-- What `Joypad.read()` leaves (60_exceptions.md R315). -/
def joypadAfterRead (j : Joypad) : Joypad :=
  if 7 < j.i then j else if j.s then j else { j with i := min (j.i + 1) 8 }

/-- The host presses button `bit` (60_exceptions.md R317). -/
def joypadPress (bit : Fin 8) (j : Joypad) : Joypad := { j with b := j.b ||| ((1 : Byte) <<< bit.val) }

/-- The host releases button `bit` (60_exceptions.md R317). -/
def joypadRelease (bit : Fin 8) (j : Joypad) : Joypad := { j with b := j.b &&& ~~~((1 : Byte) <<< bit.val) }

end Sys2Proof.Machine
end

