-- ==== Sys2Proof/Machine/Memory.lean ====
section
/-! DEFINITION. Reading and writing one byte of a memory, keeping the canonical form. -/

namespace Sys2Proof.Machine

/-- The byte at an index; an unlisted index reads as `Memory.unlisted`. -/
def memGet : Memory → Nat → Byte
  | [], _ => Memory.unlisted
  | c :: m, k => if c.1 = k then c.2 else memGet m k

/-- The memory with one byte stored; storing the unlisted value removes the cell. -/
def memSet : Memory → Nat → Byte → Memory
  | [], k, d => if d = Memory.unlisted then [] else [(k, d)]
  | c :: m, k, d =>
    if k < c.1 then (if d = Memory.unlisted then c :: m else (k, d) :: c :: m)
    else if k = c.1 then (if d = Memory.unlisted then m else (k, d) :: m)
    else c :: memSet m k d

end Sys2Proof.Machine
end

