-- ==== Sys2Proof/Machine/Ppu.lean ====
section
/-! DEFINITION. The PPU: its ports (60_exceptions.md section 5), its address space (20_memory.md section 6) and its timing (60_exceptions.md section 6). -/

namespace Sys2Proof.Machine

/-- `NT(a)`: the index into vram of a PPU address in $2000-$3FFF (20_memory.md R80); FourScreen is the identity on
4 KiB of vram (D31; log 14). -/
def ntIndex (m : Mirroring) (a : VramAddr) : Nat :=
  let i := (a.toNat &&& 0x2FFF) - 0x2000
  let table := i / 0x400
  match m with
  | .horizontal => if table = 0 then i else if table = 3 then i - 0x800 else i - 0x400
  | .vertical => if table < 2 then i else i - 0x800
  | .fourScreen => i

/-- `PAL(a)`: the index into palette RAM of a PPU address in $3F00-$3FFF (20_memory.md R81). -/
def palIndex (a : VramAddr) : Nat :=
  let k := (a.toNat - 0x3F00) % 32
  if k = 0x10 ∨ k = 0x14 ∨ k = 0x18 ∨ k = 0x1C then k - 0x10 else k

/-- `PPU.write_ctrl(d)` (60_exceptions.md R292). -/
def ppuWriteCtrl (d : Byte) (u : Ppu) : Ppu :=
  { u with
    ctrl := d
    t := (u.t &&& 0x73FF) ||| ((d.setWidth 15 &&& 0x0003) <<< 10)
    nmiPending := u.nmiPending || (!u.ctrl.getLsbD 7 && d.getLsbD 7 && u.status.getLsbD 7) }

/-- `PPU.write_mask(d)` (60_exceptions.md R293). -/
def ppuWriteMask (d : Byte) (u : Ppu) : Ppu := { u with mask := d }

/-- What `PPU.read_status()` leaves: VBlank and `w` cleared (60_exceptions.md R294). The byte it returns is `status` as
it was. -/
def ppuAfterReadStatus (u : Ppu) : Ppu := { u with status := u.status &&& 0x7F, w := false }

/-- `PPU.write_oam_addr(d)` (60_exceptions.md R295). -/
def ppuWriteOamAddr (d : Byte) (u : Ppu) : Ppu := { u with oamAddr := d }

/-- `PPU.read_oam()`, which changes nothing (60_exceptions.md R295). -/
def ppuReadOam (u : Ppu) : Byte := memGet u.oam u.oamAddr.toNat

/-- `PPU.write_oam_data(d)` (60_exceptions.md R295). -/
def ppuWriteOamData (d : Byte) (u : Ppu) : Ppu :=
  { u with oam := memSet u.oam u.oamAddr.toNat d, oamAddr := u.oamAddr + 1 }

/-- `PPU.write_addr(d)`, port $2006 (60_exceptions.md R296). -/
def ppuWriteAddr (d : Byte) (u : Ppu) : Ppu :=
  if u.w then
    let t := (u.t &&& 0x7F00) ||| d.setWidth 15
    { u with t := t, v := t, w := false }
  else { u with t := (u.t &&& 0x00FF) ||| ((d.setWidth 15 &&& 0x003F) <<< 8), w := true }

/-- `PPU.write_scroll(d)`, port $2005 (60_exceptions.md R299). -/
def ppuWriteScroll (d : Byte) (u : Ppu) : Ppu :=
  if u.w then
    { u with t := (u.t &&& 0x0C1F) ||| ((d.setWidth 15 &&& 0x0007) <<< 12) ||| ((d.setWidth 15 >>> 3) <<< 5), w := false }
  else { u with t := (u.t &&& 0x7FE0) ||| (d.setWidth 15 >>> 3), x := d.setWidth 3, w := true }

/-- `v` after an access to $2007: up by 1 or 32, modulo 32768 (60_exceptions.md R297, R298). -/
def ppuNextV (u : Ppu) : VramAddr := u.v + (if u.ctrl.getLsbD 2 then 32 else 1)

/-- The byte `PPU.read_data()` returns (60_exceptions.md R297). For `v` in $4000-$7FFF the read is fatal and this value
is not used. -/
def ppuReadDataValue (u : Ppu) : Byte :=
  if u.v.toNat < 0x3F00 then u.buf
  else if u.v.toNat < 0x4000 then memGet u.pal (palIndex u.v)
  else 0

/-- The byte `PPU.read_data()` loads into `buf` (60_exceptions.md R297). -/
def ppuNextBuf (cart : Cartridge) (u : Ppu) : Byte :=
  if u.v.toNat < 0x2000 then memGet cart.chr u.v.toNat else memGet u.vram (ntIndex cart.mirroring u.v)

/-- What `PPU.read_data()` leaves (60_exceptions.md R297). -/
def ppuAfterReadData (cart : Cartridge) (u : Ppu) : Ppu :=
  { u with buf := ppuNextBuf cart u, v := ppuNextV u }

/-- The fatal case of a $2007 read (20_memory.md R83). -/
def ppuReadDataFatal (u : Ppu) : Bool := decide (0x4000 ≤ u.v.toNat)

/-- The fatal cases of a $2007 write (20_memory.md R83). -/
def ppuWriteDataFatal (u : Ppu) : Bool := decide (u.v.toNat < 0x2000 ∨ 0x4000 ≤ u.v.toNat)

/-- `PPU.write_data(d)` where it is not fatal (60_exceptions.md R298). -/
def ppuWriteData (cart : Cartridge) (d : Byte) (u : Ppu) : Ppu :=
  if u.v.toNat < 0x3F00 then { u with vram := memSet u.vram (ntIndex cart.mirroring u.v) d, v := ppuNextV u }
  else { u with pal := memSet u.pal (palIndex u.v) d, v := ppuNextV u }

/-- The move of the counter by one dot, `f` toggling when `scanline` wraps from 261 to 0 (60_exceptions.md R300). -/
def ppuAdvance (u : Ppu) : Ppu :=
  { u with
    dot := if u.dot + 1 = 341 then 0 else u.dot + 1
    scanline := if u.dot + 1 = 341 then (if u.scanline + 1 = 262 then 0 else u.scanline + 1) else u.scanline
    f := if u.dot + 1 = 341 ∧ u.scanline + 1 = 262 then !u.f else u.f }

/-- The counter is at scanline 241, dot 1: vblank begins (60_exceptions.md R301). -/
def atVblankStart (u : Ppu) : Bool := u.scanline == 241 && u.dot == 1

/-- The counter is at scanline 261, dot 1: vblank ends (60_exceptions.md R301). -/
def atVblankEnd (u : Ppu) : Bool := u.scanline == 261 && u.dot == 1

/-- The two timed events, where the counter has arrived (60_exceptions.md R300, R301). -/
def ppuEvents (u : Ppu) : Ppu :=
  { u with
    status :=
      if atVblankStart u then u.status ||| 0x80 else if atVblankEnd u then u.status &&& 0x1F else u.status
    nmiPending :=
      if atVblankStart u then u.nmiPending || u.ctrl.getLsbD 7 else if atVblankEnd u then false else u.nmiPending }

/-- Rendering is enabled: `mask[3]` or `mask[4]` (10_state.md R35). -/
def ppuRendering (u : Ppu) : Bool := u.mask.getLsbD 3 || u.mask.getLsbD 4

/-- What the renderer is a function of (60_exceptions.md R322). -/
def ppuSnapshot (cart : Cartridge) (u : Ppu) : PictureSnapshot :=
  { vram := u.vram, pal := u.pal, oam := u.oam, ctrl := u.ctrl, mask := u.mask, v := u.v, t := u.t, x := u.x,
    chr := cart.chr, mirroring := cart.mirroring }

/-- Whether Sprite-0 hit is set where the counter has arrived (60_exceptions.md R305 (b)): at scanlines 0..239, with
rendering enabled and a picture in which sprite 0 overlaps the background, the open policy decides (log 6). -/
def spriteZeroHits (cart : Cartridge) (u : Ppu) : Bool :=
  decide (u.scanline < 240) && ppuRendering u && Config.spriteZeroOverlap (ppuSnapshot cart u) &&
    Config.s0Policy u.s0Draws

/-- Sprite-0 hit at one dot; the free value's counter advances (60_exceptions.md R305; log 6). -/
def ppuSpriteZero (cart : Cartridge) (u : Ppu) : Ppu :=
  { u with
    status := if spriteZeroHits cart u then u.status ||| 0x40 else u.status
    s0Draws := u.s0Draws + 1 }

/-- One dot (60_exceptions.md R300). -/
def ppuDot (cart : Cartridge) (u : Ppu) : Ppu := ppuSpriteZero cart (ppuEvents (ppuAdvance u))

/-- `PPU.tick(n)`: n dots, one at a time (60_exceptions.md R300). -/
def ppuTick (cart : Cartridge) : Nat → Ppu → Ppu
  | 0, u => u
  | n + 1, u => ppuTick cart n (ppuDot cart u)

end Sys2Proof.Machine
end

