-- ==== Sys2Proof/Machine/Ops.lean ====
section
/-! DEFINITION. The named operations over memory and registers: the bus (20_memory.md), OAM DMA and the tick (60_exceptions.md sections 4 and 7), the stack (10_state.md R24), and taking and returning from a trap (60_exceptions.md section 3). -/

namespace Sys2Proof.Machine

/-- How a bus access, or a run of them, ends: with a value in a new state, or in a fatal outcome that carries no state
(60_exceptions.md R266; log 10). -/
inductive Access (α : Type) where
  | done (v : α) (s : State)
  | fatal (f : Fault)

/-- Go on after an access; a fatal outcome ends the run of accesses there (60_exceptions.md R266). -/
def andThen {α β : Type} (r : Access α) (k : α → State → Access β) : Access β :=
  match r with
  | .done v s => k v s
  | .fatal f => .fatal f

/-! ## Address decoding -/

/-- The byte of `ram` an address of $0000-$1FFF names: `a & $07FF` (20_memory.md R54). -/
def ramIndex (a : Addr) : Nat := a.toNat % 0x800

/-- The byte of `PRG_ROM` an address of $8000-$FFFF names (20_memory.md R52, R56). -/
def prgIndex (size : PrgSize) (a : Addr) : Nat :=
  match size with
  | .kib32 => a.toNat - 0x8000
  | .kib16 => (a.toNat - 0x8000) % 0x4000

/-- The eight PPU ports (60_exceptions.md R290). -/
inductive PpuPort where
  | ctrl | mask | status | oamAddr | oamData | scroll | addr | data
  deriving DecidableEq, Repr

/-- The port an address of $2000-$3FFF reaches: `a & $2007` (20_memory.md R55). -/
def portOf (a : Addr) : PpuPort :=
  match a.toNat % 8 with
  | 0 => .ctrl
  | 1 => .mask
  | 2 => .status
  | 3 => .oamAddr
  | 4 => .oamData
  | 5 => .scroll
  | 6 => .addr
  | _ => .data

/-- The address reaches the PPU ports. -/
def isPpu (a : Addr) : Bool := decide (0x2000 ≤ a.toNat ∧ a.toNat < 0x4000)

/-- The address reaches the port given. -/
def isPort (port : PpuPort) (a : Addr) : Bool := isPpu a && portOf a == port

/-- The address names a byte that stores and fetches plainly: RAM or PRG-ROM (20_memory.md R67, R69). -/
def isStorage (a : Addr) : Bool := decide (a.toNat < 0x2000 ∨ 0x8000 ≤ a.toNat)

/-! ## Reading the bus -/

/-- What a read of a port returns; the write-only ones read 0 (20_memory.md R52). -/
def portValue (port : PpuPort) (u : Ppu) : Byte :=
  match port with
  | .status => u.status
  | .oamData => ppuReadOam u
  | .data => ppuReadDataValue u
  | .ctrl | .mask | .oamAddr | .scroll | .addr => 0

/-- What a read of a port leaves (20_memory.md R52). -/
def portAfterRead (cart : Cartridge) (port : PpuPort) (u : Ppu) : Ppu :=
  match port with
  | .status => ppuAfterReadStatus u
  | .data => ppuAfterReadData cart u
  | .oamData | .ctrl | .mask | .oamAddr | .scroll | .addr => u

/-- The column "value returned" of `Bus.read(a)` (20_memory.md R52). -/
def readValue (s : State) (a : Addr) : Byte :=
  if a.toNat < 0x2000 then memGet s.ram (ramIndex a)
  else if a.toNat < 0x4000 then portValue (portOf a) s.ppu
  else if a.toNat = 0x4016 then joypadReadValue s.joy1
  else if a.toNat = 0x4017 then joypadReadValue s.joy2
  else if a.toNat < 0x8000 then 0
  else memGet s.cart.prg (prgIndex s.cart.prgSize a)

/-- The column "side effect" of `Bus.read(a)` (20_memory.md R52, R67). -/
def readEffect (s : State) (a : Addr) : State :=
  if isPpu a then s.setPpu (portAfterRead s.cart (portOf a) s.ppu)
  else if a.toNat = 0x4016 then s.setJoy1 (joypadAfterRead s.joy1)
  else if a.toNat = 0x4017 then s.setJoy2 (joypadAfterRead s.joy2)
  else s

/-- The reads that are fatal: port $2007 while `v` is in $4000-$7FFF (60_exceptions.md R269). -/
def readIsFatal (s : State) (a : Addr) : Bool := isPort .data a && ppuReadDataFatal s.ppu

/-- `MemRead(a, 1)` = `Bus.read(a)` (20_memory.md R52). -/
def busRead (a : Addr) (s : State) : Access Byte :=
  if readIsFatal s a then .fatal (.unmappedPpuRead s.ppu.v) else .done (readValue s a) (readEffect s a)

/-- The value of `MemRead(a, 2)` where neither byte's read has an effect, low byte first (20_memory.md R62). -/
def readWord (s : State) (a : Addr) : Addr := word16 (readValue s (a + 1)) (readValue s a)

/-- An address in page $00. -/
def zeroPage (b : Byte) : Addr := word16 0x00 b

/-- `MemReadZP16(p)`: both bytes from page $00 (20_memory.md R63). -/
def readZeroPageWord (s : State) (b : Byte) : Addr :=
  word16 (readValue s (zeroPage (b + 1))) (readValue s (zeroPage b))

/-! ## Writing the bus -/

/-- A store to $0000-$1FFF (20_memory.md R53, R54). -/
def writeRam (a : Addr) (d : Byte) (s : State) : State := s.setRam (memSet s.ram (ramIndex a) d)

/-- A write to a port; PPUSTATUS ignores it (20_memory.md R53, R83). -/
def portWrite (port : PpuPort) (d : Byte) (s : State) : Access Unit :=
  match port with
  | .ctrl => .done () (s.setPpu (ppuWriteCtrl d s.ppu))
  | .mask => .done () (s.setPpu (ppuWriteMask d s.ppu))
  | .status => .done () s
  | .oamAddr => .done () (s.setPpu (ppuWriteOamAddr d s.ppu))
  | .oamData => .done () (s.setPpu (ppuWriteOamData d s.ppu))
  | .scroll => .done () (s.setPpu (ppuWriteScroll d s.ppu))
  | .addr => .done () (s.setPpu (ppuWriteAddr d s.ppu))
  | .data =>
    if ppuWriteDataFatal s.ppu then .fatal (.unmappedPpuWrite s.ppu.v)
    else .done () (s.setPpu (ppuWriteData s.cart d s.ppu))

/-- The copy of OAM DMA: `n` bus reads at ascending addresses from `src`, each stored at `oam[oam_addr]`
(60_exceptions.md R310). -/
def dmaCopy : Nat → Addr → State → Access Unit
  | 0, _, s => .done () s
  | n + 1, src, s =>
    andThen (busRead src s) fun b s1 => dmaCopy n (src + 1) (s1.setPpu (ppuWriteOamData b s1.ppu))

/-- `DMA_STALL_EVEN` and `DMA_STALL_ODD` (60_exceptions.md R310, 00_scope.md R5). -/
def dmaStallFor (cycles : Nat) : Nat := if cycles % 2 = 0 then 513 else 514

/-- A write of page `d` to $4014: the copy, then the stall (60_exceptions.md R310). -/
def oamDma (d : Byte) (s : State) : Access Unit :=
  andThen (dmaCopy 256 (word16 d 0x00) s) fun _ s1 => .done () (s1.setDmaStall (s1.dmaStall + dmaStallFor s1.cycles))

/-- `MemWrite(a, 1, d)` = `Bus.write(a, d)` (20_memory.md R53). -/
def busWrite (a : Addr) (d : Byte) (s : State) : Access Unit :=
  if a.toNat < 0x2000 then .done () (writeRam a d s)
  else if a.toNat < 0x4000 then portWrite (portOf a) d s
  else if a.toNat = 0x4014 then oamDma d s
  else if a.toNat = 0x4016 then .done () (s.setJoy1 (joypadWrite d s.joy1))
  else if a.toNat < 0x8000 then .done () s
  else .fatal (.writeToRom a)

/-! ## The tick and the end of an instruction -/

/-- The PPU after the tick of `c` CPU cycles: three dots for each cycle and each stall cycle (60_exceptions.md R280). -/
def tickedPpu (c : Nat) (s : State) : Ppu := ppuTick s.cart (3 * (c + s.dmaStall)) s.ppu

/-- `Bus.tick(c)` (60_exceptions.md R280). -/
def busTick (c : Nat) (s : State) : State :=
  { s with
    dmaStall := 0
    cycles := s.cycles + (c + s.dmaStall)
    ppu := tickedPpu c s
    frameReady := s.frameReady || (!s.ppu.nmiPending && (tickedPpu c s).nmiPending)
    pendingNmi := (tickedPpu c s).nmiPending }

/-- The end of every instruction: PC written, then the tick of its cycles (60_exceptions.md R260 items 4 to 6). -/
def finish (pc : Addr) (cycles : Nat) (s : State) : Host.Outcome State Fault Refusal :=
  .next (busTick cycles (s.setPc pc))

/-! ## The stack -/

/-- The address SP designates: `$0100 + SP` (10_state.md R23). -/
def stackAddr (sp : Byte) : Addr := word16 0x01 sp

/-- `Push8(v)`: the write, then the decrement; page $01 is RAM, so the write is plain (10_state.md R24). -/
def push8 (d : Byte) (s : State) : State := (writeRam (stackAddr s.sp) d s).setSp (s.sp - 1)

/-- `Push16(w)`: high byte first (10_state.md R24). -/
def push16 (w : Addr) (s : State) : State := push8 (loByte w) (push8 (hiByte w) s)

/-- The byte `Pop8()` returns (10_state.md R24). -/
def pop8Value (s : State) : Byte := readValue s (stackAddr (s.sp + 1))

/-- What `Pop8()` leaves: SP incremented, nothing else (10_state.md R24). -/
def pop8State (s : State) : State := s.setSp (s.sp + 1)

/-- The word `Pop16()` returns: low byte first (10_state.md R24). -/
def pop16Value (s : State) : Addr := word16 (pop8Value (pop8State s)) (pop8Value s)

/-- What `Pop16()` leaves (10_state.md R24). -/
def pop16State (s : State) : State := pop8State (pop8State s)

/-! ## Traps -/

/-- The three vectors (20_memory.md R69). -/
def nmiVector : Addr := 0xFFFA
def resetVector : Addr := 0xFFFC
def brkVector : Addr := 0xFFFE

/-- `NMI_SERVICE_CYCLES` (60_exceptions.md R274, D32). -/
def nmiServiceCycles : Nat := 2

/-- Taking a trap, shared by NMI and BRK: the return address is pushed, then the copy of the status, and I is set
(60_exceptions.md R274, R275). Each then loads PC from its own vector with `readWord`. -/
def enterTrap (ret : Addr) (status : Byte) (s : State) : State :=
  let s := push8 status (push16 ret s)
  s.setP (setI true s.p)

/-- Returning from a trap: P, then PC, from the stack (60_exceptions.md R276, 44_jumps_stack_brk_nop.md R213): the
state with P and SP restored; the popped PC is `pop16Value` of it with P not yet read. -/
def leaveTrap (s : State) : State := pop16State ((pop8State s).setP (pulledStatus (pop8Value s)))

/-- The PC that returning from a trap pops, "no +1" (44_jumps_stack_brk_nop.md R213). -/
def leaveTrapPc (s : State) : Addr := pop16Value (pop8State s)

/-- `Bus.poll_nmi()`, the state it leaves: the replica cleared, and the PPU's flag too if it was set
(60_exceptions.md R283). -/
def pollNmi (s : State) : State :=
  if s.pendingNmi then (s.setPendingNmi false).setPpu { s.ppu with nmiPending := false } else s

/-- The NMI service (60_exceptions.md R274): the pushes, I, `Tick(2)`, then PC from $FFFA. -/
def serviceNmi (s : State) : State :=
  let s := busTick nmiServiceCycles (enterTrap s.pc (pushedByNmi s.p) s)
  s.setPc (readWord s nmiVector)

/-- Item 1 of the step: a pending NMI is consumed and serviced (60_exceptions.md R260, R283). -/
def takePendingNmi (s : State) : State := if s.pendingNmi then serviceNmi (pollNmi s) else s

end Sys2Proof.Machine
end

