-- ==== Sys2Proof/Machine/Operands.lean ====
section
/-! DEFINITION. The operand forms: effective addresses, page crossing, lengths and cycle costs of the addressing modes (30_encoding.md R91 to R103, R105, R110, R111), and the shapes the instruction rules share (40_loads_stores_transfers.md R128). -/

namespace Sys2Proof.Machine

/-- The un-indexed base of an indexed address (30_encoding.md R99, R102); for the other modes the effective address. -/
def baseAddress (o : MemOperand) (s : State) : Addr :=
  match o with
  | .zp a => zeroPage a
  | .zpx a => zeroPage (a + s.x)
  | .zpy a => zeroPage (a + s.y)
  | .abs w | .abx w | .aby w => w
  | .izx b => readZeroPageWord s (b + s.x)
  | .izy b => readZeroPageWord s b

/-- The effective address `ea` (30_encoding.md R96 to R99, R101, R102). -/
def effAddr (o : MemOperand) (s : State) : Addr :=
  match o with
  | .abx _ => baseAddress o s + s.x.setWidth 16
  | .aby _ | .izy _ => baseAddress o s + s.y.setWidth 16
  | .zp _ | .zpx _ | .zpy _ | .abs _ | .izx _ => baseAddress o s

/-- `crossed`: the page of the effective address differs from the page of the base (30_encoding.md R99, R102); false for
the other modes. -/
def crossed (o : MemOperand) (s : State) : Bool := hiByte (baseAddress o s) != hiByte (effAddr o s)

/-- Length of an instruction with a memory operand (30_encoding.md R91). -/
def memLength (o : MemOperand) : Addr :=
  match o with
  | .zp _ | .zpx _ | .zpy _ | .izx _ | .izy _ => 2
  | .abs _ | .abx _ | .aby _ => 3

/-- Length of a reading instruction (30_encoding.md R91). -/
def sourceLength (src : Source) : Addr :=
  match src with
  | .imm _ => 2
  | .mem o => memLength o

/-- Base cycles of an instruction that reads its memory operand, and of the *NOPs (30_encoding.md R105). -/
def readBaseCycles (o : MemOperand) : Nat :=
  match o with
  | .zp _ => 3
  | .zpx _ | .zpy _ | .abs _ | .abx _ | .aby _ => 4
  | .izx _ => 6
  | .izy _ => 5

/-- Cycles of an instruction that reads its memory operand: base, and one more when the page is crossed; the bytes with
the page-cross flag are the Absolute,X, Absolute,Y and (Indirect),Y forms, the only ones where `crossed` can be true
(30_encoding.md R110, R111). -/
def readCycles (o : MemOperand) (s : State) : Nat := readBaseCycles o + if crossed o s then 1 else 0

/-- Cycles of a reading instruction; Immediate costs 2 (30_encoding.md R105, R111). -/
def sourceCycles (src : Source) (s : State) : Nat :=
  match src with
  | .imm _ => 2
  | .mem o => readCycles o s

/-- Cycles of a store; no page-cross flag (30_encoding.md R105, R110). -/
def storeCycles (o : MemOperand) : Nat :=
  match o with
  | .zp _ => 3
  | .zpx _ | .zpy _ | .abs _ => 4
  | .abx _ | .aby _ => 5
  | .izx _ | .izy _ => 6

/-- Cycles of a read-modify-write on memory; no page-cross flag (30_encoding.md R105, R110). -/
def modifyCycles (o : MemOperand) : Nat :=
  match o with
  | .zp _ => 5
  | .zpx _ | .zpy _ | .abs _ => 6
  | .abx _ | .aby _ => 7
  | .izx _ | .izy _ => 8

/-! ## The shared shapes. Each gets the state with PC at the opcode byte, `opPC` (log 9). -/

/-- An Implied or Accumulator instruction: no access, one byte (30_encoding.md R93, R94). -/
def implied (cycles : Nat) (f : State → State) (s : State) : Host.Outcome State Fault Refusal :=
  finish (s.pc + 1) cycles (f s)

/-- `M`: the immediate byte, fetched with the instruction, or one bus read of `ea` (30_encoding.md R92, R95). -/
def readSource (src : Source) (s : State) : Access Byte :=
  match src with
  | .imm d => .done d s
  | .mem o => busRead (effAddr o s) s

/-- An instruction that reads M once and then does `f M` (40_loads_stores_transfers.md R128). -/
def readThen (src : Source) (f : Byte → State → State) (s : State) : Host.Outcome State Fault Refusal :=
  match readSource src s with
  | .fatal e => .fault e
  | .done m s1 => finish (s.pc + sourceLength src) (sourceCycles src s) (f m s1)

/-- A store of `d`: one bus write of `ea`, which is not read (40_loads_stores_transfers.md R133). -/
def storeByte (o : MemOperand) (d : Byte) (s : State) : Host.Outcome State Fault Refusal :=
  match busWrite (effAddr o s) d s with
  | .fatal e => .fault e
  | .done _ s1 => finish (s.pc + memLength o) (storeCycles o) s1

/-- A read-modify-write: one read of `ea`, one write of `result m` to it, then `after m r` (20_memory.md R66,
45_undocumented.md R230). -/
def modifyThen (o : MemOperand) (result : Byte → State → Byte) (after : Byte → Byte → State → State) (s : State) :
    Host.Outcome State Fault Refusal :=
  match busRead (effAddr o s) s with
  | .fatal e => .fault e
  | .done m s1 =>
    match busWrite (effAddr o s) (result m s1) s1 with
    | .fatal e => .fault e
    | .done _ s2 => finish (s.pc + memLength o) (modifyCycles o) (after m (result m s1) s2)

/-- A shift or rotate on A or on memory (41_arithmetic_logic_shifts.md, "Shifts and rotates"). -/
def shiftThen (tgt : Target) (result : Byte → State → Byte) (out : Byte → Bool) (s : State) :
    Host.Outcome State Fault Refusal :=
  match tgt with
  | .acc =>
    implied 2 (fun s => (s.setA (result s.a s)).setP (shiftFlags (out s.a) (result s.a s) s.p)) s
  | .mem o => modifyThen o result (fun m r s => s.setP (shiftFlags (out m) r s.p)) s

/-- The target of a branch taken with offset byte `off` (42_branches_compares.md R170). -/
def branchTarget (off : Byte) (s : State) : Addr := s.pc + 2 + off.signExtend 16

/-- The frame of the eight branches (42_branches_compares.md R170). -/
def branchIf (cond : Bool) (off : Byte) (s : State) : Host.Outcome State Fault Refusal :=
  if cond then
    finish (branchTarget off s) (3 + if hiByte (branchTarget off s) != hiByte (s.pc + 2) then 1 else 0) s
  else finish (s.pc + 2) 2 s

/-- `A <- v; SetNZ(A)` and the same for X and Y (10_state.md R27). -/
def loadA (v : Byte) (s : State) : State := (s.setA v).setP (setNZ v s.p)
def loadX (v : Byte) (s : State) : State := (s.setX v).setP (setNZ v s.p)
def loadY (v : Byte) (s : State) : State := (s.setY v).setP (setNZ v s.p)

/-- `AddCore(m)` on A and P (41_arithmetic_logic_shifts.md R149). -/
def addCore (m : Byte) (s : State) : State := (s.setA (addResult s.a m s.p)).setP (addFlags s.a m s.p)

/-- `Compare(reg, m)` on P (42_branches_compares.md R179). -/
def compareWith (reg m : Byte) (s : State) : State := s.setP (compareFlags reg m s.p)

end Sys2Proof.Machine
end

