-- ==== Sys2Proof/Machine/Arithmetic.lean ====
section
/-! DEFINITION. Arithmetic, logic, shifts, rotates and BIT (41_arithmetic_logic_shifts.md). -/

namespace Sys2Proof.Machine

/-- ADC: `AddCore(M)` (41_arithmetic_logic_shifts.md R150). -/
def execAdc (src : Source) (s : State) : Host.Outcome State Fault Refusal := readThen src addCore s

/-- SBC: `AddCore(M ^ $FF)` (41_arithmetic_logic_shifts.md R151). -/
def execSbc (src : Source) (s : State) : Host.Outcome State Fault Refusal :=
  readThen src (fun m s => addCore (m ^^^ 0xFF) s) s

/-- AND: `A <- A & M; SetNZ(A)` (41_arithmetic_logic_shifts.md R152). -/
def execAnd (src : Source) (s : State) : Host.Outcome State Fault Refusal :=
  readThen src (fun m s => loadA (s.a &&& m) s) s

/-- ORA: `A <- A | M; SetNZ(A)` (41_arithmetic_logic_shifts.md R153). -/
def execOra (src : Source) (s : State) : Host.Outcome State Fault Refusal :=
  readThen src (fun m s => loadA (s.a ||| m) s) s

/-- EOR: `A <- A ^ M; SetNZ(A)` (41_arithmetic_logic_shifts.md R154). -/
def execEor (src : Source) (s : State) : Host.Outcome State Fault Refusal :=
  readThen src (fun m s => loadA (s.a ^^^ m) s) s

/-- ASL: bit 7 to C, shift left (41_arithmetic_logic_shifts.md R155). -/
def execAsl (tgt : Target) (s : State) : Host.Outcome State Fault Refusal :=
  shiftThen tgt (fun v _ => shiftLeft v) (fun v => v.getLsbD 7) s

/-- LSR: bit 0 to C, shift right (41_arithmetic_logic_shifts.md R156). -/
def execLsr (tgt : Target) (s : State) : Host.Outcome State Fault Refusal :=
  shiftThen tgt (fun v _ => shiftRight v) (fun v => v.getLsbD 0) s

/-- ROL: rotate left through C (41_arithmetic_logic_shifts.md R157). -/
def execRol (tgt : Target) (s : State) : Host.Outcome State Fault Refusal :=
  shiftThen tgt (fun v s => rotateLeft (flagC s.p) v) (fun v => v.getLsbD 7) s

/-- ROR: rotate right through C (41_arithmetic_logic_shifts.md R158). -/
def execRor (tgt : Target) (s : State) : Host.Outcome State Fault Refusal :=
  shiftThen tgt (fun v s => rotateRight (flagC s.p) v) (fun v => v.getLsbD 0) s

/-- BIT: Z from `M & A`, N and V from bits 7 and 6 of M (41_arithmetic_logic_shifts.md R159). -/
def execBit (o : MemOperand) (s : State) : Host.Outcome State Fault Refusal :=
  readThen (.mem o) (fun m s => s.setP (bitFlags s.a m s.p)) s


end Sys2Proof.Machine
end

