-- ==== Sys2Proof/Machine/Branches.lean ====
section
/-! DEFINITION. Conditional branches and compares (42_branches_compares.md). -/

namespace Sys2Proof.Machine

/-- BCC: branch if C = 0 (42_branches_compares.md R171). -/
def execBcc (off : Byte) (s : State) : Host.Outcome State Fault Refusal := branchIf (!flagC s.p) off s

/-- BCS: branch if C = 1 (42_branches_compares.md R172). -/
def execBcs (off : Byte) (s : State) : Host.Outcome State Fault Refusal := branchIf (flagC s.p) off s

/-- BEQ: branch if Z = 1 (42_branches_compares.md R173). -/
def execBeq (off : Byte) (s : State) : Host.Outcome State Fault Refusal := branchIf (flagZ s.p) off s

/-- BNE: branch if Z = 0 (42_branches_compares.md R174). -/
def execBne (off : Byte) (s : State) : Host.Outcome State Fault Refusal := branchIf (!flagZ s.p) off s

/-- BMI: branch if N = 1 (42_branches_compares.md R175). -/
def execBmi (off : Byte) (s : State) : Host.Outcome State Fault Refusal := branchIf (flagN s.p) off s

/-- BPL: branch if N = 0 (42_branches_compares.md R176). -/
def execBpl (off : Byte) (s : State) : Host.Outcome State Fault Refusal := branchIf (!flagN s.p) off s

/-- BVC: branch if V = 0 (42_branches_compares.md R177). -/
def execBvc (off : Byte) (s : State) : Host.Outcome State Fault Refusal := branchIf (!flagV s.p) off s

/-- BVS: branch if V = 1 (42_branches_compares.md R178). -/
def execBvs (off : Byte) (s : State) : Host.Outcome State Fault Refusal := branchIf (flagV s.p) off s

/-- CMP: `Compare(A, M)` (42_branches_compares.md R179). -/
def execCmp (src : Source) (s : State) : Host.Outcome State Fault Refusal :=
  readThen src (fun m s => compareWith s.a m s) s

/-- CPX: `Compare(X, M)` (42_branches_compares.md R180). -/
def execCpx (src : Source) (s : State) : Host.Outcome State Fault Refusal :=
  readThen src (fun m s => compareWith s.x m s) s

/-- CPY: `Compare(Y, M)` (42_branches_compares.md R181). -/
def execCpy (src : Source) (s : State) : Host.Outcome State Fault Refusal :=
  readThen src (fun m s => compareWith s.y m s) s


end Sys2Proof.Machine
end

