-- ==== Sys2Proof/Machine/IncDec.lean ====
section
/-! DEFINITION. Increments, decrements and flag operations (43_incdec_flags.md). -/

namespace Sys2Proof.Machine

/-- INC: `r <- (M + 1) mod 256`, stored, then `SetNZ(r)` (43_incdec_flags.md R190). -/
def execInc (o : MemOperand) (s : State) : Host.Outcome State Fault Refusal :=
  modifyThen o (fun m _ => m + 1) (fun _ r s => s.setP (setNZ r s.p)) s

/-- DEC: `r <- (M - 1) mod 256`, stored, then `SetNZ(r)` (43_incdec_flags.md R191). -/
def execDec (o : MemOperand) (s : State) : Host.Outcome State Fault Refusal :=
  modifyThen o (fun m _ => m - 1) (fun _ r s => s.setP (setNZ r s.p)) s

/-- INX: `X <- (X + 1) mod 256; SetNZ(X)` (43_incdec_flags.md R192). -/
def execInx (s : State) : Host.Outcome State Fault Refusal := implied 2 (fun s => loadX (s.x + 1) s) s

/-- INY: `Y <- (Y + 1) mod 256; SetNZ(Y)` (43_incdec_flags.md R193). -/
def execIny (s : State) : Host.Outcome State Fault Refusal := implied 2 (fun s => loadY (s.y + 1) s) s

/-- DEX: `X <- (X - 1) mod 256; SetNZ(X)` (43_incdec_flags.md R194). -/
def execDex (s : State) : Host.Outcome State Fault Refusal := implied 2 (fun s => loadX (s.x - 1) s) s

/-- DEY: `Y <- (Y - 1) mod 256; SetNZ(Y)` (43_incdec_flags.md R195). -/
def execDey (s : State) : Host.Outcome State Fault Refusal := implied 2 (fun s => loadY (s.y - 1) s) s

/-- CLC: `P.C <- 0` (43_incdec_flags.md R197). -/
def execClc (s : State) : Host.Outcome State Fault Refusal := implied 2 (fun s => s.setP (setC false s.p)) s

/-- SEC: `P.C <- 1` (43_incdec_flags.md R198). -/
def execSec (s : State) : Host.Outcome State Fault Refusal := implied 2 (fun s => s.setP (setC true s.p)) s

/-- CLD: `P.D <- 0` (43_incdec_flags.md R199). -/
def execCld (s : State) : Host.Outcome State Fault Refusal := implied 2 (fun s => s.setP (setD false s.p)) s

/-- SED: `P.D <- 1` (43_incdec_flags.md R200). -/
def execSed (s : State) : Host.Outcome State Fault Refusal := implied 2 (fun s => s.setP (setD true s.p)) s

/-- CLI: `P.I <- 0` (43_incdec_flags.md R201). -/
def execCli (s : State) : Host.Outcome State Fault Refusal := implied 2 (fun s => s.setP (setI false s.p)) s

/-- SEI: `P.I <- 1` (43_incdec_flags.md R202). -/
def execSei (s : State) : Host.Outcome State Fault Refusal := implied 2 (fun s => s.setP (setI true s.p)) s

/-- CLV: `P.V <- 0` (43_incdec_flags.md R203). -/
def execClv (s : State) : Host.Outcome State Fault Refusal := implied 2 (fun s => s.setP (setV false s.p)) s


end Sys2Proof.Machine
end

