-- ==== Sys2Proof/Machine/Jumps.lean ====
section
/-! DEFINITION. Jumps, subroutines, returns, stack, BRK and NOP (44_jumps_stack_brk_nop.md). -/

namespace Sys2Proof.Machine

/-- The address of the high byte of JMP Indirect's target: only the low byte of the vector is incremented
(44_jumps_stack_brk_nop.md R210). -/
def jumpHighAddr (vec : Addr) : Addr := word16 (hiByte vec) (loByte vec + 1)

/-- JMP: to `ea`, or to the word the vector holds, low byte read first (44_jumps_stack_brk_nop.md R210). -/
def execJmp (j : JumpOperand) (s : State) : Host.Outcome State Fault Refusal :=
  match j with
  | .abs w => finish w 3 s
  | .ind w =>
    match andThen (busRead w s) (fun lo s1 => andThen (busRead (jumpHighAddr w) s1) fun hi s2 => .done (word16 hi lo) s2) with
    | .fatal e => .fault e
    | .done target s2 => finish target 5 s2

/-- JSR: `Push16(opPC + 2); PC <- ea` (44_jumps_stack_brk_nop.md R211). -/
def execJsr (w : Addr) (s : State) : Host.Outcome State Fault Refusal := finish w 6 (push16 (s.pc + 2) s)

/-- RTS: `PC <- Pop16() + 1` (44_jumps_stack_brk_nop.md R212). -/
def execRts (s : State) : Host.Outcome State Fault Refusal := finish (pop16Value s + 1) 6 (pop16State s)

/-- RTI: `P <- (Pop8() & $EF) | $20; PC <- Pop16()` (44_jumps_stack_brk_nop.md R213). -/
def execRti (s : State) : Host.Outcome State Fault Refusal := finish (leaveTrapPc s) 6 (leaveTrap s)

/-- PHA: `Push8(A)` (44_jumps_stack_brk_nop.md R215). -/
def execPha (s : State) : Host.Outcome State Fault Refusal := implied 3 (fun s => push8 s.a s) s

/-- PLA: `A <- Pop8(); SetNZ(A)` (44_jumps_stack_brk_nop.md R216). -/
def execPla (s : State) : Host.Outcome State Fault Refusal := implied 4 (fun s => loadA (pop8Value s) (pop8State s)) s

/-- PHP: `Push8(P | $30)` (44_jumps_stack_brk_nop.md R217). -/
def execPhp (s : State) : Host.Outcome State Fault Refusal := implied 3 (fun s => push8 (pushedByProgram s.p) s) s

/-- PLP: `P <- (Pop8() & $EF) | $20` (44_jumps_stack_brk_nop.md R218). -/
def execPlp (s : State) : Host.Outcome State Fault Refusal :=
  implied 4 (fun s => (pop8State s).setP (pulledStatus (pop8Value s))) s

/-- BRK (44_jumps_stack_brk_nop.md R221). Hardware: the trap is taken, `opPC + 2` and `P | $30` pushed, I set, PC from $FFFE, 7
cycles. Halt: PC is `opPC + 1`, nothing else changes, no tick, and the run has ended (log 8). -/
def execBrk (s : State) : Host.Outcome State Fault Refusal :=
  match s.build.brkMode with
  | .hardware =>
    let t := enterTrap (s.pc + 2) (pushedByProgram s.p) s
    finish (readWord t brkVector) 7 t
  | .halt => .next ((s.setPc (s.pc + 1)).setHalted true)

/-- NOP: nothing (44_jumps_stack_brk_nop.md R222). -/
def execNop (s : State) : Host.Outcome State Fault Refusal := implied 2 (fun s => s) s


end Sys2Proof.Machine
end

