-- ==== Sys2Proof/Machine/Loads.lean ====
section
/-! DEFINITION. Loads, stores and register transfers (40_loads_stores_transfers.md). -/

namespace Sys2Proof.Machine

/-- LDA: `A <- M; SetNZ(A)` (40_loads_stores_transfers.md R130). -/
def execLda (src : Source) (s : State) : Host.Outcome State Fault Refusal := readThen src loadA s

/-- LDX: `X <- M; SetNZ(X)` (40_loads_stores_transfers.md R131). -/
def execLdx (src : Source) (s : State) : Host.Outcome State Fault Refusal := readThen src loadX s

/-- LDY: `Y <- M; SetNZ(Y)` (40_loads_stores_transfers.md R132). -/
def execLdy (src : Source) (s : State) : Host.Outcome State Fault Refusal := readThen src loadY s

/-- STA: `MemWrite(ea, 1, A)` (40_loads_stores_transfers.md R133). -/
def execSta (o : MemOperand) (s : State) : Host.Outcome State Fault Refusal := storeByte o s.a s

/-- STX: `MemWrite(ea, 1, X)` (40_loads_stores_transfers.md R134). -/
def execStx (o : MemOperand) (s : State) : Host.Outcome State Fault Refusal := storeByte o s.x s

/-- STY: `MemWrite(ea, 1, Y)` (40_loads_stores_transfers.md R135). -/
def execSty (o : MemOperand) (s : State) : Host.Outcome State Fault Refusal := storeByte o s.y s

/-- TAX: `X <- A; SetNZ(X)` (40_loads_stores_transfers.md R136). -/
def execTax (s : State) : Host.Outcome State Fault Refusal := implied 2 (fun s => loadX s.a s) s

/-- TAY: `Y <- A; SetNZ(Y)` (40_loads_stores_transfers.md R137). -/
def execTay (s : State) : Host.Outcome State Fault Refusal := implied 2 (fun s => loadY s.a s) s

/-- TSX: `X <- SP; SetNZ(X)` (40_loads_stores_transfers.md R138). -/
def execTsx (s : State) : Host.Outcome State Fault Refusal := implied 2 (fun s => loadX s.sp s) s

/-- TXA: `A <- X; SetNZ(A)` (40_loads_stores_transfers.md R139). -/
def execTxa (s : State) : Host.Outcome State Fault Refusal := implied 2 (fun s => loadA s.x s) s

/-- TXS: `SP <- X`, no flag (40_loads_stores_transfers.md R140). -/
def execTxs (s : State) : Host.Outcome State Fault Refusal := implied 2 (fun s => s.setSp s.x) s

/-- TYA: `A <- Y; SetNZ(A)` (40_loads_stores_transfers.md R141). -/
def execTya (s : State) : Host.Outcome State Fault Refusal := implied 2 (fun s => loadA s.y s) s


end Sys2Proof.Machine
end

