-- ==== Sys2Proof/Machine/Undocumented.lean ====
section
/-! DEFINITION. The undocumented instructions (45_undocumented.md) and the undefined bytes (30_encoding.md R107). -/

namespace Sys2Proof.Machine

/-- *LAX: `A <- M; X <- A; SetNZ(A)` (45_undocumented.md R231). -/
def execLax (o : MemOperand) (s : State) : Host.Outcome State Fault Refusal :=
  readThen (.mem o) (fun m s => loadA m (s.setX m)) s

/-- *SAX: `MemWrite(ea, 1, A & X)`, no flag (45_undocumented.md R232). -/
def execSax (o : MemOperand) (s : State) : Host.Outcome State Fault Refusal := storeByte o (s.a &&& s.x) s

/-- *DCP: DEC, then `Compare(A, r)` (45_undocumented.md R233). -/
def execDcp (o : MemOperand) (s : State) : Host.Outcome State Fault Refusal :=
  modifyThen o (fun m _ => m - 1) (fun _ r s => compareWith s.a r s) s

/-- *ISB: INC, then `AddCore(r ^ $FF)` (45_undocumented.md R234). -/
def execIsb (o : MemOperand) (s : State) : Host.Outcome State Fault Refusal :=
  modifyThen o (fun m _ => m + 1) (fun _ r s => addCore (r ^^^ 0xFF) s) s

/-- *SLO: ASL, then `A <- A | r; SetNZ(A)` (45_undocumented.md R235). -/
def execSlo (o : MemOperand) (s : State) : Host.Outcome State Fault Refusal :=
  modifyThen o (fun m _ => shiftLeft m) (fun m r s => loadA (s.a ||| r) (s.setP (setC (m.getLsbD 7) s.p))) s

/-- *RLA: ROL, then `A <- A & r; SetNZ(A)` (45_undocumented.md R236). -/
def execRla (o : MemOperand) (s : State) : Host.Outcome State Fault Refusal :=
  modifyThen o (fun m s => rotateLeft (flagC s.p) m)
    (fun m r s => loadA (s.a &&& r) (s.setP (setC (m.getLsbD 7) s.p))) s

/-- *SRE: LSR, then `A <- A ^ r; SetNZ(A)` (45_undocumented.md R237). -/
def execSre (o : MemOperand) (s : State) : Host.Outcome State Fault Refusal :=
  modifyThen o (fun m _ => shiftRight m) (fun m r s => loadA (s.a ^^^ r) (s.setP (setC (m.getLsbD 0) s.p))) s

/-- *RRA: ROR, then `AddCore(r)` with the carry just rotated out (45_undocumented.md R238). -/
def execRra (o : MemOperand) (s : State) : Host.Outcome State Fault Refusal :=
  modifyThen o (fun m s => rotateRight (flagC s.p) m)
    (fun m r s => addCore r (s.setP (setC (m.getLsbD 0) s.p))) s

/-- *NOP: operands are consumed per mode, the byte at `ea` is not read (45_undocumented.md R239); the opcode byte decides
nothing but the form. -/
def execNopU (_opcode : Byte) (n : NopOperand) (s : State) : Host.Outcome State Fault Refusal :=
  match n with
  | .imp => implied 2 (fun s => s) s
  | .imm _ => finish (s.pc + 2) 2 s
  | .mem o => finish (s.pc + memLength o) (readCycles o s) s

/-- *SBC: as SBC Immediate (45_undocumented.md R240). -/
def execSbcU (d : Byte) (s : State) : Host.Outcome State Fault Refusal :=
  readThen (.imm d) (fun m s => addCore (m ^^^ 0xFF) s) s

/-- The 25 undefined bytes: the fatal outcome `UnknownOpcode(byte, opPC)` (30_encoding.md R107, 60_exceptions.md R267). -/
def execUndefined (opcode : Byte) (s : State) : Host.Outcome State Fault Refusal :=
  .fault (.unknownOpcode opcode s.pc)


end Sys2Proof.Machine
end

