-- ==== Sys2Proof/Machine/Fetch.lean ====
section
/-! DEFINITION. Fetching an instruction through the bus, byte by byte (60_exceptions.md R260 items 2 and 3, 20_memory.md R64, R68, R74). -/

namespace Sys2Proof.Machine

/-- The instruction at PC and the state after its fetch. The opcode byte is read first, then the operand bytes in
ascending order; an undefined byte reads none (60_exceptions.md R267), and the operand byte of an Immediate *NOP is
looked at without a bus read (45_undocumented.md R239; log 11). -/
def fetchInstr (s : State) : Access Instr :=
  andThen (busRead s.pc s) fun op s1 =>
    match decodeOpcode op with
    | .f1 i => .done i s1
    | .f2 mk => andThen (busRead (s.pc + 1) s1) fun d s2 => .done (mk d) s2
    | .f2skip mk => .done (mk (readValue s1 (s.pc + 1))) s1
    | .f3 mk =>
      andThen (busRead (s.pc + 1) s1) fun lo s2 =>
        andThen (busRead (s.pc + 2) s2) fun hi s3 => .done (mk (word16 hi lo)) s3

/-- A byte put where `a` fetches from, from outside the machine: into the RAM or into the cartridge's PRG-ROM. -/
def placeByte (a : Addr) (d : Byte) (s : State) : State :=
  if a.toNat < 0x2000 then writeRam a d s
  else if 0x8000 ≤ a.toNat then
    s.setCart { s.cart with prg := memSet s.cart.prg (prgIndex s.cart.prgSize a) d }
  else s

/-- PC points at three bytes that store and fetch plainly. -/
def fetchesFromStorage (s : State) : Bool := isStorage s.pc && isStorage (s.pc + 1) && isStorage (s.pc + 2)

/-- The machine with nothing standing between it and the fetch at PC: the run not ended, no NMI request pending, and PC
at $8000 where it pointed at bytes that cannot hold code (log 18). -/
def readyToFetch (s : State) : State :=
  let s := (pollNmi s).setHalted false
  if fetchesFromStorage s then s else s.setPc 0x8000

end Sys2Proof.Machine
end

