-- ==== Sys2Proof/Machine/Step.lean ====
section
/-! DEFINITION. One step: at most one NMI service, then exactly one instruction (60_exceptions.md R260). -/

namespace Sys2Proof.Machine

/-- One CPU step (60_exceptions.md R260). A run that BRK has ended in Halt mode has no further step (log 8). -/
def step (s : State) : Host.Outcome State Fault Refusal :=
  if s.halted then .fault .runEnded
  else
    match fetchInstr (takePendingNmi s) with
    | .fatal f => .fault f
    | .done i s1 => exec i s1

/-- `s` with an instruction of `nbits` bits placed where the next step fetches (log 4, log 18). -/
def State.withFetchWord (s : State) (nbits w : Nat) : State :=
  let bits := w % 2 ^ nbits
  let s := readyToFetch s
  let s := placeByte s.pc (BitVec.ofNat 8 bits) s
  let s := placeByte (s.pc + 1) (BitVec.ofNat 8 (bits / 256)) s
  placeByte (s.pc + 2) (BitVec.ofNat 8 (bits / 65536)) s

end Sys2Proof.Machine
end

