-- ==== Sys2Proof/Machine/HostActions.lean ====
section
/-! DEFINITION. What the host does between steps (60_exceptions.md R325, 70_reset_and_hazards.md R340 to R343); not part of step (log 17). -/

namespace Sys2Proof.Machine

/-- The machine constructed from a cartridge, with `RAM_INIT` as its RAM (10_state.md R46, D17; log 5). The CPU registers
are unspecified until the first reset; DESIGN CHOICE: they are given the values reset gives them, PC $0000 (log 12). -/
def powerOn (cart : Cartridge) (build : Build) (ramInit : Memory) : State :=
  { State.reset with cart := cart, build := build, ram := ramInit }

/-- `RESET_PC_OVERRIDE` as an address (70_reset_and_hazards.md R343). -/
def overridePc : Addr := 0xC000

/-- Where reset sends PC: the reset vector, or $C000 under the override (70_reset_and_hazards.md R340, R343). -/
def resetTarget (s : State) : Addr :=
  match s.build.resetPc with
  | .vector => readWord s resetVector
  | .forceC000 => overridePc

/-- `Cpu.reset`: the six CPU registers and nothing else of the machine (70_reset_and_hazards.md R340, R341, R342). It
starts a new run, so `halted`, the model's own, is cleared (log 8). -/
def cpuReset (s : State) : State :=
  { s with a := 0, x := 0, y := 0, sp := 0xFD, p := 0x24, pc := resetTarget s, halted := false }

/-- The host's actions on a machine it has constructed (60_exceptions.md R325). -/
inductive HostAction where
  | reset
  | takeFrameReady
  | press1 (bit : Fin 8)
  | release1 (bit : Fin 8)
  | press2 (bit : Fin 8)
  | release2 (bit : Fin 8)
  deriving DecidableEq, Repr

/-- One host action, between two steps (60_exceptions.md R281, R317, R325). -/
def hostAct (h : HostAction) (s : State) : State :=
  match h with
  | .reset => cpuReset s
  | .takeFrameReady => s.setFrameReady false
  | .press1 bit => s.setJoy1 (joypadPress bit s.joy1)
  | .release1 bit => s.setJoy1 (joypadRelease bit s.joy1)
  | .press2 bit => s.setJoy2 (joypadPress bit s.joy2)
  | .release2 bit => s.setJoy2 (joypadRelease bit s.joy2)

end Sys2Proof.Machine
end

