-- ==== Sys2Proof/Safety.lean ====
section
/-! DEFINITION. What counts as a safe access, the invariant of the machine, and the terms the statements are written in. -/

namespace Sys2Proof.Machine

/-! ## The accesses that are not fatal -/

/-- A read of `a` is not fatal: it does not reach port $2007, or `v` is in $0000-$3FFF (60_exceptions.md R269). -/
def readOk (s : State) (a : Addr) : Prop := isPort .data a = true → s.ppu.v.toNat < 0x4000

/-- What one access to $2007 adds to `v` (60_exceptions.md R297, R298). -/
def vramStep (u : Ppu) : Nat := if u.ctrl.getLsbD 2 then 32 else 1

/-- An OAM DMA from page `d` is not fatal: from pages $20-$3F it reads $2007 thirty-two times, and the last of these reads
still has `v` in $0000-$3FFF (60_exceptions.md R269, R310). -/
def dmaOk (s : State) (d : Byte) : Prop :=
  0x20 ≤ d.toNat → d.toNat < 0x40 → s.ppu.v.toNat + 31 * vramStep s.ppu < 0x4000

/-- `v` is the PPU's `v` at the fatal $2007 read of an OAM DMA that starts in `s`: the first of its reads, each after as many
advances as $2007 reads before it, to find `v` in $4000-$7FFF (60_exceptions.md R269, R310). -/
def dmaFatalV (s : State) (v : VramAddr) : Prop :=
  0x4000 ≤ v.toNat ∧ ∃ k, k < 32 ∧ v.toNat = s.ppu.v.toNat + k * vramStep s.ppu ∧
    ∀ j, j < k → s.ppu.v.toNat + j * vramStep s.ppu < 0x4000

/-- A write of `d` to `a` is not fatal: not to ROM, not to $2007 with `v` outside $2000-$3FFF, and no DMA that is fatal
(60_exceptions.md R268, R269, R270). -/
def writeOk (s : State) (a : Addr) (d : Byte) : Prop :=
  a.toNat < 0x8000 ∧ (isPort .data a = true → 0x2000 ≤ s.ppu.v.toNat ∧ s.ppu.v.toNat < 0x4000) ∧
    (a.toNat = 0x4014 → dmaOk s d)

/-! ## The invariant -/

/-- Bytes of vram: 2 KiB, and 4 KiB with a FourScreen cartridge (10_state.md R33, 20_memory.md R80, D31). -/
def vramSize (m : Mirroring) : Nat :=
  match m with
  | .horizontal | .vertical => 0x800
  | .fourScreen => 0x1000

/-- Bytes of PRG-ROM (00_scope.md R5). -/
def prgBytes (size : PrgSize) : Nat :=
  match size with
  | .kib16 => 0x4000
  | .kib32 => 0x8000

/-- A memory in canonical form that fits its size. -/
def Memory.ok (m : Memory) (size : Nat) : Prop := m.wf = true ∧ m.within size = true

/-- What holds of the cartridge: PRG-ROM and CHR-ROM fit their sizes (10_state.md R32). -/
structure Cartridge.Sound (c : Cartridge) : Prop where
  prg : Memory.ok c.prg (prgBytes c.prgSize)
  chr : Memory.ok c.chr 0x2000

/-- What holds of the PPU at every access and every dot. -/
structure Ppu.Sound (m : Mirroring) (u : Ppu) : Prop where
  /-- Three memories, each in canonical form and within its size (10_state.md R33). -/
  vram : Memory.ok u.vram (vramSize m)
  pal : Memory.ok u.pal 32
  oam : Memory.ok u.oam 256
  /-- Bits 5 to 0 of PPUSTATUS are 0 (10_state.md R36). -/
  statusLow : u.status &&& 0x3F = 0
  /-- The position (10_state.md R40). -/
  dot : u.dot < 341
  scanline : u.scanline < 262

/-- What holds of the machine at every access of a step. -/
structure State.Sound (s : State) : Prop where
  ram : Memory.ok s.ram 0x800
  cart : s.cart.Sound
  ppu : s.ppu.Sound s.cart.mirroring
  /-- P.B is 0 and P.U is 1 (10_state.md R26). -/
  flagB : flagB s.p = false
  flagU : flagU s.p = true
  /-- The joypad indexes; joypad 2 is never strobed (10_state.md R42, 60_exceptions.md R316). -/
  index1 : s.joy1.i ≤ 8
  index2 : s.joy2.i ≤ 8
  strobe2 : s.joy2.s = false

/-- What holds of the machine between two steps: besides, no stall is left over, and the Bus's copy of the NMI request is
the PPU's flag (60_exceptions.md R282, R310). -/
structure State.Inv (s : State) : Prop extends State.Sound s where
  dmaStall : s.dmaStall = 0
  pendingNmi : s.pendingNmi = s.ppu.nmiPending

/-! ## The terms of the statements -/

/-- The eight bits of P (10_state.md R25). -/
structure StatusBits where
  c : Bool
  z : Bool
  i : Bool
  d : Bool
  b : Bool
  u : Bool
  v : Bool
  n : Bool
  deriving DecidableEq, Repr

/-- P, bit by bit. -/
def statusBits (p : Byte) : StatusBits :=
  { c := p.getLsbD 0, z := p.getLsbD 1, i := p.getLsbD 2, d := p.getLsbD 3, b := p.getLsbD 4, u := p.getLsbD 5,
    v := p.getLsbD 6, n := p.getLsbD 7 }

/-- `SetNZ(v)` on the bits: Z says that `v` is 0, N is bit 7 of `v` (10_state.md R27). -/
def StatusBits.nz (f : StatusBits) (v : Byte) : StatusBits := { f with z := decide (v.toNat = 0), n := v.getLsbD 7 }

/-- The CPU registers but P (10_state.md R20). -/
structure Registers where
  a : Byte
  x : Byte
  y : Byte
  sp : Byte
  pc : Addr
  deriving DecidableEq, Repr

def State.registers (s : State) : Registers := { a := s.a, x := s.x, y := s.y, sp := s.sp, pc := s.pc }

/-- Everything outside the CPU: Bus, PPU, joypads, the parameters, and the model's `halted`. -/
structure Outside where
  ram : Memory
  cycles : Nat
  frameReady : Bool
  pendingNmi : Bool
  dmaStall : Nat
  ppu : Ppu
  joy1 : Joypad
  joy2 : Joypad
  cart : Cartridge
  build : Build
  halted : Bool
  deriving DecidableEq, Repr

def State.outside (s : State) : Outside :=
  { ram := s.ram, cycles := s.cycles, frameReady := s.frameReady, pendingNmi := s.pendingNmi, dmaStall := s.dmaStall,
    ppu := s.ppu, joy1 := s.joy1, joy2 := s.joy2, cart := s.cart, build := s.build, halted := s.halted }

/-- An instruction whose accesses left the machine as `u` ends in `t`: the CPU registers are `r`, the bits of P are `f`,
and everything outside the CPU is as `Tick(c)` leaves it in `u` (60_exceptions.md R260 items 4 to 6). -/
def Leaves (u : State) (c : Nat) (r : Registers) (f : StatusBits) (t : State) : Prop :=
  t.registers = r ∧ statusBits t.p = f ∧ t.outside = (busTick c u).outside

/-! ### Encodings -/

/-- The bytes are the encoding of the instruction, and decode to it and to nothing more. -/
def Encodes (bytes : List Byte) (i : Instr) : Prop := encode i = bytes ∧ decode bytes = .ok (i, [])

/-- One entry of 30_encoding.md R105 for an instruction with a memory operand: byte, mode, length, base cycles, and whether
the page-cross flag is set. -/
structure Row where
  op : Byte
  mode : MemMode
  length : Nat
  cycles : Nat
  plus : Bool
  deriving DecidableEq, Repr

/-- Cycles of an instruction of the row (30_encoding.md R111): base, and one more where the flag is set and the page is
crossed. -/
def Row.cost (r : Row) (crossed : Bool) : Nat := r.cycles + if r.plus && crossed then 1 else 0

/-- PC after an instruction of the row: `next` (30_encoding.md R91). -/
def Row.next (r : Row) (s : State) : Addr := s.pc + BitVec.ofNat 16 r.length

/-- The rows are all the forms `mk` has: each well-formed one is in a row, and in each row the bytes of the operand after
the row's opcode byte are the encoding. -/
def FormsAre (mk : MemOperand → Instr) (rows : List Row) : Prop :=
  (∀ o, (mk o).wf = true → ∃ r ∈ rows, r.mode = o.mode) ∧
    ∀ r ∈ rows, ∀ o, r.mode = o.mode → (mk o).wf = true ∧ Encodes (r.op :: o.bytes) (mk o)

/-! ### The memory forms of each mnemonic, as 30_encoding.md R105 and files 40 to 45 list them -/

def Rows.lda : List Row :=
  [⟨0xA5, .zp, 2, 3, false⟩, ⟨0xB5, .zpx, 2, 4, false⟩, ⟨0xAD, .abs, 3, 4, false⟩, ⟨0xBD, .abx, 3, 4, true⟩,
   ⟨0xB9, .aby, 3, 4, true⟩, ⟨0xA1, .izx, 2, 6, false⟩, ⟨0xB1, .izy, 2, 5, true⟩]
def Rows.ldx : List Row :=
  [⟨0xA6, .zp, 2, 3, false⟩, ⟨0xB6, .zpy, 2, 4, false⟩, ⟨0xAE, .abs, 3, 4, false⟩, ⟨0xBE, .aby, 3, 4, true⟩]
def Rows.ldy : List Row :=
  [⟨0xA4, .zp, 2, 3, false⟩, ⟨0xB4, .zpx, 2, 4, false⟩, ⟨0xAC, .abs, 3, 4, false⟩, ⟨0xBC, .abx, 3, 4, true⟩]
def Rows.lax : List Row :=
  [⟨0xA7, .zp, 2, 3, false⟩, ⟨0xB7, .zpy, 2, 4, false⟩, ⟨0xAF, .abs, 3, 4, false⟩, ⟨0xBF, .aby, 3, 4, true⟩,
   ⟨0xA3, .izx, 2, 6, false⟩, ⟨0xB3, .izy, 2, 5, true⟩]
def Rows.sta : List Row :=
  [⟨0x85, .zp, 2, 3, false⟩, ⟨0x95, .zpx, 2, 4, false⟩, ⟨0x8D, .abs, 3, 4, false⟩, ⟨0x9D, .abx, 3, 5, false⟩,
   ⟨0x99, .aby, 3, 5, false⟩, ⟨0x81, .izx, 2, 6, false⟩, ⟨0x91, .izy, 2, 6, false⟩]
def Rows.stx : List Row :=
  [⟨0x86, .zp, 2, 3, false⟩, ⟨0x96, .zpy, 2, 4, false⟩, ⟨0x8E, .abs, 3, 4, false⟩]
def Rows.sty : List Row :=
  [⟨0x84, .zp, 2, 3, false⟩, ⟨0x94, .zpx, 2, 4, false⟩, ⟨0x8C, .abs, 3, 4, false⟩]
def Rows.sax : List Row :=
  [⟨0x87, .zp, 2, 3, false⟩, ⟨0x97, .zpy, 2, 4, false⟩, ⟨0x8F, .abs, 3, 4, false⟩, ⟨0x83, .izx, 2, 6, false⟩]
def Rows.adc : List Row :=
  [⟨0x65, .zp, 2, 3, false⟩, ⟨0x75, .zpx, 2, 4, false⟩, ⟨0x6D, .abs, 3, 4, false⟩, ⟨0x7D, .abx, 3, 4, true⟩,
   ⟨0x79, .aby, 3, 4, true⟩, ⟨0x61, .izx, 2, 6, false⟩, ⟨0x71, .izy, 2, 5, true⟩]
def Rows.sbc : List Row :=
  [⟨0xE5, .zp, 2, 3, false⟩, ⟨0xF5, .zpx, 2, 4, false⟩, ⟨0xED, .abs, 3, 4, false⟩, ⟨0xFD, .abx, 3, 4, true⟩,
   ⟨0xF9, .aby, 3, 4, true⟩, ⟨0xE1, .izx, 2, 6, false⟩, ⟨0xF1, .izy, 2, 5, true⟩]
def Rows.and : List Row :=
  [⟨0x25, .zp, 2, 3, false⟩, ⟨0x35, .zpx, 2, 4, false⟩, ⟨0x2D, .abs, 3, 4, false⟩, ⟨0x3D, .abx, 3, 4, true⟩,
   ⟨0x39, .aby, 3, 4, true⟩, ⟨0x21, .izx, 2, 6, false⟩, ⟨0x31, .izy, 2, 5, true⟩]
def Rows.ora : List Row :=
  [⟨0x05, .zp, 2, 3, false⟩, ⟨0x15, .zpx, 2, 4, false⟩, ⟨0x0D, .abs, 3, 4, false⟩, ⟨0x1D, .abx, 3, 4, true⟩,
   ⟨0x19, .aby, 3, 4, true⟩, ⟨0x01, .izx, 2, 6, false⟩, ⟨0x11, .izy, 2, 5, true⟩]
def Rows.eor : List Row :=
  [⟨0x45, .zp, 2, 3, false⟩, ⟨0x55, .zpx, 2, 4, false⟩, ⟨0x4D, .abs, 3, 4, false⟩, ⟨0x5D, .abx, 3, 4, true⟩,
   ⟨0x59, .aby, 3, 4, true⟩, ⟨0x41, .izx, 2, 6, false⟩, ⟨0x51, .izy, 2, 5, true⟩]
def Rows.bit : List Row :=
  [⟨0x24, .zp, 2, 3, false⟩, ⟨0x2C, .abs, 3, 4, false⟩]
def Rows.cmp : List Row :=
  [⟨0xC5, .zp, 2, 3, false⟩, ⟨0xD5, .zpx, 2, 4, false⟩, ⟨0xCD, .abs, 3, 4, false⟩, ⟨0xDD, .abx, 3, 4, true⟩,
   ⟨0xD9, .aby, 3, 4, true⟩, ⟨0xC1, .izx, 2, 6, false⟩, ⟨0xD1, .izy, 2, 5, true⟩]
def Rows.cpx : List Row :=
  [⟨0xE4, .zp, 2, 3, false⟩, ⟨0xEC, .abs, 3, 4, false⟩]
def Rows.cpy : List Row :=
  [⟨0xC4, .zp, 2, 3, false⟩, ⟨0xCC, .abs, 3, 4, false⟩]
def Rows.asl : List Row :=
  [⟨0x06, .zp, 2, 5, false⟩, ⟨0x16, .zpx, 2, 6, false⟩, ⟨0x0E, .abs, 3, 6, false⟩, ⟨0x1E, .abx, 3, 7, false⟩]
def Rows.lsr : List Row :=
  [⟨0x46, .zp, 2, 5, false⟩, ⟨0x56, .zpx, 2, 6, false⟩, ⟨0x4E, .abs, 3, 6, false⟩, ⟨0x5E, .abx, 3, 7, false⟩]
def Rows.rol : List Row :=
  [⟨0x26, .zp, 2, 5, false⟩, ⟨0x36, .zpx, 2, 6, false⟩, ⟨0x2E, .abs, 3, 6, false⟩, ⟨0x3E, .abx, 3, 7, false⟩]
def Rows.ror : List Row :=
  [⟨0x66, .zp, 2, 5, false⟩, ⟨0x76, .zpx, 2, 6, false⟩, ⟨0x6E, .abs, 3, 6, false⟩, ⟨0x7E, .abx, 3, 7, false⟩]
def Rows.inc : List Row :=
  [⟨0xE6, .zp, 2, 5, false⟩, ⟨0xF6, .zpx, 2, 6, false⟩, ⟨0xEE, .abs, 3, 6, false⟩, ⟨0xFE, .abx, 3, 7, false⟩]
def Rows.dec : List Row :=
  [⟨0xC6, .zp, 2, 5, false⟩, ⟨0xD6, .zpx, 2, 6, false⟩, ⟨0xCE, .abs, 3, 6, false⟩, ⟨0xDE, .abx, 3, 7, false⟩]
def Rows.dcp : List Row :=
  [⟨0xC7, .zp, 2, 5, false⟩, ⟨0xD7, .zpx, 2, 6, false⟩, ⟨0xCF, .abs, 3, 6, false⟩, ⟨0xDF, .abx, 3, 7, false⟩,
   ⟨0xDB, .aby, 3, 7, false⟩, ⟨0xC3, .izx, 2, 8, false⟩, ⟨0xD3, .izy, 2, 8, false⟩]
def Rows.isb : List Row :=
  [⟨0xE7, .zp, 2, 5, false⟩, ⟨0xF7, .zpx, 2, 6, false⟩, ⟨0xEF, .abs, 3, 6, false⟩, ⟨0xFF, .abx, 3, 7, false⟩,
   ⟨0xFB, .aby, 3, 7, false⟩, ⟨0xE3, .izx, 2, 8, false⟩, ⟨0xF3, .izy, 2, 8, false⟩]
def Rows.slo : List Row :=
  [⟨0x07, .zp, 2, 5, false⟩, ⟨0x17, .zpx, 2, 6, false⟩, ⟨0x0F, .abs, 3, 6, false⟩, ⟨0x1F, .abx, 3, 7, false⟩,
   ⟨0x1B, .aby, 3, 7, false⟩, ⟨0x03, .izx, 2, 8, false⟩, ⟨0x13, .izy, 2, 8, false⟩]
def Rows.rla : List Row :=
  [⟨0x27, .zp, 2, 5, false⟩, ⟨0x37, .zpx, 2, 6, false⟩, ⟨0x2F, .abs, 3, 6, false⟩, ⟨0x3F, .abx, 3, 7, false⟩,
   ⟨0x3B, .aby, 3, 7, false⟩, ⟨0x23, .izx, 2, 8, false⟩, ⟨0x33, .izy, 2, 8, false⟩]
def Rows.sre : List Row :=
  [⟨0x47, .zp, 2, 5, false⟩, ⟨0x57, .zpx, 2, 6, false⟩, ⟨0x4F, .abs, 3, 6, false⟩, ⟨0x5F, .abx, 3, 7, false⟩,
   ⟨0x5B, .aby, 3, 7, false⟩, ⟨0x43, .izx, 2, 8, false⟩, ⟨0x53, .izy, 2, 8, false⟩]
def Rows.rra : List Row :=
  [⟨0x67, .zp, 2, 5, false⟩, ⟨0x77, .zpx, 2, 6, false⟩, ⟨0x6F, .abs, 3, 6, false⟩, ⟨0x7F, .abx, 3, 7, false⟩,
   ⟨0x7B, .aby, 3, 7, false⟩, ⟨0x63, .izx, 2, 8, false⟩, ⟨0x73, .izy, 2, 8, false⟩]

/-- The *NOPs with a memory operand (45_undocumented.md R239). -/
def Rows.nop : List Row :=
  [⟨0x04, .zp, 2, 3, false⟩, ⟨0x44, .zp, 2, 3, false⟩, ⟨0x64, .zp, 2, 3, false⟩, ⟨0x14, .zpx, 2, 4, false⟩,
   ⟨0x34, .zpx, 2, 4, false⟩, ⟨0x54, .zpx, 2, 4, false⟩, ⟨0x74, .zpx, 2, 4, false⟩, ⟨0xD4, .zpx, 2, 4, false⟩,
   ⟨0xF4, .zpx, 2, 4, false⟩, ⟨0x0C, .abs, 3, 4, false⟩, ⟨0x1C, .abx, 3, 4, true⟩, ⟨0x3C, .abx, 3, 4, true⟩,
   ⟨0x5C, .abx, 3, 4, true⟩, ⟨0x7C, .abx, 3, 4, true⟩, ⟨0xDC, .abx, 3, 4, true⟩, ⟨0xFC, .abx, 3, 4, true⟩]

/-! ### The shapes of the instruction rules (40_loads_stores_transfers.md R128) -/

/-- `i` is an instruction of one byte, Implied or Accumulator, that makes no access but its fetch: it always completes,
with the registers `regs` (PC apart) and the bits of P given. -/
def ImpliedRule (i : Instr) (op : Byte) (cycles : Nat) (regs : State → Registers) (bits : State → StatusBits) : Prop :=
  i.wf = true ∧ Encodes [op] i ∧
    ∀ s, ∃ t, exec i s = .next t ∧ Leaves s cycles { regs s with pc := s.pc + 1 } (bits s) t

/-- `mk` is an instruction in Immediate mode: two bytes, two cycles, always completing, with the registers `regs M` (PC
apart) and the bits `bits M`, where `M` is its second byte. -/
def ImmediateRule (mk : Byte → Instr) (op : Byte) (regs : Byte → State → Registers) (bits : Byte → State → StatusBits) :
    Prop :=
  ∀ m, (mk m).wf = true ∧ Encodes [op, m] (mk m) ∧
    ∀ s, ∃ t, exec (mk m) s = .next t ∧ Leaves s 2 { regs m s with pc := s.pc + 2 } (bits m s) t

/-- `mk` is an instruction that reads `M` from `ea`, once. Where the read is not fatal it completes, with the registers
`regs M` (PC apart) and the bits `bits M`, in the row's cycles; where it is fatal, that is its outcome. -/
def ReadRule (mk : MemOperand → Instr) (rows : List Row) (regs : Byte → State → Registers)
    (bits : Byte → State → StatusBits) : Prop :=
  FormsAre mk rows ∧
  ∀ r ∈ rows, ∀ o, r.mode = o.mode → ∀ s m, m = readValue s (effAddr o s) →
    (readOk s (effAddr o s) → ∃ t, exec (mk o) s = .next t ∧
      Leaves (readEffect s (effAddr o s)) (r.cost (crossed o s)) { regs m s with pc := r.next s } (bits m s) t) ∧
    (¬ readOk s (effAddr o s) → exec (mk o) s = .fault (.unmappedPpuRead s.ppu.v))

/-- `mk` is a store of `value`: one bus write of `ea`, no register and no flag changed; where the write is fatal, that is
its outcome. -/
def StoreRule (mk : MemOperand → Instr) (rows : List Row) (value : State → Byte) : Prop :=
  FormsAre mk rows ∧
  ∀ r ∈ rows, ∀ o, r.mode = o.mode → ∀ s,
      (writeOk s (effAddr o s) (value s) → ∃ u t, busWrite (effAddr o s) (value s) s = .done () u ∧
        exec (mk o) s = .next t ∧
        Leaves u (r.cost (crossed o s)) { s.registers with pc := r.next s } (statusBits s.p) t) ∧
      (¬ writeOk s (effAddr o s) (value s) → ∃ f, busWrite (effAddr o s) (value s) s = .fatal f ∧
        exec (mk o) s = .fault f)

/-- `mk` is a read-modify-write: one bus read of `ea`, then one bus write of `result M` to it; then the registers are
`regs M` (PC apart) and the bits of P `bits M`. Where an access is fatal, that is the outcome. -/
def ModifyRule (mk : MemOperand → Instr) (rows : List Row) (result : Byte → State → Byte)
    (regs : Byte → State → Registers) (bits : Byte → State → StatusBits) : Prop :=
  FormsAre mk rows ∧
  ∀ r ∈ rows, ∀ o, r.mode = o.mode → ∀ s m w, m = readValue s (effAddr o s) → w = readEffect s (effAddr o s) →
      (readOk s (effAddr o s) → writeOk w (effAddr o s) (result m s) →
        ∃ u t, busWrite (effAddr o s) (result m s) w = .done () u ∧ exec (mk o) s = .next t ∧
          Leaves u (r.cost (crossed o s)) { regs m s with pc := r.next s } (bits m s) t) ∧
      (¬ readOk s (effAddr o s) → exec (mk o) s = .fault (.unmappedPpuRead s.ppu.v)) ∧
      (readOk s (effAddr o s) → ¬ writeOk w (effAddr o s) (result m s) →
        ∃ f, busWrite (effAddr o s) (result m s) w = .fatal f ∧ exec (mk o) s = .fault f)

/-- `mk` is a conditional branch (42_branches_compares.md R170). -/
def BranchRule (mk : Byte → Instr) (op : Byte) (cond : State → Bool) : Prop :=
  ∀ d, (mk d).wf = true ∧ Encodes [op, d] (mk d) ∧ ∀ s, ∃ t, exec (mk d) s = .next t ∧
    (cond s = false → Leaves s 2 { s.registers with pc := s.pc + 2 } (statusBits s.p) t) ∧
    (cond s = true → ∀ target : Addr,
      target.toNat = (s.pc.toNat + 2 + d.toNat + (if d.toNat < 128 then 0 else 0xFF00)) % 65536 →
      Leaves s (if target.toNat / 256 = (s.pc + 2).toNat / 256 then 3 else 4) { s.registers with pc := target }
        (statusBits s.p) t)

/-! ### What each instruction may change, as lists of mnemonics -/

/-- The instructions that write A (10_state.md R21). -/
def writesA : Instr → Bool
  | .lda _ | .txa | .tya | .pla | .adc _ | .sbc _ | .and _ | .ora _ | .eor _ => true
  | .asl .acc | .lsr .acc | .rol .acc | .ror .acc => true
  | .lax _ | .isb _ | .slo _ | .rla _ | .sre _ | .rra _ | .sbcU _ => true
  | _ => false

/-- The instructions that write X (10_state.md R22). -/
def writesX : Instr → Bool
  | .ldx _ | .tax | .tsx | .inx | .dex | .lax _ => true
  | _ => false

/-- The instructions that write Y (10_state.md R22). -/
def writesY : Instr → Bool
  | .ldy _ | .tay | .iny | .dey => true
  | _ => false

/-- The instructions that write SP: TXS, and every one that pushes or pops (10_state.md R23). -/
def writesSp : Instr → Bool
  | .txs | .pha | .php | .pla | .plp | .jsr _ | .rts | .rti | .brk => true
  | .lda _ | .ldx _ | .ldy _ | .sta _ | .stx _ | .sty _ | .tax | .tay | .tsx | .txa | .tya | .adc _ | .sbc _ => false
  | .and _ | .ora _ | .eor _ | .asl _ | .lsr _ | .rol _ | .ror _ | .bit _ | .bcc _ | .bcs _ | .beq _ | .bne _ => false
  | .bmi _ | .bpl _ | .bvc _ | .bvs _ | .cmp _ | .cpx _ | .cpy _ | .inc _ | .dec _ | .inx | .iny | .dex | .dey => false
  | .clc | .sec | .cld | .sed | .cli | .sei | .clv | .jmp _ | .nop | .lax _ | .sax _ | .dcp _ | .isb _ => false
  | .slo _ | .rla _ | .sre _ | .rra _ | .nopU _ _ | .sbcU _ | .undefined _ => false

/-- The instructions that write C (10_state.md R27). -/
def writesC : Instr → Bool
  | .adc _ | .sbc _ | .sbcU _ | .asl _ | .lsr _ | .rol _ | .ror _ | .cmp _ | .cpx _ | .cpy _ => true
  | .clc | .sec | .plp | .rti | .dcp _ | .isb _ | .slo _ | .rla _ | .sre _ | .rra _ => true
  | _ => false

/-- The instructions that write Z and N (10_state.md R27). -/
def writesZN : Instr → Bool
  | .lda _ | .ldx _ | .ldy _ | .tax | .tay | .tsx | .txa | .tya | .adc _ | .sbc _ | .sbcU _ => true
  | .and _ | .ora _ | .eor _ | .asl _ | .lsr _ | .rol _ | .ror _ | .bit _ | .cmp _ | .cpx _ | .cpy _ => true
  | .inc _ | .dec _ | .inx | .iny | .dex | .dey | .pla | .plp | .rti => true
  | .lax _ | .dcp _ | .isb _ | .slo _ | .rla _ | .sre _ | .rra _ => true
  | _ => false

/-- The instructions that write I (10_state.md R27). -/
def writesI : Instr → Bool
  | .sei | .cli | .brk | .plp | .rti => true
  | _ => false

/-- The instructions that write D (10_state.md R27). -/
def writesD : Instr → Bool
  | .sed | .cld | .plp | .rti => true
  | _ => false

/-- The instructions that write V (10_state.md R27). -/
def writesV : Instr → Bool
  | .adc _ | .sbc _ | .sbcU _ | .bit _ | .clv | .plp | .rti | .isb _ | .rra _ => true
  | _ => false

/-- The address an instruction's rule reads as `M`, if it reads one (30_encoding.md R92, 44_jumps_stack_brk_nop.md R210). -/
def sourceAddrs (i : Instr) (s : State) : List Addr :=
  match i with
  | .lda (.mem o) | .ldx (.mem o) | .ldy (.mem o) | .adc (.mem o) | .sbc (.mem o) | .and (.mem o) => [effAddr o s]
  | .ora (.mem o) | .eor (.mem o) | .cmp (.mem o) | .cpx (.mem o) | .cpy (.mem o) => [effAddr o s]
  | .bit o | .lax o | .inc o | .dec o | .dcp o | .isb o | .slo o | .rla o | .sre o | .rra o => [effAddr o s]
  | .asl (.mem o) | .lsr (.mem o) | .rol (.mem o) | .ror (.mem o) => [effAddr o s]
  | .jmp (.ind w) => [w, jumpHighAddr w]
  | _ => []

/-- The address an instruction's rule stores a byte at through its operand. -/
def targetAddrs (i : Instr) (s : State) : List Addr :=
  match i with
  | .sta o | .stx o | .sty o | .sax o => [effAddr o s]
  | .inc o | .dec o | .dcp o | .isb o | .slo o | .rla o | .sre o | .rra o => [effAddr o s]
  | .asl (.mem o) | .lsr (.mem o) | .rol (.mem o) | .ror (.mem o) => [effAddr o s]
  | _ => []

/-- The addresses an instruction pushes to (10_state.md R24). -/
def pushAddrs (i : Instr) (s : State) : List Addr :=
  match i with
  | .pha | .php => [stackAddr s.sp]
  | .jsr _ => [stackAddr s.sp, stackAddr (s.sp - 1)]
  | .brk =>
    match s.build.brkMode with
    | .hardware => [stackAddr s.sp, stackAddr (s.sp - 1), stackAddr (s.sp - 2)]
    | .halt => []
  | .lda _ | .ldx _ | .ldy _ | .sta _ | .stx _ | .sty _ | .tax | .tay | .tsx | .txa | .txs | .tya | .adc _ => []
  | .sbc _ | .and _ | .ora _ | .eor _ | .asl _ | .lsr _ | .rol _ | .ror _ | .bit _ | .bcc _ | .bcs _ | .beq _ => []
  | .bne _ | .bmi _ | .bpl _ | .bvc _ | .bvs _ | .cmp _ | .cpx _ | .cpy _ | .inc _ | .dec _ | .inx | .iny => []
  | .dex | .dey | .clc | .sec | .cld | .sed | .cli | .sei | .clv | .jmp _ | .rts | .rti | .pla | .plp | .nop => []
  | .lax _ | .sax _ | .dcp _ | .isb _ | .slo _ | .rla _ | .sre _ | .rra _ | .nopU _ _ | .sbcU _ | .undefined _ => []

/-- Two addresses name the same byte of RAM (20_memory.md R54). -/
def sameRamByte (a b : Addr) : Prop := a.toNat < 0x2000 ∧ b.toNat < 0x2000 ∧ a.toNat % 0x800 = b.toNat % 0x800

/-- `n` bus reads at ascending addresses (60_exceptions.md R260 items 2 and 3). -/
def readBytes : Nat → Addr → State → Access (List Byte)
  | 0, _, s => .done [] s
  | n + 1, a, s => andThen (busRead a s) fun b s1 => andThen (readBytes n (a + 1) s1) fun bs s2 => .done (b :: bs) s2

/-- Bus writes, one after the other. -/
def writeBytes : List (Addr × Byte) → State → Access Unit
  | [], s => .done () s
  | (a, d) :: ws, s => andThen (busWrite a d s) fun _ s1 => writeBytes ws s1

/-! ### The arithmetic of the rules, in the spec's words -/

/-- `r` of `AddCore(m)`, `t mod 256` (41_arithmetic_logic_shifts.md R149). -/
def sumByte (a m : Byte) (c : Bool) : Byte := BitVec.ofNat 8 (a.toNat + m.toNat + c.toNat)

/-- The bits of P after `AddCore(m)` (41_arithmetic_logic_shifts.md R149). -/
def sumBits (f : StatusBits) (a m : Byte) : StatusBits :=
  StatusBits.nz
    { f with
      c := decide (a.toNat + m.toNat + f.c.toNat > 255)
      v := decide ((a ^^^ m) &&& 0x80 = 0 ∧ (a ^^^ sumByte a m f.c) &&& 0x80 ≠ 0) } (sumByte a m f.c)

/-- `d` of SBC, on unbounded integers (41_arithmetic_logic_shifts.md R151). -/
def difference (a m : Byte) (c : Bool) : Int := a.toNat - m.toNat - (1 - c.toNat)

/-- `r` of SBC, `d mod 256` (41_arithmetic_logic_shifts.md R151). -/
def differenceByte (a m : Byte) (c : Bool) : Byte := BitVec.ofInt 8 (difference a m c)

/-- The bits of P after SBC (41_arithmetic_logic_shifts.md R151). -/
def differenceBits (f : StatusBits) (a m : Byte) : StatusBits :=
  StatusBits.nz
    { f with
      c := decide (difference a m f.c ≥ 0)
      v := decide ((a ^^^ m) &&& 0x80 ≠ 0 ∧ (a ^^^ differenceByte a m f.c) &&& 0x80 ≠ 0) } (differenceByte a m f.c)

/-- The bits of P after `Compare(reg, m)` (42_branches_compares.md R179). -/
def compareBits (f : StatusBits) (reg m : Byte) : StatusBits :=
  StatusBits.nz { f with c := decide (reg.toNat ≥ m.toNat) } (BitVec.ofInt 8 (reg.toNat - m.toNat))

end Sys2Proof.Machine
end

