-- ==== Sys2Proof/Certificates/Slice0/Obligations.lean ====
section
/-! DEFINITION. The statements for the provers. Safety.lean holds the terms they are written in. -/

open Sys2Proof Sys2Proof.Machine

/-! ## Encoding -/

/-- 30_encoding.md R115: the ten opcode bytes the source itself shows. -/
def Obligations.DecodesTheBytesTheSourceShows : Prop :=
  ∀ d lo hi : Byte,
    decode [0xA9, d] = .ok (.lda (.imm d), []) ∧ decode [0xAA] = .ok (.tax, []) ∧ decode [0x00] = .ok (.brk, []) ∧
    decode [0xE8] = .ok (.inx, []) ∧ decode [0x69, d] = .ok (.adc (.imm d), []) ∧
    decode [0xE9, d] = .ok (.sbc (.imm d), []) ∧ decode [0x6C, lo, hi] = .ok (.jmp (.ind (word16 hi lo)), []) ∧
    decode [0x90, d] = .ok (.bcc d, []) ∧ decode [0x0A] = .ok (.asl .acc, []) ∧ decode [0xEB, d] = .ok (.sbcU d, [])

/-- 30_encoding.md R114, R107: of the 256 bytes, 231 are opcodes and 25 are undefined (which, the spec's decision D10). R107
calls these 25 no instructions; that they decode to one of their own, `Instr.undefined`, is the model's DESIGN CHOICE
(log 13). -/
def Obligations.EveryByteIsAnOpcode : Prop :=
  undefinedBytes.length = 25 ∧ undefinedBytes.Nodup ∧
  ∀ op b1 b2 : Byte,
    (op ∈ undefinedBytes → decode [op, b1, b2] = .ok (.undefined op, [b1, b2])) ∧
    (op ∉ undefinedBytes → ∃ i rest, decode [op, b1, b2] = .ok (i, rest) ∧ i.wf = true ∧ ∀ b, i ≠ .undefined b)

/-- 30_encoding.md R90, R105: decoding the bytes of any well-formed instruction, with any bytes after them, gives it back. -/
def Obligations.DecodeOfEncode : Prop :=
  ∀ (i : Instr) (rest : List Byte), i.wf = true → decode (encode i ++ rest) = .ok (i, rest)

/-- 30_encoding.md R90, R114: whatever decodes is well formed, and its encoding is the bytes it was decoded from. -/
def Obligations.EncodeOfDecode : Prop :=
  ∀ (bytes rest : List Byte) (i : Instr), decode bytes = .ok (i, rest) → i.wf = true ∧ encode i ++ rest = bytes

/-! ## The step -/

/-- 60_exceptions.md R260, 20_memory.md R74: where the bytes at PC, after a pending NMI is taken, can be read without effect
and decode to an instruction, the step is that instruction. That `exec` is given PC at the opcode byte, where R260 has it one
further at dispatch, is the model's (log 9, DEDUCED), and so is `halted` (log 8). -/
def Obligations.StepRunsDecodedInstruction : Prop :=
  ∀ (s w : State) (i : Instr) (rest : List Byte), s.halted = false → w = takePendingNmi s →
    (∀ k : Nat, k < 3 → busRead (w.pc + BitVec.ofNat 16 k) w = .done (readValue w (w.pc + BitVec.ofNat 16 k)) w) →
    decode [readValue w w.pc, readValue w (w.pc + 1), readValue w (w.pc + 2)] = .ok (i, rest) →
    step s = exec i w

/-- 60_exceptions.md R260, 20_memory.md R68, R74: the instruction is fetched through the bus, opcode first, then the
operand bytes in ascending order, each read having its effect, and then executed; the operand byte of an Immediate *NOP
is not read (45_undocumented.md R239). A fatal read of the opcode ends the step. The order is the spec's decision D8, the
skipped byte D9; that the skipped byte is looked at without a read is the model's (log 11), as are PC at the opcode byte in
`exec` (log 9) and `halted` (log 8). -/
def Obligations.StepFetchesThroughTheBus : Prop :=
  ∀ (s w : State), s.halted = false → w = takePendingNmi s →
    (∀ (i : Instr) (u : State), i.wf = true → (∀ op d, i ≠ .nopU op (.imm d)) →
      readBytes (encode i).length w.pc w = .done (encode i) u → step s = exec i u) ∧
    (∀ (op : Byte) (u : State), op ∈ nopBytes (.imm 0) → busRead w.pc w = .done op u →
      step s = exec (.nopU op (.imm (readValue u (w.pc + 1)))) u) ∧
    (∀ f, busRead w.pc w = .fatal f → step s = .fault f)

/-- 60_exceptions.md R274, R280, R283: NMI entry, its tick of two cycles included. The order of the pushed bytes is the
spec's decision D3, the two cycles D32, that polling clears the PPU's flag too D14, when `frame_ready` is set D15; `halted` is
the model's own (log 8). -/
def Obligations.NmiEntry : Prop :=
  ∀ s t : State, s.Inv → s.pendingNmi = true → t = takePendingNmi s →
    readValue t (stackAddr s.sp) = hiByte s.pc ∧
    readValue t (stackAddr (s.sp - 1)) = loByte s.pc ∧
    readValue t (stackAddr (s.sp - 2)) = (s.p &&& 0xEF) ||| 0x20 ∧
    (∀ a, isStorage a = true → ¬ sameRamByte a (stackAddr s.sp) → ¬ sameRamByte a (stackAddr (s.sp - 1)) →
      ¬ sameRamByte a (stackAddr (s.sp - 2)) → readValue t a = readValue s a) ∧
    t.registers = { s.registers with sp := s.sp - 3, pc := word16 (readValue s 0xFFFB) (readValue s 0xFFFA) } ∧
    statusBits t.p = { statusBits s.p with i := true } ∧
    t.ppu = ppuTick s.cart 6 { s.ppu with nmiPending := false } ∧ t.cycles = s.cycles + 2 ∧
    t.dmaStall = 0 ∧ t.pendingNmi = t.ppu.nmiPending ∧
    (t.frameReady = true ↔ s.frameReady = true ∨ t.ppu.nmiPending = true) ∧
    t.joy1 = s.joy1 ∧ t.joy2 = s.joy2 ∧ t.cart = s.cart ∧ t.build = s.build ∧ t.halted = s.halted

/-- 60_exceptions.md R264, R330: a step is never refused, and it answers `runEnded` exactly where BRK has ended the run
(the model's own outcome, log 8). -/
def Obligations.StepOutcomes : Prop :=
  ∀ s : State, (∀ r, step s ≠ .refused r) ∧ (step s = .fault .runEnded ↔ s.halted = true)

/-- 60_exceptions.md R266 to R270, 40_loads_stores_transfers.md R128: what each fatal outcome of an instruction means. The
address it carries is the one written, or the PPU's `v` at the access (the spec's decisions D12 and D22): `v` as the
instruction finds it where it reads $2007 (also at the second read of JMP Indirect, whose first then leaves `v` alone); `v` as
`dmaFatalV` has it where an OAM DMA is fatal; `v` after the operand's read where it writes $2007, which the read of a
read-modify-write has moved. -/
def Obligations.FatalOutcomesHaveTheirCauses : Prop :=
  ∀ (i : Instr) (s : State) (f : Fault), exec i s = .fault f →
    match f with
    | .unknownOpcode b pc => i = .undefined b ∧ pc = s.pc
    | .writeToRom a => a ∈ targetAddrs i s ∧ 0x8000 ≤ a.toNat
    | .unmappedPpuRead v =>
      (0x4000 ≤ v.toNat ∧ v = s.ppu.v ∧ ∃ a ∈ sourceAddrs i s, isPort .data a = true) ∨
        (dmaFatalV s v ∧ ∃ a ∈ targetAddrs i s, a = 0x4014)
    | .unmappedPpuWrite v =>
      (v.toNat < 0x2000 ∨ 0x4000 ≤ v.toNat) ∧ v = ((sourceAddrs i s).foldl readEffect s).ppu.v ∧
        ∃ a ∈ targetAddrs i s, isPort .data a = true
    | .runEnded => False

/-- 60_exceptions.md R277 (e), R301: an instruction ticks at most 522 cycles, and at least 2 unless BRK halts
(the spec's decisions D19 for the stall, D33 for the cycles of each opcode). -/
def Obligations.InstructionTicksAreBounded : Prop :=
  ∀ (i : Instr) (s t : State), s.dmaStall = 0 → exec i s = .next t →
    t.cycles ≤ s.cycles + 522 ∧ (¬ (i = .brk ∧ s.build.brkMode = .halt) → s.cycles + 2 ≤ t.cycles)

/-! ## Operands -/

/-- 30_encoding.md R96 to R99, R101, R102: the effective address and `crossed` of every addressing mode. -/
def Obligations.EffectiveAddresses : Prop :=
  ∀ (s : State) (b : Byte) (w : Addr),
    (effAddr (.zp b) s).toNat = b.toNat ∧
    (effAddr (.zpx b) s).toNat = (b.toNat + s.x.toNat) % 256 ∧
    (effAddr (.zpy b) s).toNat = (b.toNat + s.y.toNat) % 256 ∧
    effAddr (.abs w) s = w ∧
    (effAddr (.abx w) s).toNat = (w.toNat + s.x.toNat) % 65536 ∧
    (effAddr (.aby w) s).toNat = (w.toNat + s.y.toNat) % 65536 ∧
    (∀ ptr next : Addr, ptr.toNat = (b.toNat + s.x.toNat) % 256 → next.toNat = (ptr.toNat + 1) % 256 →
      (effAddr (.izx b) s).toNat = (readValue s ptr).toNat + 256 * (readValue s next).toNat) ∧
    (∀ (ptr next : Addr) (base : Nat), ptr.toNat = b.toNat → next.toNat = (b.toNat + 1) % 256 →
      base = (readValue s ptr).toNat + 256 * (readValue s next).toNat →
      (effAddr (.izy b) s).toNat = (base + s.y.toNat) % 65536 ∧
      (crossed (.izy b) s = true ↔ base / 256 ≠ (base + s.y.toNat) % 65536 / 256)) ∧
    (crossed (.abx w) s = true ↔ w.toNat / 256 ≠ (w.toNat + s.x.toNat) % 65536 / 256) ∧
    (crossed (.aby w) s = true ↔ w.toNat / 256 ≠ (w.toNat + s.y.toNat) % 65536 / 256) ∧
    crossed (.zp b) s = false ∧ crossed (.zpx b) s = false ∧ crossed (.zpy b) s = false ∧
    crossed (.abs w) s = false ∧ crossed (.izx b) s = false

/-! ## The instruction rules -/

/-- 40_loads_stores_transfers.md R130, R131, R132; 45_undocumented.md R231. -/
def Obligations.LoadRules : Prop :=
  (ImmediateRule (fun d => .lda (.imm d)) 0xA9 (fun m s => { s.registers with a := m }) (fun m s => (statusBits s.p).nz m) ∧
    ReadRule (fun o => .lda (.mem o)) Rows.lda (fun m s => { s.registers with a := m })
      (fun m s => (statusBits s.p).nz m)) ∧
  (ImmediateRule (fun d => .ldx (.imm d)) 0xA2 (fun m s => { s.registers with x := m }) (fun m s => (statusBits s.p).nz m) ∧
    ReadRule (fun o => .ldx (.mem o)) Rows.ldx (fun m s => { s.registers with x := m })
      (fun m s => (statusBits s.p).nz m)) ∧
  (ImmediateRule (fun d => .ldy (.imm d)) 0xA0 (fun m s => { s.registers with y := m }) (fun m s => (statusBits s.p).nz m) ∧
    ReadRule (fun o => .ldy (.mem o)) Rows.ldy (fun m s => { s.registers with y := m })
      (fun m s => (statusBits s.p).nz m)) ∧
  ReadRule .lax Rows.lax (fun m s => { s.registers with a := m, x := m }) (fun m s => (statusBits s.p).nz m)

/-- 40_loads_stores_transfers.md R133, R134, R135. -/
def Obligations.StoreRules : Prop :=
  StoreRule .sta Rows.sta (fun s => s.a) ∧ StoreRule .stx Rows.stx (fun s => s.x) ∧ StoreRule .sty Rows.sty (fun s => s.y)

/-- 40_loads_stores_transfers.md R136 to R141. -/
def Obligations.TransferRules : Prop :=
  ImpliedRule .tax 0xAA 2 (fun s => { s.registers with x := s.a }) (fun s => (statusBits s.p).nz s.a) ∧
  ImpliedRule .tay 0xA8 2 (fun s => { s.registers with y := s.a }) (fun s => (statusBits s.p).nz s.a) ∧
  ImpliedRule .tsx 0xBA 2 (fun s => { s.registers with x := s.sp }) (fun s => (statusBits s.p).nz s.sp) ∧
  ImpliedRule .txa 0x8A 2 (fun s => { s.registers with a := s.x }) (fun s => (statusBits s.p).nz s.x) ∧
  ImpliedRule .txs 0x9A 2 (fun s => { s.registers with sp := s.x }) (fun s => statusBits s.p) ∧
  ImpliedRule .tya 0x98 2 (fun s => { s.registers with a := s.y }) (fun s => (statusBits s.p).nz s.y)

/-- 41_arithmetic_logic_shifts.md R149, R150. -/
def Obligations.AdcRule : Prop :=
  ImmediateRule (fun d => .adc (.imm d)) 0x69
    (fun m s => { s.registers with a := sumByte s.a m (statusBits s.p).c }) (fun m s => sumBits (statusBits s.p) s.a m) ∧
  ReadRule (fun o => .adc (.mem o)) Rows.adc
    (fun m s => { s.registers with a := sumByte s.a m (statusBits s.p).c }) (fun m s => sumBits (statusBits s.p) s.a m)

/-- 41_arithmetic_logic_shifts.md R151; 45_undocumented.md R240. -/
def Obligations.SbcRules : Prop :=
  ImmediateRule (fun d => .sbc (.imm d)) 0xE9
    (fun m s => { s.registers with a := differenceByte s.a m (statusBits s.p).c })
    (fun m s => differenceBits (statusBits s.p) s.a m) ∧
  ReadRule (fun o => .sbc (.mem o)) Rows.sbc
    (fun m s => { s.registers with a := differenceByte s.a m (statusBits s.p).c })
    (fun m s => differenceBits (statusBits s.p) s.a m) ∧
  ImmediateRule .sbcU 0xEB
    (fun m s => { s.registers with a := differenceByte s.a m (statusBits s.p).c })
    (fun m s => differenceBits (statusBits s.p) s.a m)

/-- 41_arithmetic_logic_shifts.md R152, R153, R154, R159. -/
def Obligations.LogicAndBitRules : Prop :=
  (ImmediateRule (fun d => .and (.imm d)) 0x29 (fun m s => { s.registers with a := s.a &&& m })
      (fun m s => (statusBits s.p).nz (s.a &&& m)) ∧
    ReadRule (fun o => .and (.mem o)) Rows.and (fun m s => { s.registers with a := s.a &&& m })
      (fun m s => (statusBits s.p).nz (s.a &&& m))) ∧
  (ImmediateRule (fun d => .ora (.imm d)) 0x09 (fun m s => { s.registers with a := s.a ||| m })
      (fun m s => (statusBits s.p).nz (s.a ||| m)) ∧
    ReadRule (fun o => .ora (.mem o)) Rows.ora (fun m s => { s.registers with a := s.a ||| m })
      (fun m s => (statusBits s.p).nz (s.a ||| m))) ∧
  (ImmediateRule (fun d => .eor (.imm d)) 0x49 (fun m s => { s.registers with a := s.a ^^^ m })
      (fun m s => (statusBits s.p).nz (s.a ^^^ m)) ∧
    ReadRule (fun o => .eor (.mem o)) Rows.eor (fun m s => { s.registers with a := s.a ^^^ m })
      (fun m s => (statusBits s.p).nz (s.a ^^^ m))) ∧
  ReadRule .bit Rows.bit (fun _ s => s.registers)
    (fun m s => { statusBits s.p with z := decide ((m &&& s.a).toNat = 0), n := m.getLsbD 7, v := m.getLsbD 6 })

/-- 41_arithmetic_logic_shifts.md R155, R156: the shifts, on A and on memory, as arithmetic. -/
def Obligations.ShiftRules : Prop :=
  (ImpliedRule (.asl .acc) 0x0A 2 (fun s => { s.registers with a := BitVec.ofNat 8 (s.a.toNat * 2) })
      (fun s => StatusBits.nz { statusBits s.p with c := decide (128 ≤ s.a.toNat) } (BitVec.ofNat 8 (s.a.toNat * 2))) ∧
    ModifyRule (fun o => .asl (.mem o)) Rows.asl (fun m _ => BitVec.ofNat 8 (m.toNat * 2)) (fun _ s => s.registers)
      (fun m s => StatusBits.nz { statusBits s.p with c := decide (128 ≤ m.toNat) } (BitVec.ofNat 8 (m.toNat * 2)))) ∧
  (ImpliedRule (.lsr .acc) 0x4A 2 (fun s => { s.registers with a := BitVec.ofNat 8 (s.a.toNat / 2) })
      (fun s => StatusBits.nz { statusBits s.p with c := decide (s.a.toNat % 2 = 1) } (BitVec.ofNat 8 (s.a.toNat / 2))) ∧
    ModifyRule (fun o => .lsr (.mem o)) Rows.lsr (fun m _ => BitVec.ofNat 8 (m.toNat / 2)) (fun _ s => s.registers)
      (fun m s => StatusBits.nz { statusBits s.p with c := decide (m.toNat % 2 = 1) } (BitVec.ofNat 8 (m.toNat / 2))))

/-- 41_arithmetic_logic_shifts.md R157, R158: the rotates through the carry, on A and on memory, as arithmetic. What C,
N and Z receive is the spec's decision D11. -/
def Obligations.RotateRules : Prop :=
  (ImpliedRule (.rol .acc) 0x2A 2
      (fun s => { s.registers with a := BitVec.ofNat 8 (s.a.toNat * 2 + (statusBits s.p).c.toNat) })
      (fun s => StatusBits.nz { statusBits s.p with c := decide (128 ≤ s.a.toNat) }
        (BitVec.ofNat 8 (s.a.toNat * 2 + (statusBits s.p).c.toNat))) ∧
    ModifyRule (fun o => .rol (.mem o)) Rows.rol
      (fun m s => BitVec.ofNat 8 (m.toNat * 2 + (statusBits s.p).c.toNat)) (fun _ s => s.registers)
      (fun m s => StatusBits.nz { statusBits s.p with c := decide (128 ≤ m.toNat) }
        (BitVec.ofNat 8 (m.toNat * 2 + (statusBits s.p).c.toNat)))) ∧
  (ImpliedRule (.ror .acc) 0x6A 2
      (fun s => { s.registers with a := BitVec.ofNat 8 (s.a.toNat / 2 + 128 * (statusBits s.p).c.toNat) })
      (fun s => StatusBits.nz { statusBits s.p with c := decide (s.a.toNat % 2 = 1) }
        (BitVec.ofNat 8 (s.a.toNat / 2 + 128 * (statusBits s.p).c.toNat))) ∧
    ModifyRule (fun o => .ror (.mem o)) Rows.ror
      (fun m s => BitVec.ofNat 8 (m.toNat / 2 + 128 * (statusBits s.p).c.toNat)) (fun _ s => s.registers)
      (fun m s => StatusBits.nz { statusBits s.p with c := decide (m.toNat % 2 = 1) }
        (BitVec.ofNat 8 (m.toNat / 2 + 128 * (statusBits s.p).c.toNat))))

/-- 42_branches_compares.md R170 to R178. The page that the target is compared with is that of `next`, the spec's decision
D7. -/
def Obligations.BranchRules : Prop :=
  BranchRule .bcc 0x90 (fun s => !(statusBits s.p).c) ∧ BranchRule .bcs 0xB0 (fun s => (statusBits s.p).c) ∧
  BranchRule .beq 0xF0 (fun s => (statusBits s.p).z) ∧ BranchRule .bne 0xD0 (fun s => !(statusBits s.p).z) ∧
  BranchRule .bmi 0x30 (fun s => (statusBits s.p).n) ∧ BranchRule .bpl 0x10 (fun s => !(statusBits s.p).n) ∧
  BranchRule .bvc 0x50 (fun s => !(statusBits s.p).v) ∧ BranchRule .bvs 0x70 (fun s => (statusBits s.p).v)

/-- 42_branches_compares.md R179, R180, R181. -/
def Obligations.CompareRules : Prop :=
  (ImmediateRule (fun d => .cmp (.imm d)) 0xC9 (fun _ s => s.registers) (fun m s => compareBits (statusBits s.p) s.a m) ∧
    ReadRule (fun o => .cmp (.mem o)) Rows.cmp (fun _ s => s.registers) (fun m s => compareBits (statusBits s.p) s.a m)) ∧
  (ImmediateRule (fun d => .cpx (.imm d)) 0xE0 (fun _ s => s.registers) (fun m s => compareBits (statusBits s.p) s.x m) ∧
    ReadRule (fun o => .cpx (.mem o)) Rows.cpx (fun _ s => s.registers) (fun m s => compareBits (statusBits s.p) s.x m)) ∧
  (ImmediateRule (fun d => .cpy (.imm d)) 0xC0 (fun _ s => s.registers) (fun m s => compareBits (statusBits s.p) s.y m) ∧
    ReadRule (fun o => .cpy (.mem o)) Rows.cpy (fun _ s => s.registers) (fun m s => compareBits (statusBits s.p) s.y m))

/-- 43_incdec_flags.md R190 to R195. -/
def Obligations.IncDecRules : Prop :=
  ModifyRule .inc Rows.inc (fun m _ => BitVec.ofNat 8 (m.toNat + 1)) (fun _ s => s.registers)
    (fun m s => (statusBits s.p).nz (BitVec.ofNat 8 (m.toNat + 1))) ∧
  ModifyRule .dec Rows.dec (fun m _ => BitVec.ofInt 8 (m.toNat - 1)) (fun _ s => s.registers)
    (fun m s => (statusBits s.p).nz (BitVec.ofInt 8 (m.toNat - 1))) ∧
  ImpliedRule .inx 0xE8 2 (fun s => { s.registers with x := BitVec.ofNat 8 (s.x.toNat + 1) })
    (fun s => (statusBits s.p).nz (BitVec.ofNat 8 (s.x.toNat + 1))) ∧
  ImpliedRule .iny 0xC8 2 (fun s => { s.registers with y := BitVec.ofNat 8 (s.y.toNat + 1) })
    (fun s => (statusBits s.p).nz (BitVec.ofNat 8 (s.y.toNat + 1))) ∧
  ImpliedRule .dex 0xCA 2 (fun s => { s.registers with x := BitVec.ofInt 8 (s.x.toNat - 1) })
    (fun s => (statusBits s.p).nz (BitVec.ofInt 8 (s.x.toNat - 1))) ∧
  ImpliedRule .dey 0x88 2 (fun s => { s.registers with y := BitVec.ofInt 8 (s.y.toNat - 1) })
    (fun s => (statusBits s.p).nz (BitVec.ofInt 8 (s.y.toNat - 1)))

/-- 43_incdec_flags.md R197 to R203. -/
def Obligations.FlagRules : Prop :=
  ImpliedRule .clc 0x18 2 State.registers (fun s => { statusBits s.p with c := false }) ∧
  ImpliedRule .sec 0x38 2 State.registers (fun s => { statusBits s.p with c := true }) ∧
  ImpliedRule .cld 0xD8 2 State.registers (fun s => { statusBits s.p with d := false }) ∧
  ImpliedRule .sed 0xF8 2 State.registers (fun s => { statusBits s.p with d := true }) ∧
  ImpliedRule .cli 0x58 2 State.registers (fun s => { statusBits s.p with i := false }) ∧
  ImpliedRule .sei 0x78 2 State.registers (fun s => { statusBits s.p with i := true }) ∧
  ImpliedRule .clv 0xB8 2 State.registers (fun s => { statusBits s.p with v := false })

/-- 44_jumps_stack_brk_nop.md R210: JMP, with the in-page wrap of the Indirect form. -/
def Obligations.JmpRule : Prop :=
  ∀ w high : Addr, high = (w &&& 0xFF00) ||| ((w + 1) &&& 0x00FF) →
    (Encodes [0x4C, loByte w, hiByte w] (.jmp (.abs w)) ∧ Encodes [0x6C, loByte w, hiByte w] (.jmp (.ind w))) ∧
    ∀ s : State,
      (∃ t, exec (.jmp (.abs w)) s = .next t ∧ Leaves s 3 { s.registers with pc := w } (statusBits s.p) t) ∧
      (readOk s w → ∀ u, u = readEffect s w →
        (readOk u high → ∃ t, exec (.jmp (.ind w)) s = .next t ∧
          Leaves (readEffect u high) 5 { s.registers with pc := word16 (readValue u high) (readValue s w) }
            (statusBits s.p) t) ∧
        (¬ readOk u high → exec (.jmp (.ind w)) s = .fault (.unmappedPpuRead u.ppu.v))) ∧
      (¬ readOk s w → exec (.jmp (.ind w)) s = .fault (.unmappedPpuRead s.ppu.v))

/-- 44_jumps_stack_brk_nop.md R211, R212: JSR and RTS. -/
def Obligations.SubroutineRules : Prop :=
  (∀ w : Addr, Encodes [0x20, loByte w, hiByte w] (.jsr w) ∧
    ∀ s, ∃ u t, writeBytes [(stackAddr s.sp, hiByte (s.pc + 2)), (stackAddr (s.sp - 1), loByte (s.pc + 2))] s = .done () u ∧
      exec (.jsr w) s = .next t ∧
      Leaves u 6 { s.registers with sp := s.sp - 2, pc := w } (statusBits s.p) t) ∧
  (Encodes [0x60] .rts ∧
    ∀ s, ∃ t, exec .rts s = .next t ∧
      Leaves s 6 { s.registers with
        sp := s.sp + 2
        pc := word16 (readValue s (stackAddr (s.sp + 2))) (readValue s (stackAddr (s.sp + 1))) + 1 } (statusBits s.p) t)

/-- 44_jumps_stack_brk_nop.md R213: RTI. -/
def Obligations.RtiRule : Prop :=
  Encodes [0x40] .rti ∧
  ∀ s, ∃ t, exec .rti s = .next t ∧
    Leaves s 6 { s.registers with
      sp := s.sp + 3
      pc := word16 (readValue s (stackAddr (s.sp + 3))) (readValue s (stackAddr (s.sp + 2))) }
      { statusBits (readValue s (stackAddr (s.sp + 1))) with b := false, u := true } t

/-- 44_jumps_stack_brk_nop.md R215 to R218: PHA, PLA, PHP, PLP. That PLA sets N and Z is the spec's decision D43;
where SP points before and after, D4; that it wraps, D5. -/
def Obligations.StackRules : Prop :=
  (Encodes [0x48] .pha ∧ ∀ s, ∃ u t, busWrite (stackAddr s.sp) s.a s = .done () u ∧ exec .pha s = .next t ∧
    Leaves u 3 { s.registers with sp := s.sp - 1, pc := s.pc + 1 } (statusBits s.p) t) ∧
  (Encodes [0x68] .pla ∧ ∀ s, ∃ t, exec .pla s = .next t ∧
    Leaves s 4 { s.registers with a := readValue s (stackAddr (s.sp + 1)), sp := s.sp + 1, pc := s.pc + 1 }
      ((statusBits s.p).nz (readValue s (stackAddr (s.sp + 1)))) t) ∧
  (Encodes [0x08] .php ∧ ∀ s, ∃ u t, busWrite (stackAddr s.sp) (s.p ||| 0x30) s = .done () u ∧ exec .php s = .next t ∧
    Leaves u 3 { s.registers with sp := s.sp - 1, pc := s.pc + 1 } (statusBits s.p) t) ∧
  (Encodes [0x28] .plp ∧ ∀ s, ∃ t, exec .plp s = .next t ∧
    Leaves s 4 { s.registers with sp := s.sp + 1, pc := s.pc + 1 }
      { statusBits (readValue s (stackAddr (s.sp + 1))) with b := false, u := true } t)

/-- 44_jumps_stack_brk_nop.md R221: BRK in both modes (the spec's decision D1). That it pushes `opPC + 2` is D2, in which order
D3, what Halt mode leaves D36; the model marks the halt by `halted` (log 8). -/
def Obligations.BrkRule : Prop :=
  Encodes [0x00] .brk ∧ ∀ s : State,
    (s.build.brkMode = .hardware → ∃ u t,
      writeBytes [(stackAddr s.sp, hiByte (s.pc + 2)), (stackAddr (s.sp - 1), loByte (s.pc + 2)),
        (stackAddr (s.sp - 2), s.p ||| 0x30)] s = .done () u ∧
      exec .brk s = .next t ∧
      Leaves u 7 { s.registers with sp := s.sp - 3, pc := word16 (readValue s 0xFFFF) (readValue s 0xFFFE) }
        { statusBits s.p with i := true } t) ∧
    (s.build.brkMode = .halt → exec .brk s = .next { s with pc := s.pc + 1, halted := true })

/-- 44_jumps_stack_brk_nop.md R222, 45_undocumented.md R239: NOP and the 27 unofficial ones, which read nothing at the
effective address by the spec's decision D9. -/
def Obligations.NopRules : Prop :=
  ImpliedRule .nop 0xEA 2 State.registers (fun s => statusBits s.p) ∧
  (∀ op : Byte, (Instr.nopU op .imp).wf = true → op ∈ ([0x1A, 0x3A, 0x5A, 0x7A, 0xDA, 0xFA] : List Byte)) ∧
  (∀ op ∈ ([0x1A, 0x3A, 0x5A, 0x7A, 0xDA, 0xFA] : List Byte),
    ImpliedRule (.nopU op .imp) op 2 State.registers (fun s => statusBits s.p)) ∧
  (∀ op d : Byte, (Instr.nopU op (.imm d)).wf = true → op ∈ ([0x80, 0x82, 0x89, 0xC2, 0xE2] : List Byte)) ∧
  (∀ op ∈ ([0x80, 0x82, 0x89, 0xC2, 0xE2] : List Byte),
    ImmediateRule (fun d => .nopU op (.imm d)) op (fun _ s => s.registers) (fun _ s => statusBits s.p)) ∧
  (∀ op o, (Instr.nopU op (.mem o)).wf = true → ∃ r ∈ Rows.nop, r.op = op ∧ r.mode = o.mode) ∧
  (∀ r ∈ Rows.nop, ∀ o, r.mode = o.mode →
    (Instr.nopU r.op (.mem o)).wf = true ∧ Encodes (r.op :: o.bytes) (.nopU r.op (.mem o)) ∧
    ∀ s, ∃ t, exec (.nopU r.op (.mem o)) s = .next t ∧
      Leaves s (r.cost (crossed o s)) { s.registers with pc := r.next s } (statusBits s.p) t)

/-- 45_undocumented.md R232: *SAX changes no flag and no register by the spec's decision D40. -/
def Obligations.SaxRule : Prop :=
  StoreRule .sax Rows.sax (fun s => s.a &&& s.x)

/-- 45_undocumented.md R233, R234. -/
def Obligations.DcpIsbRules : Prop :=
  ModifyRule .dcp Rows.dcp (fun m _ => BitVec.ofInt 8 (m.toNat - 1)) (fun _ s => s.registers)
    (fun m s => compareBits (statusBits s.p) s.a (BitVec.ofInt 8 (m.toNat - 1))) ∧
  ModifyRule .isb Rows.isb (fun m _ => BitVec.ofNat 8 (m.toNat + 1))
    (fun m s => { s.registers with a := differenceByte s.a (BitVec.ofNat 8 (m.toNat + 1)) (statusBits s.p).c })
    (fun m s => differenceBits (statusBits s.p) s.a (BitVec.ofNat 8 (m.toNat + 1)))

/-- 45_undocumented.md R235 to R238: the ADC half of *RRA adds the carry that the rotate shifted out. -/
def Obligations.SloRlaSreRraRules : Prop :=
  ModifyRule .slo Rows.slo (fun m _ => BitVec.ofNat 8 (m.toNat * 2))
    (fun m s => { s.registers with a := s.a ||| BitVec.ofNat 8 (m.toNat * 2) })
    (fun m s => StatusBits.nz { statusBits s.p with c := decide (128 ≤ m.toNat) } (s.a ||| BitVec.ofNat 8 (m.toNat * 2))) ∧
  ModifyRule .rla Rows.rla (fun m s => BitVec.ofNat 8 (m.toNat * 2 + (statusBits s.p).c.toNat))
    (fun m s => { s.registers with a := s.a &&& BitVec.ofNat 8 (m.toNat * 2 + (statusBits s.p).c.toNat) })
    (fun m s => StatusBits.nz { statusBits s.p with c := decide (128 ≤ m.toNat) }
      (s.a &&& BitVec.ofNat 8 (m.toNat * 2 + (statusBits s.p).c.toNat))) ∧
  ModifyRule .sre Rows.sre (fun m _ => BitVec.ofNat 8 (m.toNat / 2))
    (fun m s => { s.registers with a := s.a ^^^ BitVec.ofNat 8 (m.toNat / 2) })
    (fun m s => StatusBits.nz { statusBits s.p with c := decide (m.toNat % 2 = 1) } (s.a ^^^ BitVec.ofNat 8 (m.toNat / 2))) ∧
  ModifyRule .rra Rows.rra (fun m s => BitVec.ofNat 8 (m.toNat / 2 + 128 * (statusBits s.p).c.toNat))
    (fun m s => { s.registers with
      a := sumByte s.a (BitVec.ofNat 8 (m.toNat / 2 + 128 * (statusBits s.p).c.toNat)) (decide (m.toNat % 2 = 1)) })
    (fun m s => sumBits { statusBits s.p with c := decide (m.toNat % 2 = 1) } s.a
      (BitVec.ofNat 8 (m.toNat / 2 + 128 * (statusBits s.p).c.toNat)))

/-- 30_encoding.md R107, 60_exceptions.md R267: the 25 undefined bytes. Fetching one ends the step before any operand
is fetched, with `opPC` as its information (the spec's decisions D10, D12). That such a byte is a well-formed instruction of
one byte, with an encoding, is the model's DESIGN CHOICE (log 13), and `halted` its own (log 8). -/
def Obligations.UndefinedBytesAreFatal : Prop :=
  ∀ b ∈ ([0x02, 0x12, 0x22, 0x32, 0x42, 0x52, 0x62, 0x72, 0x92, 0xB2, 0xD2, 0xF2, 0x0B, 0x2B, 0x4B, 0x6B, 0x8B, 0xAB, 0xCB,
      0x93, 0x9F, 0x9C, 0x9E, 0x9B, 0xBB] : List Byte),
    (Instr.undefined b).wf = true ∧ Encodes [b] (.undefined b) ∧
    (∀ s, exec (.undefined b) s = .fault (.unknownOpcode b s.pc)) ∧
    ∀ s w u : State, s.halted = false → w = takePendingNmi s → busRead w.pc w = .done b u →
      step s = .fault (.unknownOpcode b w.pc)

/-! ## Arithmetic -/

/-- 41_arithmetic_logic_shifts.md R148: of ADC and SBC in every form, C is the unsigned overflow of the addition and the
absence of a borrow, V is two's-complement overflow, and D changes nothing (the spec's decision D13). -/
def Obligations.CarryAndOverflowOfAdcAndSbc : Prop :=
  ∀ (s : State) (i : Instr) (m : Byte) (t : State), exec i s = .next t →
    (((i = .adc (.imm m) ∨ ∃ o, i = .adc (.mem o) ∧ m = readValue s (effAddr o s)) →
        ((statusBits t.p).c = true ↔ s.a.toNat + m.toNat + (statusBits s.p).c.toNat > 255) ∧
        ((statusBits t.p).v = true ↔
          ¬ (-128 ≤ s.a.toInt + m.toInt + (statusBits s.p).c.toNat ∧
            s.a.toInt + m.toInt + (statusBits s.p).c.toNat ≤ 127))) ∧
      ((i = .sbc (.imm m) ∨ i = .sbcU m ∨ ∃ o, i = .sbc (.mem o) ∧ m = readValue s (effAddr o s)) →
        ((statusBits t.p).c = true ↔ (s.a.toNat : Int) - m.toNat - (1 - (statusBits s.p).c.toNat) ≥ 0) ∧
        ((statusBits t.p).v = true ↔
          ¬ (-128 ≤ s.a.toInt - m.toInt - (1 - (statusBits s.p).c.toNat) ∧
            s.a.toInt - m.toInt - (1 - (statusBits s.p).c.toNat) ≤ 127)))) ∧
    ((∃ src, i = .adc src ∨ i = .sbc src ∨ ∃ d, i = .sbcU d) → ∀ b, ∃ t', exec i (s.setP (setD b s.p)) = .next t' ∧
      t'.registers = t.registers ∧ statusBits t'.p = { statusBits t.p with d := b } ∧ t'.outside = t.outside)

/-- 41_arithmetic_logic_shifts.md R160: ADC #M with C = 1, then CLC, then SBC #M leaves A as it was. That the flags are then
those of the SBC is the sentence which R160 marks as derived from R150 and R151. -/
def Obligations.AdcClcSbcRestoresA : Prop :=
  ∀ (s : State) (m : Byte), (statusBits s.p).c = true →
    ∃ t u v, exec (.adc (.imm m)) s = .next t ∧ exec .clc t = .next u ∧ exec (.sbc (.imm m)) u = .next v ∧ v.a = s.a ∧
      statusBits v.p = differenceBits (statusBits u.p) u.a m

/-! ## Traps, calls and the stack -/

/-- 60_exceptions.md R276: RTI undoes the NMI entry and BRK: P and SP as before, PC as pushed, no other register changed. The
byte order is the spec's decision D3, the PC that BRK pushes D2. -/
def Obligations.RtiUndoesTheTraps : Prop :=
  ∀ s : State, s.Inv →
    (s.pendingNmi = true → ∃ u, exec .rti (takePendingNmi s) = .next u ∧ u.registers = s.registers ∧ u.p = s.p) ∧
    (s.build.brkMode = .hardware → ∃ t u, exec .brk s = .next t ∧ exec .rti t = .next u ∧
      u.registers = { s.registers with pc := s.pc + 2 } ∧ u.p = s.p)

/-- 10_state.md R23, R24, 44_jumps_stack_brk_nop.md R211, R212, R215 to R218: what is pushed is what is pulled, from any
stack pointer, the wrap from $00 to $FF among them (the spec's decisions D3, D4 and D5). -/
def Obligations.PullsGiveBackWhatWasPushed : Prop :=
  ∀ s : State, s.Sound →
    (∀ w, ∃ t, exec (.jsr w) s = .next t ∧ ∀ pc, ∃ u, exec .rts (t.setPc pc) = .next u ∧
      u.registers = { s.registers with pc := s.pc + 3 } ∧ u.p = s.p) ∧
    (∃ t, exec .pha s = .next t ∧ ∀ a pc, ∃ u, exec .pla ((t.setA a).setPc pc) = .next u ∧ u.a = s.a ∧ u.sp = s.sp) ∧
    (∃ t, exec .php s = .next t ∧ ∀ p pc, ∃ u, exec .plp ((t.setP p).setPc pc) = .next u ∧ u.p = s.p ∧ u.sp = s.sp)

/-! ## Frames -/

/-- 10_state.md R21, R22, R23: an instruction not listed as a writer of A, X, Y or SP leaves it unchanged. -/
def Obligations.OnlyTheListedInstructionsWriteARegister : Prop :=
  ∀ (i : Instr) (s t : State), exec i s = .next t →
    (writesA i = false → t.a = s.a) ∧ (writesX i = false → t.x = s.x) ∧ (writesY i = false → t.y = s.y) ∧
    (writesSp i = false → t.sp = s.sp)

/-- 10_state.md R27, R26: an instruction not listed as a writer of a flag leaves it unchanged; B and U are written by none,
and PLP and RTI leave them 0 and 1 (which R26 derives from their rules). -/
def Obligations.OnlyTheListedInstructionsWriteAFlag : Prop :=
  ∀ (i : Instr) (s t : State), exec i s = .next t →
    (writesC i = false → (statusBits t.p).c = (statusBits s.p).c) ∧
    (writesZN i = false → (statusBits t.p).z = (statusBits s.p).z ∧ (statusBits t.p).n = (statusBits s.p).n) ∧
    (writesI i = false → (statusBits t.p).i = (statusBits s.p).i) ∧
    (writesD i = false → (statusBits t.p).d = (statusBits s.p).d) ∧
    (writesV i = false → (statusBits t.p).v = (statusBits s.p).v) ∧
    (i ≠ .plp → i ≠ .rti → (statusBits t.p).b = (statusBits s.p).b ∧ (statusBits t.p).u = (statusBits s.p).u) ∧
    (i = .plp ∨ i = .rti → (statusBits t.p).b = false ∧ (statusBits t.p).u = true)

/-- The frame of RAM and ROM (20_memory.md R54, R66, R70): every byte outside those the instruction stores or pushes reads
as before, through any mirror; `targetAddrs` and `pushAddrs` compute the addresses as the meanings do. -/
def Obligations.MemoryChangesOnlyWhereStored : Prop :=
  ∀ (i : Instr) (s t : State) (a : Addr), exec i s = .next t → isStorage a = true →
    (∀ b ∈ targetAddrs i s ++ pushAddrs i s, ¬ sameRamByte a b) → readValue t a = readValue s a

/-- The frame of the devices (60_exceptions.md R284, R302, 20_memory.md R67): an instruction whose operand addresses are
RAM or ROM moves the PPU by three dots a cycle and does nothing else to it, nor to the joypads. -/
def Obligations.DevicesChangeOnlyThroughTheirAddresses : Prop :=
  ∀ (i : Instr) (s t : State), exec i s = .next t →
    (∀ b ∈ sourceAddrs i s ++ targetAddrs i s, isStorage b = true) →
    t.ppu = ppuTick s.cart (3 * (t.cycles - s.cycles)) s.ppu ∧ s.cycles ≤ t.cycles ∧ t.joy1 = s.joy1 ∧ t.joy2 = s.joy2

/-- 10_state.md R32, 20_memory.md R84: no step changes the cartridge or the build, and every step reads the same bytes at
$8000 to $FFFF. -/
def Obligations.TheCartridgeIsImmutable : Prop :=
  ∀ s t : State, step s = .next t →
    t.cart = s.cart ∧ t.build = s.build ∧ ∀ a : Addr, 0x8000 ≤ a.toNat → readValue t a = readValue s a

/-! ## The bus -/

/-- 20_memory.md R52, R54, R55, R56, 60_exceptions.md R269, R294, R295, R297, R315: the bus for reads, at every address, with
RAM, port and ROM mirrors. The reads of $4018 to $401F are the spec's decision D20, the zeros of the joypads D25, `oam_addr`
left by a read D41, the fatal read and the 15 bits of `v` D22, a palette byte read whole D30. -/
def Obligations.BusReadMap : Prop :=
  ∀ (a : Addr) (s : State),
    (a.toNat < 0x2000 → busRead a s = .done (memGet s.ram (a.toNat % 0x800)) s) ∧
    (0x2000 ≤ a.toNat → a.toNat < 0x4000 →
      (a.toNat % 8 = 2 →
        busRead a s = .done s.ppu.status { s with ppu := { s.ppu with status := s.ppu.status &&& 0x7F, w := false } }) ∧
      (a.toNat % 8 = 4 → busRead a s = .done (memGet s.ppu.oam s.ppu.oamAddr.toNat) s) ∧
      (a.toNat % 8 ∈ [0, 1, 3, 5, 6] → busRead a s = .done 0 s) ∧
      (a.toNat % 8 = 7 →
        (s.ppu.v.toNat < 0x4000 → busRead a s = .done
          (if s.ppu.v.toNat < 0x3F00 then s.ppu.buf else memGet s.ppu.pal (palIndex s.ppu.v))
          { s with ppu := { s.ppu with
            buf := if s.ppu.v.toNat < 0x2000 then memGet s.cart.chr s.ppu.v.toNat
              else memGet s.ppu.vram (ntIndex s.cart.mirroring s.ppu.v)
            v := s.ppu.v + (if s.ppu.ctrl.getLsbD 2 then 32 else 1) } }) ∧
        (0x4000 ≤ s.ppu.v.toNat → busRead a s = .fatal (.unmappedPpuRead s.ppu.v)))) ∧
    (0x4000 ≤ a.toNat → a.toNat < 0x8000 → a.toNat ≠ 0x4016 → a.toNat ≠ 0x4017 → busRead a s = .done 0 s) ∧
    (a.toNat = 0x4016 →
      (7 < s.joy1.i → busRead a s = .done 1 s) ∧
      (s.joy1.i ≤ 7 → busRead a s = .done (BitVec.ofNat 8 (s.joy1.b.getLsbD s.joy1.i).toNat)
        { s with joy1 := { s.joy1 with i := if s.joy1.s then s.joy1.i else s.joy1.i + 1 } })) ∧
    (a.toNat = 0x4017 →
      (7 < s.joy2.i → busRead a s = .done 1 s) ∧
      (s.joy2.i ≤ 7 → busRead a s = .done (BitVec.ofNat 8 (s.joy2.b.getLsbD s.joy2.i).toNat)
        { s with joy2 := { s.joy2 with i := if s.joy2.s then s.joy2.i else s.joy2.i + 1 } })) ∧
    (0x8000 ≤ a.toNat → busRead a s = .done (memGet s.cart.prg
      (match s.cart.prgSize with | .kib16 => (a.toNat - 0x8000) % 0x4000 | .kib32 => a.toNat - 0x8000)) s)

/-- 20_memory.md R53, R54, 60_exceptions.md R268, R314, R316: the bus for writes, with RAM mirrors; the ports that store
are in the statements after this one, $4014 is in `OamDma`. The ignored writes are the spec's decision D20, the mirrors of the
ports for writes D21, that joypad 2 is never strobed D27. -/
def Obligations.BusWriteMap : Prop :=
  ∀ (a : Addr) (d : Byte) (s : State),
    (a.toNat < 0x2000 → busWrite a d s = .done () { s with ram := memSet s.ram (a.toNat % 0x800) d }) ∧
    (0x2000 ≤ a.toNat → a.toNat < 0x4000 → a.toNat % 8 = 2 → busWrite a d s = .done () s) ∧
    (a.toNat = 0x4016 → busWrite a d s = .done ()
      { s with joy1 := { s.joy1 with s := d.getLsbD 0, i := if d.getLsbD 0 then 0 else s.joy1.i } }) ∧
    (0x4000 ≤ a.toNat → a.toNat < 0x8000 → a.toNat ≠ 0x4014 → a.toNat ≠ 0x4016 → busWrite a d s = .done () s) ∧
    (0x8000 ≤ a.toNat → busWrite a d s = .fatal (.writeToRom a))

/-- 20_memory.md R54: an access to RAM at `a` is an access at `a & $07FF`; so a byte written is read back through each of its
four mirrors, and no other byte changes. -/
def Obligations.RamReadsBackThroughItsMirrors : Prop :=
  ∀ (a b : Addr) (d : Byte) (s : State), s.Sound → a.toNat < 0x2000 →
    busRead a s = busRead (a &&& 0x07FF) s ∧ busWrite a d s = busWrite (a &&& 0x07FF) d s ∧
    ∃ t, busWrite a d s = .done () t ∧
      (sameRamByte b a → busRead b t = .done d t) ∧
      (isStorage b = true → ¬ sameRamByte b a → busRead b t = .done (readValue s b) t)

/-! ## The PPU ports -/

/-- 60_exceptions.md R292, R293, R295: writes to PPUCTRL, PPUMASK, OAMADDR and OAMDATA, at every mirror (20_memory.md R55; that
the mirrors hold for writes is the spec's decision D21). -/
def Obligations.PpuControlPorts : Prop :=
  ∀ (a : Addr) (d : Byte) (s : State), 0x2000 ≤ a.toNat → a.toNat < 0x4000 →
    (a.toNat % 8 = 0 → ∃ t : VramAddr,
      (∀ k, k < 15 → t.getLsbD k = if k = 10 then d.getLsbD 0 else if k = 11 then d.getLsbD 1 else s.ppu.t.getLsbD k) ∧
      busWrite a d s = .done () { s with ppu := { s.ppu with
        ctrl := d
        t := t
        nmiPending := s.ppu.nmiPending ||
          decide (s.ppu.ctrl.getLsbD 7 = false ∧ d.getLsbD 7 = true ∧ s.ppu.status.getLsbD 7 = true) } }) ∧
    (a.toNat % 8 = 1 → busWrite a d s = .done () { s with ppu := { s.ppu with mask := d } }) ∧
    (a.toNat % 8 = 3 → busWrite a d s = .done () { s with ppu := { s.ppu with oamAddr := d } }) ∧
    (a.toNat % 8 = 4 → busWrite a d s = .done () { s with ppu := { s.ppu with
      oam := memSet s.ppu.oam s.ppu.oamAddr.toNat d
      oamAddr := BitVec.ofNat 8 (s.ppu.oamAddr.toNat + 1) } })

/-- 60_exceptions.md R296, R299: writes to PPUADDR and PPUSCROLL, first and second, at every mirror. Where the bits of
PPUSCROLL go in `t` is the spec's decision D24, the mirrors for writes D21. -/
def Obligations.PpuAddressPorts : Prop :=
  ∀ (a : Addr) (d : Byte) (s : State), 0x2000 ≤ a.toNat → a.toNat < 0x4000 →
    (a.toNat % 8 = 6 → s.ppu.w = false → ∃ t : VramAddr,
      (∀ k, k < 15 → t.getLsbD k = if k = 14 then false else if k < 8 then s.ppu.t.getLsbD k else d.getLsbD (k - 8)) ∧
      busWrite a d s = .done () { s with ppu := { s.ppu with t := t, w := true } }) ∧
    (a.toNat % 8 = 6 → s.ppu.w = true → ∃ t : VramAddr,
      (∀ k, k < 15 → t.getLsbD k = if k < 8 then d.getLsbD k else s.ppu.t.getLsbD k) ∧
      busWrite a d s = .done () { s with ppu := { s.ppu with t := t, v := t, w := false } }) ∧
    (a.toNat % 8 = 5 → s.ppu.w = false → ∃ t : VramAddr,
      (∀ k, k < 15 → t.getLsbD k = if k < 5 then d.getLsbD (k + 3) else s.ppu.t.getLsbD k) ∧
      busWrite a d s = .done () { s with ppu := { s.ppu with t := t, x := BitVec.ofNat 3 d.toNat, w := true } }) ∧
    (a.toNat % 8 = 5 → s.ppu.w = true → ∃ t : VramAddr,
      (∀ k, k < 15 → t.getLsbD k = if 12 ≤ k then d.getLsbD (k - 12) else if 5 ≤ k ∧ k < 10 then d.getLsbD (k - 2)
        else s.ppu.t.getLsbD k) ∧
      busWrite a d s = .done () { s with ppu := { s.ppu with t := t, w := false } })

/-- 60_exceptions.md R297, R298, R269, R270, 20_memory.md R82, R83: reads and writes of PPUDATA, at every mirror; `NT` and
`PAL` are `ntIndex` and `palIndex`, stated in `PpuAddressSpace`. The 15 bits of `v` and the fatal cases are the spec's
decision D22, a palette byte read whole D30, the mirrors for writes D21. -/
def Obligations.PpuDataPort : Prop :=
  ∀ (a : Addr) (d : Byte) (s : State) (v next : VramAddr), 0x2000 ≤ a.toNat → a.toNat < 0x4000 → a.toNat % 8 = 7 →
    v = s.ppu.v → next.toNat = (v.toNat + (if s.ppu.ctrl.getLsbD 2 then 32 else 1)) % 32768 →
    (v.toNat < 0x2000 →
      busRead a s = .done s.ppu.buf { s with ppu := { s.ppu with buf := memGet s.cart.chr v.toNat, v := next } } ∧
      busWrite a d s = .fatal (.unmappedPpuWrite v)) ∧
    (0x2000 ≤ v.toNat → v.toNat < 0x3F00 →
      busRead a s = .done s.ppu.buf
        { s with ppu := { s.ppu with buf := memGet s.ppu.vram (ntIndex s.cart.mirroring v), v := next } } ∧
      busWrite a d s = .done ()
        { s with ppu := { s.ppu with vram := memSet s.ppu.vram (ntIndex s.cart.mirroring v) d, v := next } }) ∧
    (0x3F00 ≤ v.toNat → v.toNat < 0x4000 →
      busRead a s = .done (memGet s.ppu.pal (palIndex v))
        { s with ppu := { s.ppu with buf := memGet s.ppu.vram (ntIndex s.cart.mirroring v), v := next } } ∧
      busWrite a d s = .done () { s with ppu := { s.ppu with pal := memSet s.ppu.pal (palIndex v) d, v := next } }) ∧
    (0x4000 ≤ v.toNat →
      busRead a s = .fatal (.unmappedPpuRead v) ∧ busWrite a d s = .fatal (.unmappedPpuWrite v))

/-- 20_memory.md R80, R81: nametable mirroring by table and offset, palette aliasing, and that both stay inside their
memories (the spec's decisions D30, and D31 for FourScreen; log 14). -/
def Obligations.PpuAddressSpace : Prop :=
  ∀ a : VramAddr,
    (∀ table offset : Nat, 0x2000 ≤ a.toNat → a.toNat < 0x4000 → table = a.toNat % 0x1000 / 0x400 →
      offset = a.toNat % 0x400 →
      ntIndex .horizontal a = (if table < 2 then offset else 0x400 + offset) ∧
      ntIndex .vertical a = (if table % 2 = 0 then offset else 0x400 + offset) ∧
      ntIndex .fourScreen a = 0x400 * table + offset) ∧
    (0x3F00 ≤ a.toNat → a.toNat < 0x4000 →
      palIndex a = (if a.toNat % 32 ∈ [0x10, 0x14, 0x18, 0x1C] then a.toNat % 32 - 0x10 else a.toNat % 32)) ∧
    (∀ m, ntIndex m a < vramSize m) ∧ palIndex a < 32

/-- 60_exceptions.md R310, 20_memory.md R76: OAM DMA. The states `c 0` to `c 256` are those between the 256 bytes, each
read through the bus; where one of the reads is fatal, so is the write, with the `v` of that read (`dmaFatalV`, D22); and from
a page that is RAM, ROM or reads 0 the bytes land in OAM from `oam_addr` on, wrapping, and nothing else changes but the stall.
The parity of `Bus.cycles` is the spec's decision D19. -/
def Obligations.OamDma : Prop :=
  ∀ (a : Addr) (d : Byte) (s : State), a.toNat = 0x4014 →
    (dmaOk s d → ∃ c : Nat → State, c 0 = s ∧
      (∀ n, n < 256 → ∃ b u, busRead (word16 d (BitVec.ofNat 8 n)) (c n) = .done b u ∧
        c (n + 1) = { u with ppu := { u.ppu with
          oam := memSet u.ppu.oam u.ppu.oamAddr.toNat b, oamAddr := BitVec.ofNat 8 (u.ppu.oamAddr.toNat + 1) } }) ∧
      busWrite a d s = .done () { c 256 with dmaStall := s.dmaStall + 513 + s.cycles % 2 }) ∧
    (¬ dmaOk s d → ∃ v : VramAddr, dmaFatalV s v ∧ busWrite a d s = .fatal (.unmappedPpuRead v)) ∧
    (s.Sound → (d.toNat < 0x20 ∨ 0x41 ≤ d.toNat) → ∃ oam,
      busWrite a d s = .done ()
        { s with ppu := { s.ppu with oam := oam }, dmaStall := s.dmaStall + 513 + s.cycles % 2 } ∧
      ∀ k, k < 256 → memGet oam ((s.ppu.oamAddr.toNat + k) % 256) = readValue s (word16 d (BitVec.ofNat 8 k)))

/-! ## The joypads -/

/-- 60_exceptions.md R314, R315, R318: while strobed every read of $4016 gives button A; after a write of 1 and of 0 the
reads give B[0] to B[7], then 1 for ever; no read of it is fatal. The zeros above bit 0 are
the spec's decision D25. -/
def Obligations.JoypadReadSequence : Prop :=
  ∀ (s : State) (a : Addr) (d0 d1 : Byte), a.toNat = 0x4016 → d1.getLsbD 0 = true → d0.getLsbD 0 = false →
    ∃ s1 s2, busWrite a d1 s = .done () s1 ∧ busWrite a d0 s1 = .done () s2 ∧
      (∀ n, busRead a ((fun s => readEffect s a)^[n] s1) =
        .done (BitVec.ofNat 8 (s.joy1.b.getLsbD 0).toNat) ((fun s => readEffect s a)^[n + 1] s1)) ∧
      (∀ n, busRead a ((fun s => readEffect s a)^[n] s2) =
        .done (if n < 8 then BitVec.ofNat 8 (s.joy1.b.getLsbD n).toNat else 1) ((fun s => readEffect s a)^[n + 1] s2))

/-! ## Time -/

/-- 60_exceptions.md R280, R281, R283: `Bus.tick(c)`; `frame_ready` rises only where the PPU passed scanline 241 dot 1 with
PPUCTRL bit 7 set and no request was standing; `poll_nmi` clears the request in the Bus and in the PPU and nothing else, and
with no request a step takes no NMI. That polling clears both is the spec's decision D14; that only the event in the tick
sets `frame_ready`, D15. -/
def Obligations.BusTickAndPoll : Prop :=
  ∀ (c : Nat) (s : State),
    (s.pendingNmi = true → pollNmi s = { s with pendingNmi := false, ppu := { s.ppu with nmiPending := false } }) ∧
    (s.pendingNmi = false → pollNmi s = s ∧ takePendingNmi s = s) ∧
    busTick c s = { s with
      dmaStall := 0
      cycles := s.cycles + c + s.dmaStall
      ppu := ppuTick s.cart (3 * (c + s.dmaStall)) s.ppu
      frameReady := decide (s.frameReady = true ∨
        s.ppu.nmiPending = false ∧ (ppuTick s.cart (3 * (c + s.dmaStall)) s.ppu).nmiPending = true)
      pendingNmi := (ppuTick s.cart (3 * (c + s.dmaStall)) s.ppu).nmiPending } ∧
    (s.ppu.dot < 341 → s.ppu.scanline < 262 → s.frameReady = false → (busTick c s).frameReady = true →
      s.ppu.nmiPending = false ∧ s.ppu.ctrl.getLsbD 7 = true ∧
      ∃ k, 1 ≤ k ∧ k ≤ 3 * (c + s.dmaStall) ∧ (s.ppu.scanline * 341 + s.ppu.dot + k) % 89342 = 241 * 341 + 1)

/-- 60_exceptions.md R300, R285: `n` dots move the position by `n` modulo 341 x 262, `f` toggles at each wrap of the frame
(the spec's decision D28), and no port changes (R302). That n dots are n single dots is the spec's decision D16. -/
def Obligations.PpuPositionAndParity : Prop :=
  ∀ (cart : Cartridge) (u w : Ppu) (n : Nat), u.dot < 341 → u.scanline < 262 → w = ppuTick cart n u →
    w.dot < 341 ∧ w.scanline < 262 ∧ w.scanline * 341 + w.dot = (u.scanline * 341 + u.dot + n) % 89342 ∧
    w.f = (if (u.scanline * 341 + u.dot + n) / 89342 % 2 = 0 then u.f else !u.f) ∧
    w.vram = u.vram ∧ w.pal = u.pal ∧ w.oam = u.oam ∧ w.ctrl = u.ctrl ∧ w.mask = u.mask ∧ w.oamAddr = u.oamAddr ∧
    w.v = u.v ∧ w.t = u.t ∧ w.x = u.x ∧ w.w = u.w ∧ w.buf = u.buf

/-- 60_exceptions.md R301: what a tick of at most 1566 dots (3 x 522) does to VBlank, Sprite-overflow and the NMI request,
by the events it passes. That a tick that jumps over an event has it is the spec's decision D16. -/
def Obligations.VblankEvents : Prop :=
  ∀ (cart : Cartridge) (u w : Ppu) (n : Nat) (passes : Nat → Prop), u.dot < 341 → u.scanline < 262 → n ≤ 1566 →
    w = ppuTick cart n u →
    (∀ p, passes p ↔ ∃ k, 1 ≤ k ∧ k ≤ n ∧ (u.scanline * 341 + u.dot + k) % 89342 = p) →
    (passes (241 * 341 + 1) → w.status.getLsbD 7 = true ∧ w.status.getLsbD 5 = u.status.getLsbD 5 ∧
      w.nmiPending = (u.nmiPending || u.ctrl.getLsbD 7)) ∧
    (passes (261 * 341 + 1) → w.status.getLsbD 7 = false ∧ w.status.getLsbD 5 = false ∧ w.nmiPending = false) ∧
    (¬ passes (241 * 341 + 1) → ¬ passes (261 * 341 + 1) → w.status.getLsbD 7 = u.status.getLsbD 7 ∧
      w.status.getLsbD 5 = u.status.getLsbD 5 ∧ w.nmiPending = u.nmiPending)

/-- 60_exceptions.md R305 (a) to (c), R292, 10_state.md R36: over one dot, Sprite-0 hit is cleared at scanline 261 dot 1
and by nothing else, and it is set at no dot but those of scanlines 0 to 239, with rendering enabled, over a picture in
which sprite 0 overlaps the background, where the policy in force says so. The picture and the policy are the model's free
values (`Config.spriteZeroOverlap`, `Config.s0Policy`, log 6): the statement holds whatever they are. -/
def Obligations.SpriteZeroHit : Prop :=
  ∀ (cart : Cartridge) (u w : Ppu), w = ppuDot cart u →
    (w.scanline = 261 ∧ w.dot = 1 → w.status.getLsbD 6 = false) ∧
    (¬ (w.scanline = 261 ∧ w.dot = 1) → (w.status.getLsbD 6 = true ↔ u.status.getLsbD 6 = true ∨
      w.scanline < 240 ∧ (w.mask.getLsbD 3 = true ∨ w.mask.getLsbD 4 = true) ∧
        Config.spriteZeroOverlap (ppuSnapshot cart w) = true ∧ Config.s0Policy u.s0Draws = true)) ∧
    (u.status.getLsbD 5 = false → w.status.getLsbD 5 = false)

/-- 70_reset_and_hazards.md R344, 60_exceptions.md R281, R301: while PPUCTRL bit 7 is 0 and no NMI is requested, a step that
leaves the bit 0 requests none and does not set `frame_ready` (the spec's decision D15). -/
def Obligations.NoNmiUntilEnabled : Prop :=
  ∀ s t : State, s.Inv → s.ppu.ctrl.getLsbD 7 = false → s.pendingNmi = false → step s = .next t →
    t.ppu.ctrl.getLsbD 7 = false → t.pendingNmi = false ∧ t.ppu.nmiPending = false ∧ t.frameReady = s.frameReady

/-! ## Reset, the host and the invariant -/

/-- 70_reset_and_hazards.md R340 to R343: `Cpu.reset` sets the six CPU registers and leaves everything outside the CPU,
without a tick (the spec's decisions D18, D35; `halted`, the model's own, is cleared, log 8). -/
def Obligations.CpuReset : Prop :=
  ∀ s t : State, t = hostAct .reset s →
    t.p = 0x24 ∧ t.outside = { s.outside with halted := false } ∧
    t.registers = { a := 0, x := 0, y := 0, sp := 0xFD, pc :=
      match s.build.resetPc with
      | .vector => word16 (readValue s 0xFFFD) (readValue s 0xFFFC)
      | .forceC000 => 0xC000 }

/-- The invariant holds at reset: of `State.reset`, and of any well-formed cartridge, build and RAM contents after
power-on and `Cpu.reset` (10_state.md R46, R26). The power-on values are the spec's decision D17 (log 5). -/
def Obligations.InvAtReset : Prop :=
  State.reset.Inv ∧ ∀ (cart : Cartridge) (build : Build) (ram : Memory), cart.Sound → Memory.ok ram 0x800 →
    (hostAct .reset (powerOn cart build ram)).Inv

/-- Every step keeps the invariant (10_state.md R26, R36, R40, R42; 60_exceptions.md R282, R310, R316; the canonical form of
the memories is the model's, log 2). It rests on the spec's decisions D14, D19, D25, D26, D27 and D29. -/
def Obligations.InvKeptByStep : Prop :=
  ∀ s t : State, s.Inv → step s = .next t → t.Inv

/-- 60_exceptions.md R325, R317, R281: what each host action does, and that it keeps the invariant. That the actions fall between
steps is the spec's decision D37; that they are not part of `step`, the model's (log 17). -/
def Obligations.HostActions : Prop :=
  ∀ (s : State) (bit : Fin 8) (k : Nat), k < 8 →
    hostAct .takeFrameReady s = { s with frameReady := false } ∧
    (∃ b : Byte, hostAct (.press1 bit) s = { s with joy1 := { s.joy1 with b := b } } ∧
      b.getLsbD k = if k = bit then true else s.joy1.b.getLsbD k) ∧
    (∃ b : Byte, hostAct (.release1 bit) s = { s with joy1 := { s.joy1 with b := b } } ∧
      b.getLsbD k = if k = bit then false else s.joy1.b.getLsbD k) ∧
    (∃ b : Byte, hostAct (.press2 bit) s = { s with joy2 := { s.joy2 with b := b } } ∧
      b.getLsbD k = if k = bit then true else s.joy2.b.getLsbD k) ∧
    (∃ b : Byte, hostAct (.release2 bit) s = { s with joy2 := { s.joy2 with b := b } } ∧
      b.getLsbD k = if k = bit then false else s.joy2.b.getLsbD k) ∧
    (s.Inv → ∀ h, (hostAct h s).Inv)
end

