-- ==== Sys2Proof/Laws/Bits.lean ====
section
/-! SUPPORT. Bits of P, and the two bytes of a word. -/

namespace Sys2Proof

@[simp] theorem toNat_word16 (hi lo : Byte) : (word16 hi lo).toNat = hi.toNat * 256 + lo.toNat := by
  unfold word16
  rw [BitVec.toNat_append, ← Nat.shiftLeft_add_eq_or_of_lt lo.isLt, Nat.shiftLeft_eq]

@[simp] theorem toNat_loByte (w : Addr) : (loByte w).toNat = w.toNat % 256 := by simp [loByte]

@[simp] theorem toNat_hiByte (w : Addr) : (hiByte w).toNat = w.toNat / 256 := by
  have := w.isLt
  simp only [hiByte, BitVec.toNat_setWidth, BitVec.toNat_ushiftRight, Nat.shiftRight_eq_div_pow]
  omega

@[simp] theorem loByte_word16 (hi lo : Byte) : loByte (word16 hi lo) = lo := by
  have := lo.isLt
  apply BitVec.eq_of_toNat_eq; simp; omega

@[simp] theorem hiByte_word16 (hi lo : Byte) : hiByte (word16 hi lo) = hi := by
  have := lo.isLt
  apply BitVec.eq_of_toNat_eq; simp; omega

@[simp] theorem word16_bytes (w : Addr) : word16 (hiByte w) (loByte w) = w := by
  apply BitVec.eq_of_toNat_eq; simp; omega

theorem word16_inj {h l h' l' : Byte} : word16 h l = word16 h' l' ↔ h = h' ∧ l = l' :=
  ⟨fun e => ⟨by simpa using congrArg hiByte e, by simpa using congrArg loByte e⟩, fun ⟨a, b⟩ => by rw [a, b]⟩

theorem getLsbD_word16 (hi lo : Byte) (i : Nat) :
    (word16 hi lo).getLsbD i = if i < 8 then lo.getLsbD i else hi.getLsbD (i - 8) := by
  unfold word16
  rw [BitVec.getLsbD_append]

theorem getLsbD_loByte (w : Addr) (i : Nat) : (loByte w).getLsbD i = (decide (i < 8) && w.getLsbD i) := by
  simp only [loByte, BitVec.getLsbD_setWidth]

theorem getLsbD_hiByte (w : Addr) (i : Nat) : (hiByte w).getLsbD i = (decide (i < 8) && w.getLsbD (8 + i)) := by
  simp only [hiByte, BitVec.getLsbD_setWidth, BitVec.getLsbD_ushiftRight]

/-- The page of an address, and its offset in the page (00_scope.md R11). -/
theorem and_page (w : Addr) : w &&& 0xFF00 = word16 (hiByte w) 0 := by
  apply BitVec.eq_of_getLsbD_eq
  intro i hi
  rw [getLsbD_word16, getLsbD_hiByte, BitVec.getLsbD_and]
  interval_cases i <;> simp

theorem and_offset (w : Addr) : w &&& 0x00FF = word16 0 (loByte w) := by
  apply BitVec.eq_of_getLsbD_eq
  intro i hi
  rw [getLsbD_word16, getLsbD_loByte, BitVec.getLsbD_and]
  interval_cases i <;> simp

theorem word16_or (h l : Byte) : word16 h 0 ||| word16 0 l = word16 h l := by
  apply BitVec.eq_of_getLsbD_eq
  intro i hi
  rw [BitVec.getLsbD_or, getLsbD_word16, getLsbD_word16, getLsbD_word16]
  split <;> simp

namespace Machine

theorem getLsbD_withBit (i j : Nat) (b : Bool) (p : Byte) (hi : i < 8) :
    (withBit i b p).getLsbD j = if j = i then b else p.getLsbD j := by
  unfold withBit
  by_cases hj : j < 8
  · split <;> simp [hj] <;> by_cases h : j = i <;> simp_all <;> omega
  · have : j ≠ i := by omega
    rw [if_neg this, BitVec.getLsbD_of_ge _ _ (by omega), BitVec.getLsbD_of_ge _ _ (by omega)]

theorem withBit_self (i : Nat) (p : Byte) (hi : i < 8) : withBit i (p.getLsbD i) p = p := by
  ext j hj
  rw [← BitVec.getLsbD_eq_getElem, getLsbD_withBit _ _ _ _ hi, ← BitVec.getLsbD_eq_getElem]
  split <;> simp_all

end Machine
end Sys2Proof
end

