-- ==== Sys2Proof/Laws/Memory.lean ====
section
/-! SUPPORT. The laws of one memory: read after write, the canonical form kept, and equal contents are equal lists. -/

namespace Sys2Proof.Machine

@[simp] theorem Memory.wf_nil : Memory.wf [] = true := rfl

theorem Memory.wf_cons {c : Host.Cell} {m : Memory} :
    Memory.wf (c :: m) = true ↔ c.2 ≠ Memory.unlisted ∧ (∀ d ∈ m, c.1 < d.1) ∧ Memory.wf m = true := by
  simp [Memory.wf, and_assoc]

@[simp] theorem Memory.within_nil (n : Nat) : Memory.within [] n = true := rfl

theorem Memory.within_iff {m : Memory} {n : Nat} : Memory.within m n = true ↔ ∀ c ∈ m, c.1 < n := by
  simp [Memory.within]

@[simp] theorem memGet_nil (k : Nat) : memGet [] k = Memory.unlisted := rfl

theorem memGet_cons (c : Host.Cell) (m : Memory) (k : Nat) :
    memGet (c :: m) k = if c.1 = k then c.2 else memGet m k := rfl

/-- An index below every listed one reads the unlisted value. -/
theorem memGet_of_lt {m : Memory} {k : Nat} (h : ∀ d ∈ m, k < d.1) : memGet m k = Memory.unlisted := by
  induction m with
  | nil => rfl
  | cons c m ih =>
    have hc := h c (by simp)
    rw [memGet_cons, if_neg (by omega)]
    exact ih fun d hd => h d (by simp [hd])

/-- A write is read back. -/
theorem memGet_memSet_self (m : Memory) (k : Nat) (d : Byte) (h : Memory.wf m = true) : memGet (memSet m k d) k = d := by
  induction m with
  | nil => unfold memSet; split <;> simp_all [memGet]
  | cons c m ih =>
    obtain ⟨_, hlt, hm⟩ := Memory.wf_cons.1 h
    unfold memSet
    split
    · rename_i hk
      split
      · rename_i hd
        rw [hd, memGet_cons, if_neg (by omega)]
        exact memGet_of_lt fun e he => Nat.lt_trans hk (hlt e he)
      · simp [memGet]
    · split
      · rename_i hk
        split
        · rename_i hd
          rw [hd, hk]
          exact memGet_of_lt hlt
        · simp [memGet]
      · rw [memGet_cons, if_neg (by omega)]
        exact ih hm

/-- A write leaves every other index alone. -/
theorem memGet_memSet_of_ne (m : Memory) {j k : Nat} (d : Byte) (hjk : j ≠ k) : memGet (memSet m k d) j = memGet m j := by
  induction m with
  | nil => unfold memSet; split <;> simp [memGet]; omega
  | cons c m ih =>
    unfold memSet
    split
    · split
      · rfl
      · rw [memGet_cons, if_neg (by omega)]
    · split
      · rename_i hk
        split
        · rw [memGet_cons, if_neg (by omega)]
        · rw [memGet_cons, memGet_cons, if_neg (by omega), if_neg (by omega)]
      · rw [memGet_cons, memGet_cons, ih]

theorem memGet_memSet (m : Memory) (j k : Nat) (d : Byte) (h : Memory.wf m = true) :
    memGet (memSet m k d) j = if j = k then d else memGet m j := by
  split
  · rename_i e; rw [e, memGet_memSet_self _ _ _ h]
  · rename_i e; exact memGet_memSet_of_ne _ _ e

theorem mem_memSet {m : Memory} {k : Nat} {d : Byte} {e : Host.Cell} (he : e ∈ memSet m k d) : e.1 = k ∨ e ∈ m := by
  induction m with
  | nil => unfold memSet at he; split at he <;> simp_all
  | cons c m ih =>
    unfold memSet at he
    split at he
    · split at he
      · exact .inr he
      · rcases List.mem_cons.1 he with rfl | he
        · exact .inl rfl
        · exact .inr he
    · split at he
      · split at he
        · exact .inr (List.mem_cons_of_mem _ he)
        · rcases List.mem_cons.1 he with rfl | he
          · exact .inl rfl
          · exact .inr (List.mem_cons_of_mem _ he)
      · rcases List.mem_cons.1 he with rfl | he
        · exact .inr (List.mem_cons_self ..)
        · rcases ih he with h | h
          · exact .inl h
          · exact .inr (List.mem_cons_of_mem _ h)

/-- A write keeps the canonical form. -/
theorem memSet_wf {m : Memory} (k : Nat) (d : Byte) (h : Memory.wf m = true) : Memory.wf (memSet m k d) = true := by
  induction m with
  | nil => unfold memSet; split <;> simp_all [Memory.wf]
  | cons c m ih =>
    obtain ⟨hc, hlt, hm⟩ := Memory.wf_cons.1 h
    unfold memSet
    split
    · rename_i hk
      split
      · exact h
      · rename_i hd
        refine Memory.wf_cons.2 ⟨hd, fun e he => ?_, h⟩
        rcases List.mem_cons.1 he with rfl | he
        · exact hk
        · exact Nat.lt_trans hk (hlt e he)
    · split
      · rename_i hk
        split
        · exact hm
        · rename_i hd
          exact Memory.wf_cons.2 ⟨hd, fun e he => hk ▸ hlt e he, hm⟩
      · refine Memory.wf_cons.2 ⟨hc, fun e he => ?_, ih hm⟩
        rcases mem_memSet he with h1 | h1
        · omega
        · exact hlt e h1

/-- A write inside the memory keeps it inside. -/
theorem memSet_within {m : Memory} {n k : Nat} (d : Byte) (hk : k < n) (h : Memory.within m n = true) :
    Memory.within (memSet m k d) n = true := by
  refine Memory.within_iff.2 fun e he => ?_
  rcases mem_memSet he with h1 | h1
  · omega
  · exact Memory.within_iff.1 h e h1

theorem memGet_of_mem {m : Memory} (h : Memory.wf m = true) {c : Host.Cell} (hc : c ∈ m) : memGet m c.1 = c.2 := by
  induction m with
  | nil => simp at hc
  | cons e m ih =>
    obtain ⟨_, hlt, hm⟩ := Memory.wf_cons.1 h
    rcases List.mem_cons.1 hc with rfl | hc
    · simp [memGet]
    · rw [memGet_cons, if_neg (by have := hlt c hc; omega)]
      exact ih hm hc

/-- Two canonical memories with the same bytes are the same list. -/
theorem Memory.ext_of_wf {m n : Memory} (hm : Memory.wf m = true) (hn : Memory.wf n = true)
    (h : ∀ k, memGet m k = memGet n k) : m = n := by
  induction m generalizing n with
  | nil =>
    cases n with
    | nil => rfl
    | cons c n =>
      have := h c.1
      rw [memGet_of_mem hn (List.mem_cons_self ..)] at this
      exact absurd this.symm (Memory.wf_cons.1 hn).1
  | cons c m ih =>
    obtain ⟨hc, hlt, hm'⟩ := Memory.wf_cons.1 hm
    cases n with
    | nil =>
      have := h c.1
      rw [memGet_of_mem hm (List.mem_cons_self ..)] at this
      exact absurd this hc
    | cons e n =>
      obtain ⟨he, hlt', hn'⟩ := Memory.wf_cons.1 hn
      have h1 := h c.1
      have h2 := h e.1
      rw [memGet_of_mem hm (List.mem_cons_self ..), memGet_cons] at h1
      rw [memGet_of_mem hn (List.mem_cons_self ..), memGet_cons] at h2
      have hidx : c.1 = e.1 := by
        by_contra hne
        rw [if_neg (Ne.symm hne)] at h1
        rw [if_neg hne] at h2
        rcases Nat.lt_or_gt_of_ne hne with hl | hl
        · exact hc (h1.trans (memGet_of_lt fun d hd => Nat.lt_trans hl (hlt' d hd)))
        · exact he (h2.symm.trans (memGet_of_lt fun d hd => Nat.lt_trans hl (hlt d hd)))
      rw [if_pos hidx.symm] at h1
      have hce : c = e := Prod.ext hidx h1
      subst hce
      congr 1
      refine ih hm' hn' fun k => ?_
      have hk := h k
      rw [memGet_cons, memGet_cons] at hk
      split at hk
      · rename_i hck
        rw [memGet_of_lt fun d hd => hck ▸ hlt d hd, memGet_of_lt fun d hd => hck ▸ hlt' d hd]
      · exact hk

end Sys2Proof.Machine
end

