-- ==== Sys2Proof/Laws/Ppu.lean ====
section
/-! SUPPORT. What the PPU's ports and its tick keep, the two timed events, and the arithmetic of its position. -/

namespace Sys2Proof.Machine

/-! ## Memories that fit their size -/

theorem Memory.ok_set {m : Memory} {n k : Nat} (d : Byte) (hk : k < n) (h : Memory.ok m n) : Memory.ok (memSet m k d) n :=
  ⟨memSet_wf k d h.1, memSet_within d hk h.2⟩

theorem Memory.ok_nil (n : Nat) : Memory.ok [] n := ⟨rfl, rfl⟩

/-- The mask $2FFF of `NT` drops bit 12 and above, but for bit 13 (20_memory.md R80). -/
theorem vramMask (x : Nat) : x &&& 0x2FFF = 0x2000 * (x.testBit 13).toNat + x % 0x1000 := by
  have h1 : (0x2FFF : Nat) = 2 ^ 13 ||| (2 ^ 12 - 1) := rfl
  have h2 : x % 2 ^ 12 < 2 ^ 13 := Nat.lt_trans (Nat.mod_lt _ (by decide)) (by decide)
  rw [h1, Nat.and_or_distrib_left, Nat.and_two_pow_sub_one_eq_mod, Nat.and_two_pow]
  have := Nat.shiftLeft_add_eq_or_of_lt h2 (x.testBit 13).toNat
  rw [Nat.shiftLeft_eq] at this
  rw [← this]
  omega

/-- The nametable offset `i` of an address in $2000-$3FFF is its low 12 bits (20_memory.md R80). -/
theorem ntOffset {x : Nat} (h : 0x2000 ≤ x) (h' : x < 0x4000) : (x &&& 0x2FFF) - 0x2000 = x % 0x1000 := by
  have : x.testBit 13 = true := by
    rw [Nat.testBit_eq_decide_div_mod_eq]
    have : x / 2 ^ 13 = 1 := by omega
    rw [this]; rfl
  rw [vramMask, this]
  simp

/-! `NT` in the low 12 bits of the address, for each mirroring (20_memory.md R80). -/

theorem ntIndex_horizontal {a : VramAddr} (h : 0x2000 ≤ a.toNat) (h' : a.toNat < 0x4000) :
    ntIndex .horizontal a = if a.toNat % 0x1000 / 0x400 = 0 then a.toNat % 0x1000
      else if a.toNat % 0x1000 / 0x400 = 3 then a.toNat % 0x1000 - 0x800 else a.toNat % 0x1000 - 0x400 := by
  rw [← ntOffset h h']
  unfold ntIndex
  rfl

theorem ntIndex_vertical {a : VramAddr} (h : 0x2000 ≤ a.toNat) (h' : a.toNat < 0x4000) :
    ntIndex .vertical a = if a.toNat % 0x1000 / 0x400 < 2 then a.toNat % 0x1000 else a.toNat % 0x1000 - 0x800 := by
  rw [← ntOffset h h']
  unfold ntIndex
  rfl

theorem ntIndex_fourScreen {a : VramAddr} (h : 0x2000 ≤ a.toNat) (h' : a.toNat < 0x4000) :
    ntIndex .fourScreen a = a.toNat % 0x1000 := by
  rw [← ntOffset h h']
  unfold ntIndex
  rfl

/-- `NT` stays inside vram. -/
theorem ntIndex_lt (m : Mirroring) (a : VramAddr) : ntIndex m a < vramSize m := by
  have : a.toNat &&& 0x2FFF ≤ 0x2FFF := Nat.and_le_right
  unfold ntIndex vramSize
  cases m <;> dsimp only <;> (repeat' split) <;> omega

/-- `PAL` stays inside the palette. -/
theorem palIndex_lt (a : VramAddr) : palIndex a < 32 := by
  unfold palIndex
  dsimp only
  split <;> omega

/-! ## Status bits -/

theorem status_low_and7F {b : Byte} (h : b &&& 0x3F = 0) : (b &&& 0x7F) &&& 0x3F = 0 := by revert b; decide
theorem status_low_and1F {b : Byte} (h : b &&& 0x3F = 0) : (b &&& 0x1F) &&& 0x3F = 0 := by revert b; decide
theorem status_low_or80 {b : Byte} (h : b &&& 0x3F = 0) : (b ||| 0x80) &&& 0x3F = 0 := by revert b; decide
theorem status_low_or40 {b : Byte} (h : b &&& 0x3F = 0) : (b ||| 0x40) &&& 0x3F = 0 := by revert b; decide

/-! ## Every port and every dot keeps what holds of the PPU -/

section
variable {m : Mirroring} {u : Ppu} (h : u.Sound m) (d : Byte)
include h

theorem ppuWriteCtrl_sound : (ppuWriteCtrl d u).Sound m := { h with }
theorem ppuWriteMask_sound : (ppuWriteMask d u).Sound m := { h with }
theorem ppuWriteOamAddr_sound : (ppuWriteOamAddr d u).Sound m := { h with }
theorem ppuWriteOamData_sound : (ppuWriteOamData d u).Sound m :=
  { h with oam := Memory.ok_set d u.oamAddr.isLt h.oam }

theorem ppuWriteAddr_sound : (ppuWriteAddr d u).Sound m := by
  unfold ppuWriteAddr
  split
  · exact { h with }
  · exact { h with }

theorem ppuWriteScroll_sound : (ppuWriteScroll d u).Sound m := by
  unfold ppuWriteScroll
  split
  · exact { h with }
  · exact { h with }

theorem ppuAfterReadStatus_sound : (ppuAfterReadStatus u).Sound m :=
  { h with statusLow := status_low_and7F h.statusLow }

theorem ppuAfterReadData_sound (cart : Cartridge) : (ppuAfterReadData cart u).Sound m := { h with }

theorem ppuAdvance_sound : (ppuAdvance u).Sound m where
  vram := h.vram
  pal := h.pal
  oam := h.oam
  statusLow := h.statusLow
  dot := by
    have := h.dot
    simp only [ppuAdvance]
    split <;> omega
  scanline := by
    have := h.scanline
    simp only [ppuAdvance]
    split
    · split <;> omega
    · exact this

theorem ppuEvents_sound : (ppuEvents u).Sound m where
  vram := h.vram
  pal := h.pal
  oam := h.oam
  statusLow := by
    simp only [ppuEvents]
    split
    · exact status_low_or80 h.statusLow
    · split
      · exact status_low_and1F h.statusLow
      · exact h.statusLow
  dot := h.dot
  scanline := h.scanline

theorem ppuSpriteZero_sound (cart : Cartridge) : (ppuSpriteZero cart u).Sound m where
  vram := h.vram
  pal := h.pal
  oam := h.oam
  statusLow := by
    simp only [ppuSpriteZero]
    split
    · exact status_low_or40 h.statusLow
    · exact h.statusLow
  dot := h.dot
  scanline := h.scanline

end

theorem ppuWriteData_sound {cart : Cartridge} {u : Ppu} (h : u.Sound cart.mirroring) (d : Byte) :
    (ppuWriteData cart d u).Sound cart.mirroring := by
  unfold ppuWriteData
  split
  · exact { h with vram := Memory.ok_set d (ntIndex_lt _ _) h.vram }
  · exact { h with pal := Memory.ok_set d (palIndex_lt _) h.pal }

theorem ppuDot_sound {m : Mirroring} {u : Ppu} (h : u.Sound m) (cart : Cartridge) : (ppuDot cart u).Sound m :=
  ppuSpriteZero_sound (ppuEvents_sound (ppuAdvance_sound h)) cart

theorem ppuTick_sound {m : Mirroring} {u : Ppu} (h : u.Sound m) (cart : Cartridge) (n : Nat) :
    (ppuTick cart n u).Sound m := by
  induction n generalizing u with
  | zero => exact h
  | succ n ih => exact ih (ppuDot_sound h cart)

/-! ## What dots leave alone -/

/-- Everything of the PPU but its position, parity, status, NMI request and the model's draw counter is the same. -/
def SamePorts (u w : Ppu) : Prop :=
  w.vram = u.vram ∧ w.pal = u.pal ∧ w.oam = u.oam ∧ w.ctrl = u.ctrl ∧ w.mask = u.mask ∧ w.oamAddr = u.oamAddr ∧
    w.v = u.v ∧ w.t = u.t ∧ w.x = u.x ∧ w.w = u.w ∧ w.buf = u.buf

theorem SamePorts.refl (u : Ppu) : SamePorts u u := by simp [SamePorts]

theorem SamePorts.trans {u v w : Ppu} (h : SamePorts u v) (h' : SamePorts v w) : SamePorts u w := by
  simp only [SamePorts] at *
  simp [*]

theorem ppuDot_samePorts (cart : Cartridge) (u : Ppu) : SamePorts u (ppuDot cart u) := SamePorts.refl u

/-- Dots change nothing a port holds (60_exceptions.md R300, R302). -/
theorem ppuTick_samePorts (cart : Cartridge) (n : Nat) (u : Ppu) : SamePorts u (ppuTick cart n u) := by
  induction n generalizing u with
  | zero => exact SamePorts.refl u
  | succ n ih => exact (ppuDot_samePorts cart u).trans (ih _)

@[simp] theorem ppuTick_zero (cart : Cartridge) (u : Ppu) : ppuTick cart 0 u = u := rfl

theorem ppuTick_succ (cart : Cartridge) (n : Nat) (u : Ppu) :
    ppuTick cart (n + 1) u = ppuTick cart n (ppuDot cart u) := rfl

/-- A tick is its first dots, then the rest (60_exceptions.md R300: one at a time). -/
theorem ppuTick_add (cart : Cartridge) (m n : Nat) (u : Ppu) :
    ppuTick cart (m + n) u = ppuTick cart n (ppuTick cart m u) := by
  induction m generalizing u with
  | zero => simp
  | succ m ih => rw [Nat.succ_add, ppuTick_succ, ih, ppuTick_succ]

/-! ## The position -/

/-- The position as one number, 0 to 89341. -/
def ppuPosition (u : Ppu) : Nat := u.scanline * 341 + u.dot

theorem ppuAdvance_position {u : Ppu} (hd : u.dot < 341) (hs : u.scanline < 262) :
    ppuPosition (ppuAdvance u) = (ppuPosition u + 1) % 89342 := by
  simp only [ppuPosition, ppuAdvance]
  split
  · split <;> omega
  · omega

theorem ppuDot_dot (cart : Cartridge) (u : Ppu) : (ppuDot cart u).dot = (ppuAdvance u).dot := rfl
theorem ppuDot_scanline (cart : Cartridge) (u : Ppu) : (ppuDot cart u).scanline = (ppuAdvance u).scanline := rfl
theorem ppuDot_position (cart : Cartridge) (u : Ppu) : ppuPosition (ppuDot cart u) = ppuPosition (ppuAdvance u) := rfl

/-- `n` dots move the position by `n` modulo the 89342 dots of a frame (60_exceptions.md R285, R300). -/
theorem ppuTick_position (cart : Cartridge) (n : Nat) {m : Mirroring} {u : Ppu} (h : u.Sound m) :
    ppuPosition (ppuTick cart n u) = (ppuPosition u + n) % 89342 := by
  induction n generalizing u with
  | zero =>
    have := h.dot
    have := h.scanline
    simp only [ppuTick_zero, ppuPosition]
    omega
  | succ n ih =>
    rw [ppuTick_succ, ih (ppuDot_sound h cart), ppuDot_position, ppuAdvance_position h.dot h.scanline]
    omega

end Sys2Proof.Machine
end

