-- ==== Sys2Proof/Laws/State.lean ====
section
/-! SUPPORT. One lemma per field per update of State, so that no proof unfolds a record update; then the fields each shared operation keeps. -/

namespace Sys2Proof.Machine

variable (s : State)

section
variable (v : Byte)
@[simp] theorem State.setA_a : (s.setA v).a = v := rfl
@[simp] theorem State.setA_x : (s.setA v).x = s.x := rfl
@[simp] theorem State.setA_y : (s.setA v).y = s.y := rfl
@[simp] theorem State.setA_sp : (s.setA v).sp = s.sp := rfl
@[simp] theorem State.setA_p : (s.setA v).p = s.p := rfl
@[simp] theorem State.setA_pc : (s.setA v).pc = s.pc := rfl
@[simp] theorem State.setA_ram : (s.setA v).ram = s.ram := rfl
@[simp] theorem State.setA_cycles : (s.setA v).cycles = s.cycles := rfl
@[simp] theorem State.setA_frameReady : (s.setA v).frameReady = s.frameReady := rfl
@[simp] theorem State.setA_pendingNmi : (s.setA v).pendingNmi = s.pendingNmi := rfl
@[simp] theorem State.setA_dmaStall : (s.setA v).dmaStall = s.dmaStall := rfl
@[simp] theorem State.setA_ppu : (s.setA v).ppu = s.ppu := rfl
@[simp] theorem State.setA_joy1 : (s.setA v).joy1 = s.joy1 := rfl
@[simp] theorem State.setA_joy2 : (s.setA v).joy2 = s.joy2 := rfl
@[simp] theorem State.setA_cart : (s.setA v).cart = s.cart := rfl
@[simp] theorem State.setA_build : (s.setA v).build = s.build := rfl
@[simp] theorem State.setA_halted : (s.setA v).halted = s.halted := rfl
end

section
variable (v : Byte)
@[simp] theorem State.setX_a : (s.setX v).a = s.a := rfl
@[simp] theorem State.setX_x : (s.setX v).x = v := rfl
@[simp] theorem State.setX_y : (s.setX v).y = s.y := rfl
@[simp] theorem State.setX_sp : (s.setX v).sp = s.sp := rfl
@[simp] theorem State.setX_p : (s.setX v).p = s.p := rfl
@[simp] theorem State.setX_pc : (s.setX v).pc = s.pc := rfl
@[simp] theorem State.setX_ram : (s.setX v).ram = s.ram := rfl
@[simp] theorem State.setX_cycles : (s.setX v).cycles = s.cycles := rfl
@[simp] theorem State.setX_frameReady : (s.setX v).frameReady = s.frameReady := rfl
@[simp] theorem State.setX_pendingNmi : (s.setX v).pendingNmi = s.pendingNmi := rfl
@[simp] theorem State.setX_dmaStall : (s.setX v).dmaStall = s.dmaStall := rfl
@[simp] theorem State.setX_ppu : (s.setX v).ppu = s.ppu := rfl
@[simp] theorem State.setX_joy1 : (s.setX v).joy1 = s.joy1 := rfl
@[simp] theorem State.setX_joy2 : (s.setX v).joy2 = s.joy2 := rfl
@[simp] theorem State.setX_cart : (s.setX v).cart = s.cart := rfl
@[simp] theorem State.setX_build : (s.setX v).build = s.build := rfl
@[simp] theorem State.setX_halted : (s.setX v).halted = s.halted := rfl
end

section
variable (v : Byte)
@[simp] theorem State.setY_a : (s.setY v).a = s.a := rfl
@[simp] theorem State.setY_x : (s.setY v).x = s.x := rfl
@[simp] theorem State.setY_y : (s.setY v).y = v := rfl
@[simp] theorem State.setY_sp : (s.setY v).sp = s.sp := rfl
@[simp] theorem State.setY_p : (s.setY v).p = s.p := rfl
@[simp] theorem State.setY_pc : (s.setY v).pc = s.pc := rfl
@[simp] theorem State.setY_ram : (s.setY v).ram = s.ram := rfl
@[simp] theorem State.setY_cycles : (s.setY v).cycles = s.cycles := rfl
@[simp] theorem State.setY_frameReady : (s.setY v).frameReady = s.frameReady := rfl
@[simp] theorem State.setY_pendingNmi : (s.setY v).pendingNmi = s.pendingNmi := rfl
@[simp] theorem State.setY_dmaStall : (s.setY v).dmaStall = s.dmaStall := rfl
@[simp] theorem State.setY_ppu : (s.setY v).ppu = s.ppu := rfl
@[simp] theorem State.setY_joy1 : (s.setY v).joy1 = s.joy1 := rfl
@[simp] theorem State.setY_joy2 : (s.setY v).joy2 = s.joy2 := rfl
@[simp] theorem State.setY_cart : (s.setY v).cart = s.cart := rfl
@[simp] theorem State.setY_build : (s.setY v).build = s.build := rfl
@[simp] theorem State.setY_halted : (s.setY v).halted = s.halted := rfl
end

section
variable (v : Byte)
@[simp] theorem State.setSp_a : (s.setSp v).a = s.a := rfl
@[simp] theorem State.setSp_x : (s.setSp v).x = s.x := rfl
@[simp] theorem State.setSp_y : (s.setSp v).y = s.y := rfl
@[simp] theorem State.setSp_sp : (s.setSp v).sp = v := rfl
@[simp] theorem State.setSp_p : (s.setSp v).p = s.p := rfl
@[simp] theorem State.setSp_pc : (s.setSp v).pc = s.pc := rfl
@[simp] theorem State.setSp_ram : (s.setSp v).ram = s.ram := rfl
@[simp] theorem State.setSp_cycles : (s.setSp v).cycles = s.cycles := rfl
@[simp] theorem State.setSp_frameReady : (s.setSp v).frameReady = s.frameReady := rfl
@[simp] theorem State.setSp_pendingNmi : (s.setSp v).pendingNmi = s.pendingNmi := rfl
@[simp] theorem State.setSp_dmaStall : (s.setSp v).dmaStall = s.dmaStall := rfl
@[simp] theorem State.setSp_ppu : (s.setSp v).ppu = s.ppu := rfl
@[simp] theorem State.setSp_joy1 : (s.setSp v).joy1 = s.joy1 := rfl
@[simp] theorem State.setSp_joy2 : (s.setSp v).joy2 = s.joy2 := rfl
@[simp] theorem State.setSp_cart : (s.setSp v).cart = s.cart := rfl
@[simp] theorem State.setSp_build : (s.setSp v).build = s.build := rfl
@[simp] theorem State.setSp_halted : (s.setSp v).halted = s.halted := rfl
end

section
variable (v : Byte)
@[simp] theorem State.setP_a : (s.setP v).a = s.a := rfl
@[simp] theorem State.setP_x : (s.setP v).x = s.x := rfl
@[simp] theorem State.setP_y : (s.setP v).y = s.y := rfl
@[simp] theorem State.setP_sp : (s.setP v).sp = s.sp := rfl
@[simp] theorem State.setP_p : (s.setP v).p = v := rfl
@[simp] theorem State.setP_pc : (s.setP v).pc = s.pc := rfl
@[simp] theorem State.setP_ram : (s.setP v).ram = s.ram := rfl
@[simp] theorem State.setP_cycles : (s.setP v).cycles = s.cycles := rfl
@[simp] theorem State.setP_frameReady : (s.setP v).frameReady = s.frameReady := rfl
@[simp] theorem State.setP_pendingNmi : (s.setP v).pendingNmi = s.pendingNmi := rfl
@[simp] theorem State.setP_dmaStall : (s.setP v).dmaStall = s.dmaStall := rfl
@[simp] theorem State.setP_ppu : (s.setP v).ppu = s.ppu := rfl
@[simp] theorem State.setP_joy1 : (s.setP v).joy1 = s.joy1 := rfl
@[simp] theorem State.setP_joy2 : (s.setP v).joy2 = s.joy2 := rfl
@[simp] theorem State.setP_cart : (s.setP v).cart = s.cart := rfl
@[simp] theorem State.setP_build : (s.setP v).build = s.build := rfl
@[simp] theorem State.setP_halted : (s.setP v).halted = s.halted := rfl
end

section
variable (v : Addr)
@[simp] theorem State.setPc_a : (s.setPc v).a = s.a := rfl
@[simp] theorem State.setPc_x : (s.setPc v).x = s.x := rfl
@[simp] theorem State.setPc_y : (s.setPc v).y = s.y := rfl
@[simp] theorem State.setPc_sp : (s.setPc v).sp = s.sp := rfl
@[simp] theorem State.setPc_p : (s.setPc v).p = s.p := rfl
@[simp] theorem State.setPc_pc : (s.setPc v).pc = v := rfl
@[simp] theorem State.setPc_ram : (s.setPc v).ram = s.ram := rfl
@[simp] theorem State.setPc_cycles : (s.setPc v).cycles = s.cycles := rfl
@[simp] theorem State.setPc_frameReady : (s.setPc v).frameReady = s.frameReady := rfl
@[simp] theorem State.setPc_pendingNmi : (s.setPc v).pendingNmi = s.pendingNmi := rfl
@[simp] theorem State.setPc_dmaStall : (s.setPc v).dmaStall = s.dmaStall := rfl
@[simp] theorem State.setPc_ppu : (s.setPc v).ppu = s.ppu := rfl
@[simp] theorem State.setPc_joy1 : (s.setPc v).joy1 = s.joy1 := rfl
@[simp] theorem State.setPc_joy2 : (s.setPc v).joy2 = s.joy2 := rfl
@[simp] theorem State.setPc_cart : (s.setPc v).cart = s.cart := rfl
@[simp] theorem State.setPc_build : (s.setPc v).build = s.build := rfl
@[simp] theorem State.setPc_halted : (s.setPc v).halted = s.halted := rfl
end

section
variable (v : Memory)
@[simp] theorem State.setRam_a : (s.setRam v).a = s.a := rfl
@[simp] theorem State.setRam_x : (s.setRam v).x = s.x := rfl
@[simp] theorem State.setRam_y : (s.setRam v).y = s.y := rfl
@[simp] theorem State.setRam_sp : (s.setRam v).sp = s.sp := rfl
@[simp] theorem State.setRam_p : (s.setRam v).p = s.p := rfl
@[simp] theorem State.setRam_pc : (s.setRam v).pc = s.pc := rfl
@[simp] theorem State.setRam_ram : (s.setRam v).ram = v := rfl
@[simp] theorem State.setRam_cycles : (s.setRam v).cycles = s.cycles := rfl
@[simp] theorem State.setRam_frameReady : (s.setRam v).frameReady = s.frameReady := rfl
@[simp] theorem State.setRam_pendingNmi : (s.setRam v).pendingNmi = s.pendingNmi := rfl
@[simp] theorem State.setRam_dmaStall : (s.setRam v).dmaStall = s.dmaStall := rfl
@[simp] theorem State.setRam_ppu : (s.setRam v).ppu = s.ppu := rfl
@[simp] theorem State.setRam_joy1 : (s.setRam v).joy1 = s.joy1 := rfl
@[simp] theorem State.setRam_joy2 : (s.setRam v).joy2 = s.joy2 := rfl
@[simp] theorem State.setRam_cart : (s.setRam v).cart = s.cart := rfl
@[simp] theorem State.setRam_build : (s.setRam v).build = s.build := rfl
@[simp] theorem State.setRam_halted : (s.setRam v).halted = s.halted := rfl
end

section
variable (v : Nat)
@[simp] theorem State.setDmaStall_a : (s.setDmaStall v).a = s.a := rfl
@[simp] theorem State.setDmaStall_x : (s.setDmaStall v).x = s.x := rfl
@[simp] theorem State.setDmaStall_y : (s.setDmaStall v).y = s.y := rfl
@[simp] theorem State.setDmaStall_sp : (s.setDmaStall v).sp = s.sp := rfl
@[simp] theorem State.setDmaStall_p : (s.setDmaStall v).p = s.p := rfl
@[simp] theorem State.setDmaStall_pc : (s.setDmaStall v).pc = s.pc := rfl
@[simp] theorem State.setDmaStall_ram : (s.setDmaStall v).ram = s.ram := rfl
@[simp] theorem State.setDmaStall_cycles : (s.setDmaStall v).cycles = s.cycles := rfl
@[simp] theorem State.setDmaStall_frameReady : (s.setDmaStall v).frameReady = s.frameReady := rfl
@[simp] theorem State.setDmaStall_pendingNmi : (s.setDmaStall v).pendingNmi = s.pendingNmi := rfl
@[simp] theorem State.setDmaStall_dmaStall : (s.setDmaStall v).dmaStall = v := rfl
@[simp] theorem State.setDmaStall_ppu : (s.setDmaStall v).ppu = s.ppu := rfl
@[simp] theorem State.setDmaStall_joy1 : (s.setDmaStall v).joy1 = s.joy1 := rfl
@[simp] theorem State.setDmaStall_joy2 : (s.setDmaStall v).joy2 = s.joy2 := rfl
@[simp] theorem State.setDmaStall_cart : (s.setDmaStall v).cart = s.cart := rfl
@[simp] theorem State.setDmaStall_build : (s.setDmaStall v).build = s.build := rfl
@[simp] theorem State.setDmaStall_halted : (s.setDmaStall v).halted = s.halted := rfl
end

section
variable (v : Bool)
@[simp] theorem State.setPendingNmi_a : (s.setPendingNmi v).a = s.a := rfl
@[simp] theorem State.setPendingNmi_x : (s.setPendingNmi v).x = s.x := rfl
@[simp] theorem State.setPendingNmi_y : (s.setPendingNmi v).y = s.y := rfl
@[simp] theorem State.setPendingNmi_sp : (s.setPendingNmi v).sp = s.sp := rfl
@[simp] theorem State.setPendingNmi_p : (s.setPendingNmi v).p = s.p := rfl
@[simp] theorem State.setPendingNmi_pc : (s.setPendingNmi v).pc = s.pc := rfl
@[simp] theorem State.setPendingNmi_ram : (s.setPendingNmi v).ram = s.ram := rfl
@[simp] theorem State.setPendingNmi_cycles : (s.setPendingNmi v).cycles = s.cycles := rfl
@[simp] theorem State.setPendingNmi_frameReady : (s.setPendingNmi v).frameReady = s.frameReady := rfl
@[simp] theorem State.setPendingNmi_pendingNmi : (s.setPendingNmi v).pendingNmi = v := rfl
@[simp] theorem State.setPendingNmi_dmaStall : (s.setPendingNmi v).dmaStall = s.dmaStall := rfl
@[simp] theorem State.setPendingNmi_ppu : (s.setPendingNmi v).ppu = s.ppu := rfl
@[simp] theorem State.setPendingNmi_joy1 : (s.setPendingNmi v).joy1 = s.joy1 := rfl
@[simp] theorem State.setPendingNmi_joy2 : (s.setPendingNmi v).joy2 = s.joy2 := rfl
@[simp] theorem State.setPendingNmi_cart : (s.setPendingNmi v).cart = s.cart := rfl
@[simp] theorem State.setPendingNmi_build : (s.setPendingNmi v).build = s.build := rfl
@[simp] theorem State.setPendingNmi_halted : (s.setPendingNmi v).halted = s.halted := rfl
end

section
variable (v : Bool)
@[simp] theorem State.setFrameReady_a : (s.setFrameReady v).a = s.a := rfl
@[simp] theorem State.setFrameReady_x : (s.setFrameReady v).x = s.x := rfl
@[simp] theorem State.setFrameReady_y : (s.setFrameReady v).y = s.y := rfl
@[simp] theorem State.setFrameReady_sp : (s.setFrameReady v).sp = s.sp := rfl
@[simp] theorem State.setFrameReady_p : (s.setFrameReady v).p = s.p := rfl
@[simp] theorem State.setFrameReady_pc : (s.setFrameReady v).pc = s.pc := rfl
@[simp] theorem State.setFrameReady_ram : (s.setFrameReady v).ram = s.ram := rfl
@[simp] theorem State.setFrameReady_cycles : (s.setFrameReady v).cycles = s.cycles := rfl
@[simp] theorem State.setFrameReady_frameReady : (s.setFrameReady v).frameReady = v := rfl
@[simp] theorem State.setFrameReady_pendingNmi : (s.setFrameReady v).pendingNmi = s.pendingNmi := rfl
@[simp] theorem State.setFrameReady_dmaStall : (s.setFrameReady v).dmaStall = s.dmaStall := rfl
@[simp] theorem State.setFrameReady_ppu : (s.setFrameReady v).ppu = s.ppu := rfl
@[simp] theorem State.setFrameReady_joy1 : (s.setFrameReady v).joy1 = s.joy1 := rfl
@[simp] theorem State.setFrameReady_joy2 : (s.setFrameReady v).joy2 = s.joy2 := rfl
@[simp] theorem State.setFrameReady_cart : (s.setFrameReady v).cart = s.cart := rfl
@[simp] theorem State.setFrameReady_build : (s.setFrameReady v).build = s.build := rfl
@[simp] theorem State.setFrameReady_halted : (s.setFrameReady v).halted = s.halted := rfl
end

section
variable (v : Ppu)
@[simp] theorem State.setPpu_a : (s.setPpu v).a = s.a := rfl
@[simp] theorem State.setPpu_x : (s.setPpu v).x = s.x := rfl
@[simp] theorem State.setPpu_y : (s.setPpu v).y = s.y := rfl
@[simp] theorem State.setPpu_sp : (s.setPpu v).sp = s.sp := rfl
@[simp] theorem State.setPpu_p : (s.setPpu v).p = s.p := rfl
@[simp] theorem State.setPpu_pc : (s.setPpu v).pc = s.pc := rfl
@[simp] theorem State.setPpu_ram : (s.setPpu v).ram = s.ram := rfl
@[simp] theorem State.setPpu_cycles : (s.setPpu v).cycles = s.cycles := rfl
@[simp] theorem State.setPpu_frameReady : (s.setPpu v).frameReady = s.frameReady := rfl
@[simp] theorem State.setPpu_pendingNmi : (s.setPpu v).pendingNmi = s.pendingNmi := rfl
@[simp] theorem State.setPpu_dmaStall : (s.setPpu v).dmaStall = s.dmaStall := rfl
@[simp] theorem State.setPpu_ppu : (s.setPpu v).ppu = v := rfl
@[simp] theorem State.setPpu_joy1 : (s.setPpu v).joy1 = s.joy1 := rfl
@[simp] theorem State.setPpu_joy2 : (s.setPpu v).joy2 = s.joy2 := rfl
@[simp] theorem State.setPpu_cart : (s.setPpu v).cart = s.cart := rfl
@[simp] theorem State.setPpu_build : (s.setPpu v).build = s.build := rfl
@[simp] theorem State.setPpu_halted : (s.setPpu v).halted = s.halted := rfl
end

section
variable (v : Joypad)
@[simp] theorem State.setJoy1_a : (s.setJoy1 v).a = s.a := rfl
@[simp] theorem State.setJoy1_x : (s.setJoy1 v).x = s.x := rfl
@[simp] theorem State.setJoy1_y : (s.setJoy1 v).y = s.y := rfl
@[simp] theorem State.setJoy1_sp : (s.setJoy1 v).sp = s.sp := rfl
@[simp] theorem State.setJoy1_p : (s.setJoy1 v).p = s.p := rfl
@[simp] theorem State.setJoy1_pc : (s.setJoy1 v).pc = s.pc := rfl
@[simp] theorem State.setJoy1_ram : (s.setJoy1 v).ram = s.ram := rfl
@[simp] theorem State.setJoy1_cycles : (s.setJoy1 v).cycles = s.cycles := rfl
@[simp] theorem State.setJoy1_frameReady : (s.setJoy1 v).frameReady = s.frameReady := rfl
@[simp] theorem State.setJoy1_pendingNmi : (s.setJoy1 v).pendingNmi = s.pendingNmi := rfl
@[simp] theorem State.setJoy1_dmaStall : (s.setJoy1 v).dmaStall = s.dmaStall := rfl
@[simp] theorem State.setJoy1_ppu : (s.setJoy1 v).ppu = s.ppu := rfl
@[simp] theorem State.setJoy1_joy1 : (s.setJoy1 v).joy1 = v := rfl
@[simp] theorem State.setJoy1_joy2 : (s.setJoy1 v).joy2 = s.joy2 := rfl
@[simp] theorem State.setJoy1_cart : (s.setJoy1 v).cart = s.cart := rfl
@[simp] theorem State.setJoy1_build : (s.setJoy1 v).build = s.build := rfl
@[simp] theorem State.setJoy1_halted : (s.setJoy1 v).halted = s.halted := rfl
end

section
variable (v : Joypad)
@[simp] theorem State.setJoy2_a : (s.setJoy2 v).a = s.a := rfl
@[simp] theorem State.setJoy2_x : (s.setJoy2 v).x = s.x := rfl
@[simp] theorem State.setJoy2_y : (s.setJoy2 v).y = s.y := rfl
@[simp] theorem State.setJoy2_sp : (s.setJoy2 v).sp = s.sp := rfl
@[simp] theorem State.setJoy2_p : (s.setJoy2 v).p = s.p := rfl
@[simp] theorem State.setJoy2_pc : (s.setJoy2 v).pc = s.pc := rfl
@[simp] theorem State.setJoy2_ram : (s.setJoy2 v).ram = s.ram := rfl
@[simp] theorem State.setJoy2_cycles : (s.setJoy2 v).cycles = s.cycles := rfl
@[simp] theorem State.setJoy2_frameReady : (s.setJoy2 v).frameReady = s.frameReady := rfl
@[simp] theorem State.setJoy2_pendingNmi : (s.setJoy2 v).pendingNmi = s.pendingNmi := rfl
@[simp] theorem State.setJoy2_dmaStall : (s.setJoy2 v).dmaStall = s.dmaStall := rfl
@[simp] theorem State.setJoy2_ppu : (s.setJoy2 v).ppu = s.ppu := rfl
@[simp] theorem State.setJoy2_joy1 : (s.setJoy2 v).joy1 = s.joy1 := rfl
@[simp] theorem State.setJoy2_joy2 : (s.setJoy2 v).joy2 = v := rfl
@[simp] theorem State.setJoy2_cart : (s.setJoy2 v).cart = s.cart := rfl
@[simp] theorem State.setJoy2_build : (s.setJoy2 v).build = s.build := rfl
@[simp] theorem State.setJoy2_halted : (s.setJoy2 v).halted = s.halted := rfl
end

section
variable (v : Cartridge)
@[simp] theorem State.setCart_a : (s.setCart v).a = s.a := rfl
@[simp] theorem State.setCart_x : (s.setCart v).x = s.x := rfl
@[simp] theorem State.setCart_y : (s.setCart v).y = s.y := rfl
@[simp] theorem State.setCart_sp : (s.setCart v).sp = s.sp := rfl
@[simp] theorem State.setCart_p : (s.setCart v).p = s.p := rfl
@[simp] theorem State.setCart_pc : (s.setCart v).pc = s.pc := rfl
@[simp] theorem State.setCart_ram : (s.setCart v).ram = s.ram := rfl
@[simp] theorem State.setCart_cycles : (s.setCart v).cycles = s.cycles := rfl
@[simp] theorem State.setCart_frameReady : (s.setCart v).frameReady = s.frameReady := rfl
@[simp] theorem State.setCart_pendingNmi : (s.setCart v).pendingNmi = s.pendingNmi := rfl
@[simp] theorem State.setCart_dmaStall : (s.setCart v).dmaStall = s.dmaStall := rfl
@[simp] theorem State.setCart_ppu : (s.setCart v).ppu = s.ppu := rfl
@[simp] theorem State.setCart_joy1 : (s.setCart v).joy1 = s.joy1 := rfl
@[simp] theorem State.setCart_joy2 : (s.setCart v).joy2 = s.joy2 := rfl
@[simp] theorem State.setCart_cart : (s.setCart v).cart = v := rfl
@[simp] theorem State.setCart_build : (s.setCart v).build = s.build := rfl
@[simp] theorem State.setCart_halted : (s.setCart v).halted = s.halted := rfl
end

section
variable (v : Bool)
@[simp] theorem State.setHalted_a : (s.setHalted v).a = s.a := rfl
@[simp] theorem State.setHalted_x : (s.setHalted v).x = s.x := rfl
@[simp] theorem State.setHalted_y : (s.setHalted v).y = s.y := rfl
@[simp] theorem State.setHalted_sp : (s.setHalted v).sp = s.sp := rfl
@[simp] theorem State.setHalted_p : (s.setHalted v).p = s.p := rfl
@[simp] theorem State.setHalted_pc : (s.setHalted v).pc = s.pc := rfl
@[simp] theorem State.setHalted_ram : (s.setHalted v).ram = s.ram := rfl
@[simp] theorem State.setHalted_cycles : (s.setHalted v).cycles = s.cycles := rfl
@[simp] theorem State.setHalted_frameReady : (s.setHalted v).frameReady = s.frameReady := rfl
@[simp] theorem State.setHalted_pendingNmi : (s.setHalted v).pendingNmi = s.pendingNmi := rfl
@[simp] theorem State.setHalted_dmaStall : (s.setHalted v).dmaStall = s.dmaStall := rfl
@[simp] theorem State.setHalted_ppu : (s.setHalted v).ppu = s.ppu := rfl
@[simp] theorem State.setHalted_joy1 : (s.setHalted v).joy1 = s.joy1 := rfl
@[simp] theorem State.setHalted_joy2 : (s.setHalted v).joy2 = s.joy2 := rfl
@[simp] theorem State.setHalted_cart : (s.setHalted v).cart = s.cart := rfl
@[simp] theorem State.setHalted_build : (s.setHalted v).build = s.build := rfl
@[simp] theorem State.setHalted_halted : (s.setHalted v).halted = v := rfl
end

/-! Storing a byte of RAM changes the RAM only. -/

@[simp] theorem writeRam_a (a : Addr) (d : Byte) : (writeRam a d s).a = s.a := rfl
@[simp] theorem writeRam_x (a : Addr) (d : Byte) : (writeRam a d s).x = s.x := rfl
@[simp] theorem writeRam_y (a : Addr) (d : Byte) : (writeRam a d s).y = s.y := rfl
@[simp] theorem writeRam_sp (a : Addr) (d : Byte) : (writeRam a d s).sp = s.sp := rfl
@[simp] theorem writeRam_p (a : Addr) (d : Byte) : (writeRam a d s).p = s.p := rfl
@[simp] theorem writeRam_pc (a : Addr) (d : Byte) : (writeRam a d s).pc = s.pc := rfl
@[simp] theorem writeRam_cycles (a : Addr) (d : Byte) : (writeRam a d s).cycles = s.cycles := rfl
@[simp] theorem writeRam_frameReady (a : Addr) (d : Byte) : (writeRam a d s).frameReady = s.frameReady := rfl
@[simp] theorem writeRam_pendingNmi (a : Addr) (d : Byte) : (writeRam a d s).pendingNmi = s.pendingNmi := rfl
@[simp] theorem writeRam_dmaStall (a : Addr) (d : Byte) : (writeRam a d s).dmaStall = s.dmaStall := rfl
@[simp] theorem writeRam_ppu (a : Addr) (d : Byte) : (writeRam a d s).ppu = s.ppu := rfl
@[simp] theorem writeRam_joy1 (a : Addr) (d : Byte) : (writeRam a d s).joy1 = s.joy1 := rfl
@[simp] theorem writeRam_joy2 (a : Addr) (d : Byte) : (writeRam a d s).joy2 = s.joy2 := rfl
@[simp] theorem writeRam_cart (a : Addr) (d : Byte) : (writeRam a d s).cart = s.cart := rfl
@[simp] theorem writeRam_build (a : Addr) (d : Byte) : (writeRam a d s).build = s.build := rfl
@[simp] theorem writeRam_halted (a : Addr) (d : Byte) : (writeRam a d s).halted = s.halted := rfl

/-! Pushing and popping change SP, and a push the RAM. -/

@[simp] theorem push8_a (d : Byte) : (push8 d s).a = s.a := rfl
@[simp] theorem push8_x (d : Byte) : (push8 d s).x = s.x := rfl
@[simp] theorem push8_y (d : Byte) : (push8 d s).y = s.y := rfl
@[simp] theorem push8_p (d : Byte) : (push8 d s).p = s.p := rfl
@[simp] theorem push8_pc (d : Byte) : (push8 d s).pc = s.pc := rfl
@[simp] theorem push8_cycles (d : Byte) : (push8 d s).cycles = s.cycles := rfl
@[simp] theorem push8_frameReady (d : Byte) : (push8 d s).frameReady = s.frameReady := rfl
@[simp] theorem push8_pendingNmi (d : Byte) : (push8 d s).pendingNmi = s.pendingNmi := rfl
@[simp] theorem push8_dmaStall (d : Byte) : (push8 d s).dmaStall = s.dmaStall := rfl
@[simp] theorem push8_ppu (d : Byte) : (push8 d s).ppu = s.ppu := rfl
@[simp] theorem push8_joy1 (d : Byte) : (push8 d s).joy1 = s.joy1 := rfl
@[simp] theorem push8_joy2 (d : Byte) : (push8 d s).joy2 = s.joy2 := rfl
@[simp] theorem push8_cart (d : Byte) : (push8 d s).cart = s.cart := rfl
@[simp] theorem push8_build (d : Byte) : (push8 d s).build = s.build := rfl
@[simp] theorem push8_halted (d : Byte) : (push8 d s).halted = s.halted := rfl
@[simp] theorem push8_sp (d : Byte) : (push8 d s).sp = s.sp - 1 := rfl
@[simp] theorem push16_a (w : Addr) : (push16 w s).a = s.a := rfl
@[simp] theorem push16_x (w : Addr) : (push16 w s).x = s.x := rfl
@[simp] theorem push16_y (w : Addr) : (push16 w s).y = s.y := rfl
@[simp] theorem push16_p (w : Addr) : (push16 w s).p = s.p := rfl
@[simp] theorem push16_pc (w : Addr) : (push16 w s).pc = s.pc := rfl
@[simp] theorem push16_cycles (w : Addr) : (push16 w s).cycles = s.cycles := rfl
@[simp] theorem push16_frameReady (w : Addr) : (push16 w s).frameReady = s.frameReady := rfl
@[simp] theorem push16_pendingNmi (w : Addr) : (push16 w s).pendingNmi = s.pendingNmi := rfl
@[simp] theorem push16_dmaStall (w : Addr) : (push16 w s).dmaStall = s.dmaStall := rfl
@[simp] theorem push16_ppu (w : Addr) : (push16 w s).ppu = s.ppu := rfl
@[simp] theorem push16_joy1 (w : Addr) : (push16 w s).joy1 = s.joy1 := rfl
@[simp] theorem push16_joy2 (w : Addr) : (push16 w s).joy2 = s.joy2 := rfl
@[simp] theorem push16_cart (w : Addr) : (push16 w s).cart = s.cart := rfl
@[simp] theorem push16_build (w : Addr) : (push16 w s).build = s.build := rfl
@[simp] theorem push16_halted (w : Addr) : (push16 w s).halted = s.halted := rfl
@[simp] theorem push16_sp (w : Addr) : (push16 w s).sp = s.sp - 1 - 1 := rfl
@[simp] theorem pop8State_a : (pop8State s).a = s.a := rfl
@[simp] theorem pop8State_x : (pop8State s).x = s.x := rfl
@[simp] theorem pop8State_y : (pop8State s).y = s.y := rfl
@[simp] theorem pop8State_p : (pop8State s).p = s.p := rfl
@[simp] theorem pop8State_pc : (pop8State s).pc = s.pc := rfl
@[simp] theorem pop8State_ram : (pop8State s).ram = s.ram := rfl
@[simp] theorem pop8State_cycles : (pop8State s).cycles = s.cycles := rfl
@[simp] theorem pop8State_frameReady : (pop8State s).frameReady = s.frameReady := rfl
@[simp] theorem pop8State_pendingNmi : (pop8State s).pendingNmi = s.pendingNmi := rfl
@[simp] theorem pop8State_dmaStall : (pop8State s).dmaStall = s.dmaStall := rfl
@[simp] theorem pop8State_ppu : (pop8State s).ppu = s.ppu := rfl
@[simp] theorem pop8State_joy1 : (pop8State s).joy1 = s.joy1 := rfl
@[simp] theorem pop8State_joy2 : (pop8State s).joy2 = s.joy2 := rfl
@[simp] theorem pop8State_cart : (pop8State s).cart = s.cart := rfl
@[simp] theorem pop8State_build : (pop8State s).build = s.build := rfl
@[simp] theorem pop8State_halted : (pop8State s).halted = s.halted := rfl
@[simp] theorem pop8State_sp : (pop8State s).sp = s.sp + 1 := rfl
@[simp] theorem pop16State_a : (pop16State s).a = s.a := rfl
@[simp] theorem pop16State_x : (pop16State s).x = s.x := rfl
@[simp] theorem pop16State_y : (pop16State s).y = s.y := rfl
@[simp] theorem pop16State_p : (pop16State s).p = s.p := rfl
@[simp] theorem pop16State_pc : (pop16State s).pc = s.pc := rfl
@[simp] theorem pop16State_ram : (pop16State s).ram = s.ram := rfl
@[simp] theorem pop16State_cycles : (pop16State s).cycles = s.cycles := rfl
@[simp] theorem pop16State_frameReady : (pop16State s).frameReady = s.frameReady := rfl
@[simp] theorem pop16State_pendingNmi : (pop16State s).pendingNmi = s.pendingNmi := rfl
@[simp] theorem pop16State_dmaStall : (pop16State s).dmaStall = s.dmaStall := rfl
@[simp] theorem pop16State_ppu : (pop16State s).ppu = s.ppu := rfl
@[simp] theorem pop16State_joy1 : (pop16State s).joy1 = s.joy1 := rfl
@[simp] theorem pop16State_joy2 : (pop16State s).joy2 = s.joy2 := rfl
@[simp] theorem pop16State_cart : (pop16State s).cart = s.cart := rfl
@[simp] theorem pop16State_build : (pop16State s).build = s.build := rfl
@[simp] theorem pop16State_halted : (pop16State s).halted = s.halted := rfl
@[simp] theorem pop16State_sp : (pop16State s).sp = s.sp + 1 + 1 := rfl

/-! Taking a trap changes RAM, SP and P; returning from one changes P and SP. -/

@[simp] theorem enterTrap_a (r : Addr) (c : Byte) : (enterTrap r c s).a = s.a := rfl
@[simp] theorem enterTrap_x (r : Addr) (c : Byte) : (enterTrap r c s).x = s.x := rfl
@[simp] theorem enterTrap_y (r : Addr) (c : Byte) : (enterTrap r c s).y = s.y := rfl
@[simp] theorem enterTrap_pc (r : Addr) (c : Byte) : (enterTrap r c s).pc = s.pc := rfl
@[simp] theorem enterTrap_cycles (r : Addr) (c : Byte) : (enterTrap r c s).cycles = s.cycles := rfl
@[simp] theorem enterTrap_frameReady (r : Addr) (c : Byte) : (enterTrap r c s).frameReady = s.frameReady := rfl
@[simp] theorem enterTrap_pendingNmi (r : Addr) (c : Byte) : (enterTrap r c s).pendingNmi = s.pendingNmi := rfl
@[simp] theorem enterTrap_dmaStall (r : Addr) (c : Byte) : (enterTrap r c s).dmaStall = s.dmaStall := rfl
@[simp] theorem enterTrap_ppu (r : Addr) (c : Byte) : (enterTrap r c s).ppu = s.ppu := rfl
@[simp] theorem enterTrap_joy1 (r : Addr) (c : Byte) : (enterTrap r c s).joy1 = s.joy1 := rfl
@[simp] theorem enterTrap_joy2 (r : Addr) (c : Byte) : (enterTrap r c s).joy2 = s.joy2 := rfl
@[simp] theorem enterTrap_cart (r : Addr) (c : Byte) : (enterTrap r c s).cart = s.cart := rfl
@[simp] theorem enterTrap_build (r : Addr) (c : Byte) : (enterTrap r c s).build = s.build := rfl
@[simp] theorem enterTrap_halted (r : Addr) (c : Byte) : (enterTrap r c s).halted = s.halted := rfl
@[simp] theorem enterTrap_sp (r : Addr) (c : Byte) : (enterTrap r c s).sp = s.sp - 1 - 1 - 1 := rfl
@[simp] theorem enterTrap_p (r : Addr) (c : Byte) : (enterTrap r c s).p = setI true s.p := rfl
@[simp] theorem leaveTrap_a : (leaveTrap s).a = s.a := rfl
@[simp] theorem leaveTrap_x : (leaveTrap s).x = s.x := rfl
@[simp] theorem leaveTrap_y : (leaveTrap s).y = s.y := rfl
@[simp] theorem leaveTrap_pc : (leaveTrap s).pc = s.pc := rfl
@[simp] theorem leaveTrap_ram : (leaveTrap s).ram = s.ram := rfl
@[simp] theorem leaveTrap_cycles : (leaveTrap s).cycles = s.cycles := rfl
@[simp] theorem leaveTrap_frameReady : (leaveTrap s).frameReady = s.frameReady := rfl
@[simp] theorem leaveTrap_pendingNmi : (leaveTrap s).pendingNmi = s.pendingNmi := rfl
@[simp] theorem leaveTrap_dmaStall : (leaveTrap s).dmaStall = s.dmaStall := rfl
@[simp] theorem leaveTrap_ppu : (leaveTrap s).ppu = s.ppu := rfl
@[simp] theorem leaveTrap_joy1 : (leaveTrap s).joy1 = s.joy1 := rfl
@[simp] theorem leaveTrap_joy2 : (leaveTrap s).joy2 = s.joy2 := rfl
@[simp] theorem leaveTrap_cart : (leaveTrap s).cart = s.cart := rfl
@[simp] theorem leaveTrap_build : (leaveTrap s).build = s.build := rfl
@[simp] theorem leaveTrap_halted : (leaveTrap s).halted = s.halted := rfl
@[simp] theorem leaveTrap_sp : (leaveTrap s).sp = s.sp + 1 + 1 + 1 := rfl
@[simp] theorem leaveTrap_p : (leaveTrap s).p = pulledStatus (pop8Value s) := rfl

/-! The tick changes the Bus counters, the NMI replica and the PPU only. -/

@[simp] theorem busTick_a (c : Nat) : (busTick c s).a = s.a := rfl
@[simp] theorem busTick_x (c : Nat) : (busTick c s).x = s.x := rfl
@[simp] theorem busTick_y (c : Nat) : (busTick c s).y = s.y := rfl
@[simp] theorem busTick_sp (c : Nat) : (busTick c s).sp = s.sp := rfl
@[simp] theorem busTick_p (c : Nat) : (busTick c s).p = s.p := rfl
@[simp] theorem busTick_pc (c : Nat) : (busTick c s).pc = s.pc := rfl
@[simp] theorem busTick_ram (c : Nat) : (busTick c s).ram = s.ram := rfl
@[simp] theorem busTick_joy1 (c : Nat) : (busTick c s).joy1 = s.joy1 := rfl
@[simp] theorem busTick_joy2 (c : Nat) : (busTick c s).joy2 = s.joy2 := rfl
@[simp] theorem busTick_cart (c : Nat) : (busTick c s).cart = s.cart := rfl
@[simp] theorem busTick_build (c : Nat) : (busTick c s).build = s.build := rfl
@[simp] theorem busTick_halted (c : Nat) : (busTick c s).halted = s.halted := rfl
@[simp] theorem busTick_ppu (c : Nat) : (busTick c s).ppu = tickedPpu c s := rfl
@[simp] theorem busTick_dmaStall (c : Nat) : (busTick c s).dmaStall = 0 := rfl
@[simp] theorem busTick_cycles (c : Nat) : (busTick c s).cycles = s.cycles + (c + s.dmaStall) := rfl
@[simp] theorem busTick_pendingNmi (c : Nat) : (busTick c s).pendingNmi = (tickedPpu c s).nmiPending := rfl
@[simp] theorem busTick_frameReady (c : Nat) :
    (busTick c s).frameReady = (s.frameReady || (!s.ppu.nmiPending && (tickedPpu c s).nmiPending)) := rfl

/-! The register loads and flag operations change their register and P. -/

@[simp] theorem loadA_x (v : Byte) : (loadA v s).x = s.x := rfl
@[simp] theorem loadA_y (v : Byte) : (loadA v s).y = s.y := rfl
@[simp] theorem loadA_sp (v : Byte) : (loadA v s).sp = s.sp := rfl
@[simp] theorem loadA_pc (v : Byte) : (loadA v s).pc = s.pc := rfl
@[simp] theorem loadA_ram (v : Byte) : (loadA v s).ram = s.ram := rfl
@[simp] theorem loadA_cycles (v : Byte) : (loadA v s).cycles = s.cycles := rfl
@[simp] theorem loadA_frameReady (v : Byte) : (loadA v s).frameReady = s.frameReady := rfl
@[simp] theorem loadA_pendingNmi (v : Byte) : (loadA v s).pendingNmi = s.pendingNmi := rfl
@[simp] theorem loadA_dmaStall (v : Byte) : (loadA v s).dmaStall = s.dmaStall := rfl
@[simp] theorem loadA_ppu (v : Byte) : (loadA v s).ppu = s.ppu := rfl
@[simp] theorem loadA_joy1 (v : Byte) : (loadA v s).joy1 = s.joy1 := rfl
@[simp] theorem loadA_joy2 (v : Byte) : (loadA v s).joy2 = s.joy2 := rfl
@[simp] theorem loadA_cart (v : Byte) : (loadA v s).cart = s.cart := rfl
@[simp] theorem loadA_build (v : Byte) : (loadA v s).build = s.build := rfl
@[simp] theorem loadA_halted (v : Byte) : (loadA v s).halted = s.halted := rfl
@[simp] theorem loadA_a (v : Byte) : (loadA v s).a = v := rfl
@[simp] theorem loadA_p (v : Byte) : (loadA v s).p = setNZ v s.p := rfl
@[simp] theorem loadX_a (v : Byte) : (loadX v s).a = s.a := rfl
@[simp] theorem loadX_y (v : Byte) : (loadX v s).y = s.y := rfl
@[simp] theorem loadX_sp (v : Byte) : (loadX v s).sp = s.sp := rfl
@[simp] theorem loadX_pc (v : Byte) : (loadX v s).pc = s.pc := rfl
@[simp] theorem loadX_ram (v : Byte) : (loadX v s).ram = s.ram := rfl
@[simp] theorem loadX_cycles (v : Byte) : (loadX v s).cycles = s.cycles := rfl
@[simp] theorem loadX_frameReady (v : Byte) : (loadX v s).frameReady = s.frameReady := rfl
@[simp] theorem loadX_pendingNmi (v : Byte) : (loadX v s).pendingNmi = s.pendingNmi := rfl
@[simp] theorem loadX_dmaStall (v : Byte) : (loadX v s).dmaStall = s.dmaStall := rfl
@[simp] theorem loadX_ppu (v : Byte) : (loadX v s).ppu = s.ppu := rfl
@[simp] theorem loadX_joy1 (v : Byte) : (loadX v s).joy1 = s.joy1 := rfl
@[simp] theorem loadX_joy2 (v : Byte) : (loadX v s).joy2 = s.joy2 := rfl
@[simp] theorem loadX_cart (v : Byte) : (loadX v s).cart = s.cart := rfl
@[simp] theorem loadX_build (v : Byte) : (loadX v s).build = s.build := rfl
@[simp] theorem loadX_halted (v : Byte) : (loadX v s).halted = s.halted := rfl
@[simp] theorem loadX_x (v : Byte) : (loadX v s).x = v := rfl
@[simp] theorem loadX_p (v : Byte) : (loadX v s).p = setNZ v s.p := rfl
@[simp] theorem loadY_a (v : Byte) : (loadY v s).a = s.a := rfl
@[simp] theorem loadY_x (v : Byte) : (loadY v s).x = s.x := rfl
@[simp] theorem loadY_sp (v : Byte) : (loadY v s).sp = s.sp := rfl
@[simp] theorem loadY_pc (v : Byte) : (loadY v s).pc = s.pc := rfl
@[simp] theorem loadY_ram (v : Byte) : (loadY v s).ram = s.ram := rfl
@[simp] theorem loadY_cycles (v : Byte) : (loadY v s).cycles = s.cycles := rfl
@[simp] theorem loadY_frameReady (v : Byte) : (loadY v s).frameReady = s.frameReady := rfl
@[simp] theorem loadY_pendingNmi (v : Byte) : (loadY v s).pendingNmi = s.pendingNmi := rfl
@[simp] theorem loadY_dmaStall (v : Byte) : (loadY v s).dmaStall = s.dmaStall := rfl
@[simp] theorem loadY_ppu (v : Byte) : (loadY v s).ppu = s.ppu := rfl
@[simp] theorem loadY_joy1 (v : Byte) : (loadY v s).joy1 = s.joy1 := rfl
@[simp] theorem loadY_joy2 (v : Byte) : (loadY v s).joy2 = s.joy2 := rfl
@[simp] theorem loadY_cart (v : Byte) : (loadY v s).cart = s.cart := rfl
@[simp] theorem loadY_build (v : Byte) : (loadY v s).build = s.build := rfl
@[simp] theorem loadY_halted (v : Byte) : (loadY v s).halted = s.halted := rfl
@[simp] theorem loadY_y (v : Byte) : (loadY v s).y = v := rfl
@[simp] theorem loadY_p (v : Byte) : (loadY v s).p = setNZ v s.p := rfl
@[simp] theorem addCore_x (m : Byte) : (addCore m s).x = s.x := rfl
@[simp] theorem addCore_y (m : Byte) : (addCore m s).y = s.y := rfl
@[simp] theorem addCore_sp (m : Byte) : (addCore m s).sp = s.sp := rfl
@[simp] theorem addCore_pc (m : Byte) : (addCore m s).pc = s.pc := rfl
@[simp] theorem addCore_ram (m : Byte) : (addCore m s).ram = s.ram := rfl
@[simp] theorem addCore_cycles (m : Byte) : (addCore m s).cycles = s.cycles := rfl
@[simp] theorem addCore_frameReady (m : Byte) : (addCore m s).frameReady = s.frameReady := rfl
@[simp] theorem addCore_pendingNmi (m : Byte) : (addCore m s).pendingNmi = s.pendingNmi := rfl
@[simp] theorem addCore_dmaStall (m : Byte) : (addCore m s).dmaStall = s.dmaStall := rfl
@[simp] theorem addCore_ppu (m : Byte) : (addCore m s).ppu = s.ppu := rfl
@[simp] theorem addCore_joy1 (m : Byte) : (addCore m s).joy1 = s.joy1 := rfl
@[simp] theorem addCore_joy2 (m : Byte) : (addCore m s).joy2 = s.joy2 := rfl
@[simp] theorem addCore_cart (m : Byte) : (addCore m s).cart = s.cart := rfl
@[simp] theorem addCore_build (m : Byte) : (addCore m s).build = s.build := rfl
@[simp] theorem addCore_halted (m : Byte) : (addCore m s).halted = s.halted := rfl
@[simp] theorem addCore_a (m : Byte) : (addCore m s).a = addResult s.a m s.p := rfl
@[simp] theorem addCore_p (m : Byte) : (addCore m s).p = addFlags s.a m s.p := rfl
@[simp] theorem compareWith_a (r m : Byte) : (compareWith r m s).a = s.a := rfl
@[simp] theorem compareWith_x (r m : Byte) : (compareWith r m s).x = s.x := rfl
@[simp] theorem compareWith_y (r m : Byte) : (compareWith r m s).y = s.y := rfl
@[simp] theorem compareWith_sp (r m : Byte) : (compareWith r m s).sp = s.sp := rfl
@[simp] theorem compareWith_pc (r m : Byte) : (compareWith r m s).pc = s.pc := rfl
@[simp] theorem compareWith_ram (r m : Byte) : (compareWith r m s).ram = s.ram := rfl
@[simp] theorem compareWith_cycles (r m : Byte) : (compareWith r m s).cycles = s.cycles := rfl
@[simp] theorem compareWith_frameReady (r m : Byte) : (compareWith r m s).frameReady = s.frameReady := rfl
@[simp] theorem compareWith_pendingNmi (r m : Byte) : (compareWith r m s).pendingNmi = s.pendingNmi := rfl
@[simp] theorem compareWith_dmaStall (r m : Byte) : (compareWith r m s).dmaStall = s.dmaStall := rfl
@[simp] theorem compareWith_ppu (r m : Byte) : (compareWith r m s).ppu = s.ppu := rfl
@[simp] theorem compareWith_joy1 (r m : Byte) : (compareWith r m s).joy1 = s.joy1 := rfl
@[simp] theorem compareWith_joy2 (r m : Byte) : (compareWith r m s).joy2 = s.joy2 := rfl
@[simp] theorem compareWith_cart (r m : Byte) : (compareWith r m s).cart = s.cart := rfl
@[simp] theorem compareWith_build (r m : Byte) : (compareWith r m s).build = s.build := rfl
@[simp] theorem compareWith_halted (r m : Byte) : (compareWith r m s).halted = s.halted := rfl
@[simp] theorem compareWith_p (r m : Byte) : (compareWith r m s).p = compareFlags r m s.p := rfl

end Sys2Proof.Machine
end

