-- ==== Sys2Proof/Laws/Status.lean ====
section
/-! SUPPORT. What every flag computation does to the eight bits of P, said once. -/

namespace Sys2Proof.Machine

/-- P is its eight bits. -/
theorem statusBits_inj {p q : Byte} : statusBits p = statusBits q ↔ p = q := by
  refine ⟨fun h => ?_, fun h => by rw [h]⟩
  simp only [statusBits, StatusBits.mk.injEq] at h
  obtain ⟨h0, h1, h2, h3, h4, h5, h6, h7⟩ := h
  apply BitVec.eq_of_getLsbD_eq
  intro i hi
  rcases i with _ | _ | _ | _ | _ | _ | _ | _ | i <;> first | assumption | omega

variable (b : Bool) (p v : Byte)

@[simp] theorem statusBits_setC : statusBits (setC b p) = { statusBits p with c := b } := by
  simp [statusBits, setC, getLsbD_withBit, -BitVec.getLsbD_eq_getElem]

@[simp] theorem statusBits_setZ : statusBits (setZ b p) = { statusBits p with z := b } := by
  simp [statusBits, setZ, getLsbD_withBit, -BitVec.getLsbD_eq_getElem]

@[simp] theorem statusBits_setI : statusBits (setI b p) = { statusBits p with i := b } := by
  simp [statusBits, setI, getLsbD_withBit, -BitVec.getLsbD_eq_getElem]

@[simp] theorem statusBits_setD : statusBits (setD b p) = { statusBits p with d := b } := by
  simp [statusBits, setD, getLsbD_withBit, -BitVec.getLsbD_eq_getElem]

@[simp] theorem statusBits_setV : statusBits (setV b p) = { statusBits p with v := b } := by
  simp [statusBits, setV, getLsbD_withBit, -BitVec.getLsbD_eq_getElem]

@[simp] theorem statusBits_setN : statusBits (setN b p) = { statusBits p with n := b } := by
  simp [statusBits, setN, getLsbD_withBit, -BitVec.getLsbD_eq_getElem]

theorem byte_beq_zero : (v == 0) = decide (v.toNat = 0) := by
  rw [Bool.beq_eq_decide_eq, decide_eq_decide]
  exact BitVec.toNat_eq (y := 0)

@[simp] theorem statusBits_setNZ : statusBits (setNZ v p) = (statusBits p).nz v := by
  simp only [setNZ, StatusBits.nz, statusBits_setN, statusBits_setZ, byte_beq_zero]

theorem statusBits_pulled (d : Byte) :
    statusBits (pulledStatus d) = { statusBits d with b := false, u := true } := by
  simp [statusBits, pulledStatus]

theorem statusBits_pushedByProgram : statusBits (pushedByProgram p) = { statusBits p with b := true, u := true } := by
  simp [statusBits, pushedByProgram]

theorem statusBits_pushedByNmi : statusBits (pushedByNmi p) = { statusBits p with b := false, u := true } := by
  simp [statusBits, pushedByNmi]

/-- A pushed copy that is pulled again gives P back, wherever B is 0 and U is 1 in P. -/
theorem pulled_pushedByProgram (hb : flagB p = false) (hu : flagU p = true) : pulledStatus (pushedByProgram p) = p := by
  rw [← statusBits_inj, statusBits_pulled, statusBits_pushedByProgram]
  simp [statusBits, ← hb, ← hu, flagB, flagU]

theorem pulled_pushedByNmi (hb : flagB p = false) (hu : flagU p = true) : pulledStatus (pushedByNmi p) = p := by
  rw [← statusBits_inj, statusBits_pulled, statusBits_pushedByNmi]
  simp [statusBits, ← hb, ← hu, flagB, flagU]

/-! B and U are kept by everything that writes single bits. -/

@[simp] theorem flagB_setNZ : flagB (setNZ v p) = flagB p := congrArg StatusBits.b (statusBits_setNZ p v)
@[simp] theorem flagU_setNZ : flagU (setNZ v p) = flagU p := congrArg StatusBits.u (statusBits_setNZ p v)
@[simp] theorem flagB_setC : flagB (setC b p) = flagB p := congrArg StatusBits.b (statusBits_setC b p)
@[simp] theorem flagU_setC : flagU (setC b p) = flagU p := congrArg StatusBits.u (statusBits_setC b p)
@[simp] theorem flagB_setI : flagB (setI b p) = flagB p := congrArg StatusBits.b (statusBits_setI b p)
@[simp] theorem flagU_setI : flagU (setI b p) = flagU p := congrArg StatusBits.u (statusBits_setI b p)
@[simp] theorem flagB_setD : flagB (setD b p) = flagB p := congrArg StatusBits.b (statusBits_setD b p)
@[simp] theorem flagU_setD : flagU (setD b p) = flagU p := congrArg StatusBits.u (statusBits_setD b p)
@[simp] theorem flagB_setV : flagB (setV b p) = flagB p := congrArg StatusBits.b (statusBits_setV b p)
@[simp] theorem flagU_setV : flagU (setV b p) = flagU p := congrArg StatusBits.u (statusBits_setV b p)
@[simp] theorem flagB_setZ : flagB (setZ b p) = flagB p := congrArg StatusBits.b (statusBits_setZ b p)
@[simp] theorem flagU_setZ : flagU (setZ b p) = flagU p := congrArg StatusBits.u (statusBits_setZ b p)
@[simp] theorem flagB_setN : flagB (setN b p) = flagB p := congrArg StatusBits.b (statusBits_setN b p)
@[simp] theorem flagU_setN : flagU (setN b p) = flagU p := congrArg StatusBits.u (statusBits_setN b p)
@[simp] theorem flagB_addFlags (a m : Byte) : flagB (addFlags a m p) = flagB p := by simp [addFlags]
@[simp] theorem flagU_addFlags (a m : Byte) : flagU (addFlags a m p) = flagU p := by simp [addFlags]
@[simp] theorem flagB_compareFlags (r m : Byte) : flagB (compareFlags r m p) = flagB p := by simp [compareFlags]
@[simp] theorem flagU_compareFlags (r m : Byte) : flagU (compareFlags r m p) = flagU p := by simp [compareFlags]
@[simp] theorem flagB_bitFlags (a m : Byte) : flagB (bitFlags a m p) = flagB p := by simp [bitFlags]
@[simp] theorem flagU_bitFlags (a m : Byte) : flagU (bitFlags a m p) = flagU p := by simp [bitFlags]
@[simp] theorem flagB_shiftFlags (o : Bool) (r : Byte) : flagB (shiftFlags o r p) = flagB p := by simp [shiftFlags]
@[simp] theorem flagU_shiftFlags (o : Bool) (r : Byte) : flagU (shiftFlags o r p) = flagU p := by simp [shiftFlags]
@[simp] theorem flagB_pulledStatus (d : Byte) : flagB (pulledStatus d) = false :=
  congrArg StatusBits.b (statusBits_pulled d)
@[simp] theorem flagU_pulledStatus (d : Byte) : flagU (pulledStatus d) = true :=
  congrArg StatusBits.u (statusBits_pulled d)

/-! ## The arithmetic of the flags -/

/-- The result of `AddCore(m)` is the sum modulo 256 (41_arithmetic_logic_shifts.md R149). -/
theorem addResult_toNat (a m : Byte) : (addResult a m p).toNat = (a.toNat + m.toNat + (flagC p).toNat) % 256 := by
  simp [addResult, addSum]

/-- The flags of `AddCore(m)`: C is a sum above 255, V is two's-complement overflow, Z and N follow the result
(41_arithmetic_logic_shifts.md R148, R149). -/
theorem statusBits_addFlags (a m : Byte) :
    statusBits (addFlags a m p) = StatusBits.nz
      { statusBits p with
        c := decide (255 < a.toNat + m.toNat + (flagC p).toNat)
        v := a.getLsbD 7 == m.getLsbD 7 && a.getLsbD 7 != (addResult a m p).getLsbD 7 } (addResult a m p) := by
  have h80 : ∀ x : Byte, (x &&& 0x80 == 0) = !x.getLsbD 7 := by decide
  have hne : ∀ x : Byte, (x &&& 0x80 != 0) = x.getLsbD 7 := by decide
  simp only [addFlags, statusBits_setNZ, statusBits_setV, statusBits_setC, addSum, h80, hne, BitVec.getLsbD_xor]
  cases a.getLsbD 7 <;> cases m.getLsbD 7 <;> cases (addResult a m p).getLsbD 7 <;> rfl

/-- The flags of `Compare(reg, m)` (42_branches_compares.md R179). -/
theorem statusBits_compareFlags (r m : Byte) :
    statusBits (compareFlags r m p) =
      StatusBits.nz { statusBits p with c := decide (m.toNat ≤ r.toNat) } (r - m) := by
  simp [compareFlags]

/-- The flags of BIT (41_arithmetic_logic_shifts.md R159). -/
theorem statusBits_bitFlags (a m : Byte) :
    statusBits (bitFlags a m p) =
      { statusBits p with z := decide ((m &&& a).toNat = 0), n := m.getLsbD 7, v := m.getLsbD 6 } := by
  simp only [bitFlags, statusBits_setV, statusBits_setN, statusBits_setZ, byte_beq_zero]

/-- The flags of the shifts and rotates (41_arithmetic_logic_shifts.md R155 to R158). -/
theorem statusBits_shiftFlags (o : Bool) (r : Byte) :
    statusBits (shiftFlags o r p) = StatusBits.nz { statusBits p with c := o } r := by
  simp [shiftFlags]

end Sys2Proof.Machine
end

