-- ==== Sys2Proof/Laws/Bus.lean ====
section
/-! SUPPORT. What a bus read and a bus write can do, said once: when each completes, what each leaves, and that both keep what holds of the machine. -/

namespace Sys2Proof.Machine

variable (s : State)

/-! ## Addresses -/

theorem isPort_isPpu {port : PpuPort} {a : Addr} (h : isPort port a = true) : isPpu a = true := by
  simp only [isPort, Bool.and_eq_true] at h
  exact h.1

theorem isPort_portOf {port : PpuPort} {a : Addr} (h : isPort port a = true) : portOf a = port := by
  simp only [isPort, Bool.and_eq_true, beq_iff_eq] at h
  exact h.2

theorem isPort_iff (port : PpuPort) (a : Addr) : isPort port a = true ↔ isPpu a = true ∧ portOf a = port := by
  simp [isPort]

theorem isPpu_iff (a : Addr) : isPpu a = true ↔ 0x2000 ≤ a.toNat ∧ a.toNat < 0x4000 := by simp [isPpu]

theorem isStorage_iff (a : Addr) : isStorage a = true ↔ a.toNat < 0x2000 ∨ 0x8000 ≤ a.toNat := by simp [isStorage]

theorem not_isPpu_of_isStorage {a : Addr} (h : isStorage a = true) : isPpu a = false := by
  rw [isStorage_iff] at h
  simp only [isPpu, decide_eq_false_iff_not]
  omega

@[simp] theorem toNat_zeroPage (b : Byte) : (zeroPage b).toNat = b.toNat := by simp [zeroPage]

@[simp] theorem toNat_stackAddr (sp : Byte) : (stackAddr sp).toNat = 0x100 + sp.toNat := by simp [stackAddr]

theorem isStorage_zeroPage (b : Byte) : isStorage (zeroPage b) = true := by
  have := b.isLt
  rw [isStorage_iff, toNat_zeroPage]
  omega

theorem isStorage_stackAddr (sp : Byte) : isStorage (stackAddr sp) = true := by
  have := sp.isLt
  rw [isStorage_iff, toNat_stackAddr]
  omega

theorem stackAddr_inj {p q : Byte} : stackAddr p = stackAddr q ↔ p = q := by simp [stackAddr, word16_inj]

theorem ramIndex_lt (a : Addr) : ramIndex a < 0x800 := Nat.mod_lt _ (by decide)

theorem ramIndex_stackAddr (sp : Byte) : ramIndex (stackAddr sp) = 0x100 + sp.toNat := by
  have := sp.isLt
  simp only [ramIndex, toNat_stackAddr]
  omega

/-- The port an address reaches is its low three bits (20_memory.md R55). -/
theorem portOf_congr {a b : Addr} (h : a.toNat % 8 = b.toNat % 8) : portOf a = portOf b := by
  simp only [portOf, h]

/-! ## Reading -/

theorem readIsFatal_iff (a : Addr) : readIsFatal s a = true ↔ ¬ readOk s a := by
  simp only [readIsFatal, ppuReadDataFatal, readOk, Bool.and_eq_true, decide_eq_true_eq, Classical.not_imp, Nat.not_lt]

theorem busRead_of_readOk {s : State} {a : Addr} (h : readOk s a) : busRead a s = .done (readValue s a) (readEffect s a) := by
  have : readIsFatal s a ≠ true := fun e => (readIsFatal_iff s a).1 e h
  simp [busRead, this]

theorem busRead_of_not_readOk {s : State} {a : Addr} (h : ¬ readOk s a) : busRead a s = .fatal (.unmappedPpuRead s.ppu.v) := by
  simp [busRead, (readIsFatal_iff s a).2 h]

/-- What a bus read can do (20_memory.md R52, 60_exceptions.md R269). -/
theorem busRead_cases (a : Addr) :
    (readOk s a ∧ busRead a s = .done (readValue s a) (readEffect s a)) ∨
      (¬ readOk s a ∧ busRead a s = .fatal (.unmappedPpuRead s.ppu.v)) := by
  by_cases h : readOk s a
  · exact .inl ⟨h, busRead_of_readOk h⟩
  · exact .inr ⟨h, busRead_of_not_readOk h⟩

theorem readOk_of_not_isPpu {s : State} {a : Addr} (h : isPpu a = false) : readOk s a :=
  fun e => by simp [isPort_isPpu e] at h

/-- Reading RAM or ROM has no effect (20_memory.md R67). -/
@[simp] theorem readEffect_of_isStorage {s : State} {a : Addr} (h : isStorage a = true) : readEffect s a = s := by
  have h2 := not_isPpu_of_isStorage h
  rw [isStorage_iff] at h
  rw [readEffect, h2, if_neg (by simp), if_neg (by omega), if_neg (by omega)]

theorem busRead_of_isStorage {s : State} {a : Addr} (h : isStorage a = true) : busRead a s = .done (readValue s a) s := by
  rw [busRead_of_readOk (readOk_of_not_isPpu (not_isPpu_of_isStorage h)), readEffect_of_isStorage h]

/-- What a read leaves: the PPU, or one joypad, or nothing (20_memory.md R52). -/
theorem readEffect_cases (a : Addr) :
    (isPpu a = true ∧ readEffect s a = s.setPpu (portAfterRead s.cart (portOf a) s.ppu)) ∨
    (a.toNat = 0x4016 ∧ readEffect s a = s.setJoy1 (joypadAfterRead s.joy1)) ∨
    (a.toNat = 0x4017 ∧ readEffect s a = s.setJoy2 (joypadAfterRead s.joy2)) ∨
    (isPpu a = false ∧ a.toNat ≠ 0x4016 ∧ a.toNat ≠ 0x4017 ∧ readEffect s a = s) := by
  simp only [readEffect]
  split
  · exact .inl ⟨‹_›, rfl⟩
  · split
    · exact .inr (.inl ⟨‹_›, rfl⟩)
    · split
      · exact .inr (.inr (.inl ⟨‹_›, rfl⟩))
      · exact .inr (.inr (.inr ⟨by simpa using ‹¬ isPpu a = true›, ‹_›, ‹_›, rfl⟩))

/-! A read changes no CPU register, no RAM, no counter. -/

@[simp] theorem readEffect_a (a : Addr) : (readEffect s a).a = s.a := by
  rcases readEffect_cases s a with ⟨_, e⟩ | ⟨_, e⟩ | ⟨_, e⟩ | ⟨_, _, _, e⟩ <;> rw [e] <;> rfl
@[simp] theorem readEffect_x (a : Addr) : (readEffect s a).x = s.x := by
  rcases readEffect_cases s a with ⟨_, e⟩ | ⟨_, e⟩ | ⟨_, e⟩ | ⟨_, _, _, e⟩ <;> rw [e] <;> rfl
@[simp] theorem readEffect_y (a : Addr) : (readEffect s a).y = s.y := by
  rcases readEffect_cases s a with ⟨_, e⟩ | ⟨_, e⟩ | ⟨_, e⟩ | ⟨_, _, _, e⟩ <;> rw [e] <;> rfl
@[simp] theorem readEffect_sp (a : Addr) : (readEffect s a).sp = s.sp := by
  rcases readEffect_cases s a with ⟨_, e⟩ | ⟨_, e⟩ | ⟨_, e⟩ | ⟨_, _, _, e⟩ <;> rw [e] <;> rfl
@[simp] theorem readEffect_p (a : Addr) : (readEffect s a).p = s.p := by
  rcases readEffect_cases s a with ⟨_, e⟩ | ⟨_, e⟩ | ⟨_, e⟩ | ⟨_, _, _, e⟩ <;> rw [e] <;> rfl
@[simp] theorem readEffect_pc (a : Addr) : (readEffect s a).pc = s.pc := by
  rcases readEffect_cases s a with ⟨_, e⟩ | ⟨_, e⟩ | ⟨_, e⟩ | ⟨_, _, _, e⟩ <;> rw [e] <;> rfl
@[simp] theorem readEffect_ram (a : Addr) : (readEffect s a).ram = s.ram := by
  rcases readEffect_cases s a with ⟨_, e⟩ | ⟨_, e⟩ | ⟨_, e⟩ | ⟨_, _, _, e⟩ <;> rw [e] <;> rfl
@[simp] theorem readEffect_cycles (a : Addr) : (readEffect s a).cycles = s.cycles := by
  rcases readEffect_cases s a with ⟨_, e⟩ | ⟨_, e⟩ | ⟨_, e⟩ | ⟨_, _, _, e⟩ <;> rw [e] <;> rfl
@[simp] theorem readEffect_frameReady (a : Addr) : (readEffect s a).frameReady = s.frameReady := by
  rcases readEffect_cases s a with ⟨_, e⟩ | ⟨_, e⟩ | ⟨_, e⟩ | ⟨_, _, _, e⟩ <;> rw [e] <;> rfl
@[simp] theorem readEffect_pendingNmi (a : Addr) : (readEffect s a).pendingNmi = s.pendingNmi := by
  rcases readEffect_cases s a with ⟨_, e⟩ | ⟨_, e⟩ | ⟨_, e⟩ | ⟨_, _, _, e⟩ <;> rw [e] <;> rfl
@[simp] theorem readEffect_dmaStall (a : Addr) : (readEffect s a).dmaStall = s.dmaStall := by
  rcases readEffect_cases s a with ⟨_, e⟩ | ⟨_, e⟩ | ⟨_, e⟩ | ⟨_, _, _, e⟩ <;> rw [e] <;> rfl
@[simp] theorem readEffect_cart (a : Addr) : (readEffect s a).cart = s.cart := by
  rcases readEffect_cases s a with ⟨_, e⟩ | ⟨_, e⟩ | ⟨_, e⟩ | ⟨_, _, _, e⟩ <;> rw [e] <;> rfl
@[simp] theorem readEffect_build (a : Addr) : (readEffect s a).build = s.build := by
  rcases readEffect_cases s a with ⟨_, e⟩ | ⟨_, e⟩ | ⟨_, e⟩ | ⟨_, _, _, e⟩ <;> rw [e] <;> rfl
@[simp] theorem readEffect_halted (a : Addr) : (readEffect s a).halted = s.halted := by
  rcases readEffect_cases s a with ⟨_, e⟩ | ⟨_, e⟩ | ⟨_, e⟩ | ⟨_, _, _, e⟩ <;> rw [e] <;> rfl

/-- The memories and the ports a read leaves alone (20_memory.md R52). -/
theorem portAfterRead_keeps (cart : Cartridge) (port : PpuPort) (u : Ppu) :
    (portAfterRead cart port u).vram = u.vram ∧ (portAfterRead cart port u).pal = u.pal ∧
    (portAfterRead cart port u).oam = u.oam ∧ (portAfterRead cart port u).ctrl = u.ctrl ∧
    (portAfterRead cart port u).mask = u.mask ∧ (portAfterRead cart port u).oamAddr = u.oamAddr ∧
    (portAfterRead cart port u).t = u.t ∧ (portAfterRead cart port u).x = u.x ∧
    (portAfterRead cart port u).f = u.f ∧ (portAfterRead cart port u).dot = u.dot ∧
    (portAfterRead cart port u).scanline = u.scanline ∧ (portAfterRead cart port u).nmiPending = u.nmiPending ∧
    (portAfterRead cart port u).s0Draws = u.s0Draws := by
  cases port <;> exact ⟨rfl, rfl, rfl, rfl, rfl, rfl, rfl, rfl, rfl, rfl, rfl, rfl, rfl⟩

theorem portAfterRead_sound {m : Mirroring} {u : Ppu} (h : u.Sound m) (cart : Cartridge) (port : PpuPort) :
    (portAfterRead cart port u).Sound m := by
  cases port with
  | status => exact ppuAfterReadStatus_sound h
  | data => exact ppuAfterReadData_sound h cart
  | ctrl | mask | oamAddr | oamData | scroll | addr => exact h

theorem joypadAfterRead_i {j : Joypad} (h : j.i ≤ 8) : (joypadAfterRead j).i ≤ 8 := by
  unfold joypadAfterRead
  split
  · exact h
  · split
    · exact h
    · exact Nat.min_le_right _ _

@[simp] theorem joypadAfterRead_s (j : Joypad) : (joypadAfterRead j).s = j.s := by
  unfold joypadAfterRead
  split
  · rfl
  · split <;> rfl

@[simp] theorem joypadAfterRead_b (j : Joypad) : (joypadAfterRead j).b = j.b := by
  unfold joypadAfterRead
  split
  · rfl
  · split <;> rfl

theorem readEffect_sound {s : State} (h : s.Sound) (a : Addr) : (readEffect s a).Sound := by
  rcases readEffect_cases s a with ⟨_, e⟩ | ⟨_, e⟩ | ⟨_, e⟩ | ⟨_, _, _, e⟩ <;> rw [e]
  · exact { h with ppu := portAfterRead_sound h.ppu _ _ }
  · exact { h with index1 := joypadAfterRead_i h.index1 }
  · exact { h with index2 := joypadAfterRead_i h.index2, strobe2 := by simpa using h.strobe2 }
  · exact h

/-- A read of RAM (20_memory.md R52, R54). -/
theorem readValue_ram {a : Addr} (h : a.toNat < 0x2000) : readValue s a = memGet s.ram (ramIndex a) := by
  simp [readValue, h]

/-- A read of PRG-ROM (20_memory.md R52, R56). -/
theorem readValue_rom {a : Addr} (h : 0x8000 ≤ a.toNat) :
    readValue s a = memGet s.cart.prg (prgIndex s.cart.prgSize a) := by
  rw [readValue, if_neg (by omega), if_neg (by omega), if_neg (by omega), if_neg (by omega), if_neg (by omega)]

/-- A read of the stack page (10_state.md R24, 20_memory.md R54). -/
theorem readValue_stackAddr (sp : Byte) : readValue s (stackAddr sp) = memGet s.ram (0x100 + sp.toNat) := by
  have := sp.isLt
  rw [readValue_ram _ (by simp only [toNat_stackAddr]; omega), ramIndex_stackAddr]

/-- Reading storage gives the same before and after any change outside RAM and the cartridge. -/
theorem readValue_congr {s t : State} {a : Addr} (ha : isStorage a = true) (hr : t.ram = s.ram) (hc : t.cart = s.cart) :
    readValue t a = readValue s a := by
  rw [isStorage_iff] at ha
  unfold readValue
  split
  · rw [hr]
  · rw [if_neg (by omega), if_neg (by omega), if_neg (by omega), if_neg (by omega)]
    rw [if_neg (by omega), if_neg (by omega), if_neg (by omega), if_neg (by omega), hc]

end Sys2Proof.Machine
end

