-- ==== Sys2Proof/Laws/Writes.lean ====
section
/-! SUPPORT. What a bus write can do, said once: when it completes, what it leaves, that OAM DMA completes exactly where it is safe, and that a write keeps what holds of the machine. -/

namespace Sys2Proof.Machine

/-- `t` is `s` but for RAM, PPU, joypads and the stall: all a bus access can change. -/
structure OnlyDevices (s t : State) : Prop where
  a : t.a = s.a
  x : t.x = s.x
  y : t.y = s.y
  sp : t.sp = s.sp
  p : t.p = s.p
  pc : t.pc = s.pc
  cycles : t.cycles = s.cycles
  frameReady : t.frameReady = s.frameReady
  pendingNmi : t.pendingNmi = s.pendingNmi
  cart : t.cart = s.cart
  build : t.build = s.build
  halted : t.halted = s.halted

theorem OnlyDevices.refl (s : State) : OnlyDevices s s := ⟨rfl, rfl, rfl, rfl, rfl, rfl, rfl, rfl, rfl, rfl, rfl, rfl⟩

theorem OnlyDevices.trans {s t u : State} (h : OnlyDevices s t) (h' : OnlyDevices t u) : OnlyDevices s u :=
  ⟨h'.a.trans h.a, h'.x.trans h.x, h'.y.trans h.y, h'.sp.trans h.sp, h'.p.trans h.p, h'.pc.trans h.pc,
    h'.cycles.trans h.cycles, h'.frameReady.trans h.frameReady, h'.pendingNmi.trans h.pendingNmi, h'.cart.trans h.cart,
    h'.build.trans h.build, h'.halted.trans h.halted⟩

theorem readEffect_onlyDevices (s : State) (a : Addr) : OnlyDevices s (readEffect s a) := by constructor <;> simp

@[simp] theorem andThen_done {α β : Type} (v : α) (s : State) (k : α → State → Access β) :
    andThen (.done v s) k = k v s := rfl

@[simp] theorem andThen_fatal {α β : Type} (f : Fault) (k : α → State → Access β) :
    andThen (.fatal f) k = .fatal f := rfl

/-! ## The write to a port -/

/-- A write to a port is fatal only at $2007, and then by `v` alone (60_exceptions.md R270). -/
theorem portWrite_cases (port : PpuPort) (d : Byte) (s : State) :
    (∃ u, portWrite port d s = .done () (s.setPpu u) ∧ (s.ppu.Sound s.cart.mirroring → u.Sound s.cart.mirroring) ∧
      (port = .data → 0x2000 ≤ s.ppu.v.toNat ∧ s.ppu.v.toNat < 0x4000)) ∨
    (port = .data ∧ ¬ (0x2000 ≤ s.ppu.v.toNat ∧ s.ppu.v.toNat < 0x4000) ∧
      portWrite port d s = .fatal (.unmappedPpuWrite s.ppu.v)) := by
  cases port with
  | ctrl => exact .inl ⟨_, rfl, fun h => ppuWriteCtrl_sound h d, by simp⟩
  | mask => exact .inl ⟨_, rfl, fun h => ppuWriteMask_sound h d, by simp⟩
  | status => exact .inl ⟨s.ppu, rfl, id, by simp⟩
  | oamAddr => exact .inl ⟨_, rfl, fun h => ppuWriteOamAddr_sound h d, by simp⟩
  | oamData => exact .inl ⟨_, rfl, fun h => ppuWriteOamData_sound h d, by simp⟩
  | scroll => exact .inl ⟨_, rfl, fun h => ppuWriteScroll_sound h d, by simp⟩
  | addr => exact .inl ⟨_, rfl, fun h => ppuWriteAddr_sound h d, by simp⟩
  | data =>
    simp only [portWrite, ppuWriteDataFatal, decide_eq_true_eq]
    split
    · exact .inr ⟨trivial, by omega, rfl⟩
    · exact .inl ⟨_, rfl, fun h => ppuWriteData_sound h d, fun _ => by omega⟩

/-! ## OAM DMA -/

/-- One byte of the copy stored (60_exceptions.md R310). -/
def dmaStore (b : Byte) (s : State) : State := s.setPpu (ppuWriteOamData b s.ppu)

theorem dmaStore_onlyDevices (b : Byte) (s : State) : OnlyDevices s (dmaStore b s) :=
  ⟨rfl, rfl, rfl, rfl, rfl, rfl, rfl, rfl, rfl, rfl, rfl, rfl⟩

theorem dmaCopy_succ (n : Nat) (src : Addr) (s : State) :
    dmaCopy (n + 1) src s = andThen (busRead src s) fun b s1 => dmaCopy n (src + 1) (dmaStore b s1) := rfl

/-- The state in which the copy goes on after one byte. -/
def dmaNext (src : Addr) (s : State) : State := dmaStore (readValue s src) (readEffect s src)

theorem dmaNext_onlyDevices (src : Addr) (s : State) : OnlyDevices s (dmaNext src s) :=
  (readEffect_onlyDevices s src).trans (dmaStore_onlyDevices _ _)

@[simp] theorem dmaNext_ram (src : Addr) (s : State) : (dmaNext src s).ram = s.ram := readEffect_ram s src
@[simp] theorem dmaNext_dmaStall (src : Addr) (s : State) : (dmaNext src s).dmaStall = s.dmaStall := readEffect_dmaStall s src

theorem dmaNext_sound {s : State} (h : s.Sound) (src : Addr) : (dmaNext src s).Sound :=
  { readEffect_sound h src with ppu := ppuWriteOamData_sound (readEffect_sound h src).ppu _ }

theorem dmaCopy_succ_cases (n : Nat) (src : Addr) (s : State) :
    (readOk s src ∧ dmaCopy (n + 1) src s = dmaCopy n (src + 1) (dmaNext src s)) ∨
      (¬ readOk s src ∧ dmaCopy (n + 1) src s = .fatal (.unmappedPpuRead s.ppu.v)) := by
  rcases busRead_cases s src with ⟨h, e⟩ | ⟨h, e⟩
  · exact .inl ⟨h, by rw [dmaCopy_succ, e]; rfl⟩
  · exact .inr ⟨h, by rw [dmaCopy_succ, e]; rfl⟩

/-- What the copy can do: it keeps all but the devices, RAM and the stall among them, and all that holds; or it is fatal
(`dmaCopy_fatal_v`). -/
theorem dmaCopy_cases (n : Nat) (src : Addr) (s : State) :
    (∃ t, dmaCopy n src s = .done () t ∧ OnlyDevices s t ∧ t.ram = s.ram ∧ t.dmaStall = s.dmaStall ∧
      (s.Sound → t.Sound)) ∨
    (∃ f, dmaCopy n src s = .fatal f) := by
  induction n generalizing src s with
  | zero => exact .inl ⟨s, rfl, OnlyDevices.refl s, rfl, rfl, id⟩
  | succ n ih =>
    rcases dmaCopy_succ_cases n src s with ⟨h, e⟩ | ⟨h, e⟩
    · rw [e]
      rcases ih (src + 1) (dmaNext src s) with ⟨t, e', h1, h2, h3, h4⟩ | hf
      · exact .inl ⟨t, e', (dmaNext_onlyDevices src s).trans h1, by simpa using h2, by simpa using h3,
          fun hs => h4 (dmaNext_sound hs src)⟩
      · exact .inr hf
    · exact .inr ⟨_, e⟩

/-- The $2007 reads among `n` addresses from `a` of the PPU ports. -/
def dataReads (a n : Nat) : Nat := (a + n) / 8 - a / 8

theorem vramStep_pos (u : Ppu) : 1 ≤ vramStep u ∧ vramStep u ≤ 32 := by
  unfold vramStep
  split <;> omega

theorem toNat_ppuNextV {u : Ppu} (h : u.v.toNat < 0x4000) : (ppuNextV u).toNat = u.v.toNat + vramStep u := by
  have := vramStep_pos u
  unfold vramStep at *
  unfold ppuNextV
  split <;> simp_all <;> omega

theorem portOf_eq_data {a : Addr} : portOf a = .data ↔ a.toNat % 8 = 7 := by
  have : a.toNat % 8 < 8 := Nat.mod_lt _ (by decide)
  unfold portOf
  generalize a.toNat % 8 = k at this
  interval_cases k <;> simp

/-- One byte of the copy from a PPU port: `v` moves if the port is $2007, and the step does not change. -/
theorem dmaNext_v {s : State} {src : Addr} (h : isPpu src = true) :
    (dmaNext src s).ppu.v = (if src.toNat % 8 = 7 then ppuNextV s.ppu else s.ppu.v) ∧
      vramStep (dmaNext src s).ppu = vramStep s.ppu := by
  have hd := @portOf_eq_data src
  have hc : (readEffect s src).ppu = portAfterRead s.cart (portOf src) s.ppu := by simp [readEffect, h]
  have hv : (dmaNext src s).ppu.v = (readEffect s src).ppu.v := rfl
  have hs : vramStep (dmaNext src s).ppu = vramStep (readEffect s src).ppu := rfl
  rw [hv, hs, hc]
  generalize portOf src = port at hd
  cases port with
  | data => rw [if_pos (hd.1 rfl)]; exact ⟨rfl, rfl⟩
  | ctrl | mask | status | oamAddr | oamData | scroll | addr =>
    rw [if_neg (fun e => by simpa using hd.2 e)]; exact ⟨rfl, rfl⟩

/-- The copy from PPU ports completes exactly where its last $2007 read still has `v` below $4000. -/
theorem dmaCopy_ports (n : Nat) (src : Addr) (s : State) (h1 : 0x2000 ≤ src.toNat) (h2 : src.toNat + n ≤ 0x4000) :
    (∃ t, dmaCopy n src s = .done () t) ↔
      (dataReads src.toNat n = 0 ∨ s.ppu.v.toNat + (dataReads src.toNat n - 1) * vramStep s.ppu < 0x4000) := by
  induction n generalizing src s with
  | zero => simp [dmaCopy, dataReads]
  | succ n ih =>
    have hp : isPpu src = true := (isPpu_iff src).2 ⟨h1, by omega⟩
    have hnext : (src + 1).toNat = src.toNat + 1 := by
      rw [BitVec.toNat_add]
      simp
      omega
    obtain ⟨hv, hstep⟩ := dmaNext_v (s := s) hp
    have hread : readOk s src ↔ (src.toNat % 8 = 7 → s.ppu.v.toNat < 0x4000) := by
      simp only [readOk, isPort_iff, hp, true_and, portOf_eq_data]
    have ih' := ih (src + 1) (dmaNext src s) (by omega) (by omega)
    rw [hnext, hstep, hv] at ih'
    have hpos := vramStep_pos s.ppu
    have hk : dataReads src.toNat (n + 1) =
        dataReads (src.toNat + 1) n + if src.toNat % 8 = 7 then 1 else 0 := by
      simp only [dataReads]
      split <;> omega
    rcases dmaCopy_succ_cases n src s with ⟨hok, e⟩ | ⟨hok, e⟩
    · rw [e, ih', hk]
      by_cases h7 : src.toNat % 8 = 7
      · have hlt := hread.1 hok h7
        simp only [h7, if_true, toNat_ppuNextV hlt]
        generalize dataReads (src.toNat + 1) n = k
        rcases k with _ | k
        · simp; omega
        · simp only [Nat.add_eq_zero_iff, Nat.add_sub_cancel, Nat.succ_mul, one_ne_zero, and_false, false_or]
          omega
      · simp only [h7, if_false, Nat.add_zero]
    · rw [e, hk]
      obtain ⟨h7, hge⟩ := Classical.not_imp.1 (fun c => hok (hread.2 c))
      rw [if_pos h7]
      refine iff_of_false (by simp) (not_or.2 ⟨by omega, ?_⟩)
      have := Nat.zero_le ((dataReads (src.toNat + 1) n + 1 - 1) * vramStep s.ppu)
      omega

/-- The copy from addresses that are not PPU ports completes. -/
theorem dmaCopy_elsewhere (n : Nat) (src : Addr) (s : State)
    (h : src.toNat + n ≤ 0x2000 ∨ (0x4000 ≤ src.toNat ∧ src.toNat + n ≤ 0x10000)) :
    ∃ t, dmaCopy n src s = .done () t := by
  induction n generalizing src s with
  | zero => exact ⟨s, rfl⟩
  | succ n ih =>
    have hnp : isPpu src = false := by
      have : ¬ (isPpu src = true) := by rw [isPpu_iff]; omega
      simpa using this
    rcases dmaCopy_succ_cases n src s with ⟨_, e⟩ | ⟨hok, _⟩
    · rw [e]
      rcases Nat.lt_or_ge (src.toNat + 1) 0x10000 with hlt | hge
      · exact ih _ _ (by rw [BitVec.toNat_add]; simp; omega)
      · have : n = 0 := by omega
        subst this
        exact ⟨_, rfl⟩
    · exact absurd (readOk_of_not_isPpu hnp) hok

/-- Where the copy from PPU ports is fatal, and with which `v`: at the first $2007 read to find it in $4000-$7FFF. -/
theorem dmaCopy_fatal (n : Nat) (src : Addr) (s : State) (f : Fault) (h1 : 0x2000 ≤ src.toNat)
    (h2 : src.toNat + n ≤ 0x4000) (h : dmaCopy n src s = .fatal f) :
    ∃ (v : VramAddr) (k : Nat), f = .unmappedPpuRead v ∧ 0x4000 ≤ v.toNat ∧ k < dataReads src.toNat n ∧
      v.toNat = s.ppu.v.toNat + k * vramStep s.ppu ∧ ∀ j, j < k → s.ppu.v.toNat + j * vramStep s.ppu < 0x4000 := by
  induction n generalizing src s with
  | zero => cases h
  | succ n ih =>
    have hp : isPpu src = true := (isPpu_iff src).2 ⟨h1, by omega⟩
    have hnext : (src + 1).toNat = src.toNat + 1 := by
      rw [BitVec.toNat_add]
      simp
      omega
    have hk : dataReads src.toNat (n + 1) =
        dataReads (src.toNat + 1) n + if src.toNat % 8 = 7 then 1 else 0 := by
      simp only [dataReads]
      split <;> omega
    have hread : readOk s src ↔ (src.toNat % 8 = 7 → s.ppu.v.toNat < 0x4000) := by
      simp only [readOk, isPort_iff, hp, true_and, portOf_eq_data]
    rcases dmaCopy_succ_cases n src s with ⟨hok, e⟩ | ⟨hok, e⟩
    · rw [e] at h
      obtain ⟨hv, hstep⟩ := dmaNext_v (s := s) hp
      obtain ⟨v, k, hf, hge, hlt, hev, hbefore⟩ := ih (src + 1) (dmaNext src s) (by omega) (by omega) h
      rw [hnext] at hlt
      rw [hstep, hv] at hev
      rw [hstep, hv] at hbefore
      by_cases h7 : src.toNat % 8 = 7
      · have hlow := hread.1 hok h7
        rw [if_pos h7, toNat_ppuNextV hlow] at hev hbefore
        refine ⟨v, k + 1, hf, hge, by rw [hk, if_pos h7]; omega, by rw [hev, Nat.succ_mul]; omega, fun j hj => ?_⟩
        rcases j with _ | j
        · simpa using hlow
        · have := hbefore j (by omega)
          rw [Nat.succ_mul]
          omega
      · rw [if_neg h7] at hev hbefore
        exact ⟨v, k, hf, hge, by rw [hk, if_neg h7]; omega, hev, hbefore⟩
    · rw [e] at h
      cases h
      obtain ⟨h7, hge⟩ := Classical.not_imp.1 (fun c => hok (hread.2 c))
      exact ⟨s.ppu.v, 0, rfl, by omega, by rw [hk, if_pos h7]; omega, by simp, fun j hj => absurd hj (Nat.not_lt_zero j)⟩

/-- The whole copy of OAM DMA completes exactly where it is safe (60_exceptions.md R269, R310). -/
theorem dmaCopy_done_iff (d : Byte) (s : State) : (∃ t, dmaCopy 256 (word16 d 0x00) s = .done () t) ↔ dmaOk s d := by
  have hd := d.isLt
  have hsrc : (word16 d 0x00).toNat = d.toNat * 256 := by simp
  by_cases h : 0x20 ≤ d.toNat ∧ d.toNat < 0x40
  · rw [dmaCopy_ports 256 _ s (by omega) (by omega), hsrc]
    have hk : dataReads (d.toNat * 256) 256 = 32 := by simp only [dataReads]; omega
    simp [hk, dmaOk, h]
  · refine iff_of_true (dmaCopy_elsewhere 256 _ s (by omega)) fun h1 h2 => absurd ⟨h1, h2⟩ h

/-- The `v` of the whole copy where it is fatal. -/
theorem dmaCopy_fatal_v {d : Byte} {s : State} {f : Fault} (h : dmaCopy 256 (word16 d 0x00) s = .fatal f) :
    ∃ v, f = .unmappedPpuRead v ∧ dmaFatalV s v := by
  have hd := d.isLt
  have hsrc : (word16 d 0x00).toNat = d.toNat * 256 := by simp
  by_cases hp : 0x20 ≤ d.toNat ∧ d.toNat < 0x40
  · obtain ⟨v, k, hf, hge, hk, hrest⟩ := dmaCopy_fatal 256 _ s f (by omega) (by omega) h
    rw [hsrc] at hk
    simp only [dataReads] at hk
    exact ⟨v, hf, hge, k, by omega, hrest⟩
  · obtain ⟨t, e⟩ := dmaCopy_elsewhere 256 (word16 d 0x00) s (by omega)
    rw [h] at e
    cases e

/-- What OAM DMA can do (60_exceptions.md R310). -/
theorem oamDma_cases (d : Byte) (s : State) :
    (dmaOk s d ∧ ∃ t, oamDma d s = .done () t ∧ OnlyDevices s t ∧ t.ram = s.ram ∧
      t.dmaStall = s.dmaStall + dmaStallFor s.cycles ∧ (s.Sound → t.Sound)) ∨
    (¬ dmaOk s d ∧ ∃ v, oamDma d s = .fatal (.unmappedPpuRead v) ∧ dmaFatalV s v) := by
  rcases dmaCopy_cases 256 (word16 d 0x00) s with ⟨t, e, h1, h2, h3, h4⟩ | ⟨f, e⟩
  · refine .inl ⟨(dmaCopy_done_iff d s).1 ⟨t, e⟩, t.setDmaStall (t.dmaStall + dmaStallFor t.cycles), ?_, ?_, ?_, ?_, ?_⟩
    · rw [oamDma, e]; rfl
    · exact h1.trans ⟨rfl, rfl, rfl, rfl, rfl, rfl, rfl, rfl, rfl, rfl, rfl, rfl⟩
    · exact h2
    · simp [h3, h1.cycles]
    · exact fun h => { h4 h with }
  · obtain ⟨v, rfl, hv⟩ := dmaCopy_fatal_v e
    refine .inr ⟨fun h => ?_, v, by rw [oamDma, e]; rfl, hv⟩
    obtain ⟨t, e'⟩ := (dmaCopy_done_iff d s).2 h
    rw [e] at e'
    exact absurd e' (by simp)

/-! ## The write -/

/-- A store to RAM. -/
theorem writeRam_onlyDevices (a : Addr) (d : Byte) (s : State) : OnlyDevices s (writeRam a d s) :=
  ⟨rfl, rfl, rfl, rfl, rfl, rfl, rfl, rfl, rfl, rfl, rfl, rfl⟩

theorem writeRam_sound {s : State} (h : s.Sound) (a : Addr) (d : Byte) : (writeRam a d s).Sound :=
  { h with ram := Memory.ok_set d (ramIndex_lt a) h.ram }

theorem joypadWrite_i {j : Joypad} (h : j.i ≤ 8) (d : Byte) : (joypadWrite d j).i ≤ 8 := by
  unfold joypadWrite
  split
  · exact Nat.zero_le _
  · exact h

/-- What a bus write can do, said once (20_memory.md R53): it completes exactly where it is safe; it changes devices
only, RAM only below $2000, the stall only at $4014; it keeps what holds; and where it is not safe it is fatal. -/
theorem busWrite_cases (a : Addr) (d : Byte) (s : State) :
    (writeOk s a d ∧ ∃ t, busWrite a d s = .done () t ∧ OnlyDevices s t ∧
      t.ram = (if a.toNat < 0x2000 then memSet s.ram (ramIndex a) d else s.ram) ∧
      t.dmaStall = (if a.toNat = 0x4014 then s.dmaStall + dmaStallFor s.cycles else s.dmaStall) ∧
      (s.Sound → t.Sound)) ∨
    (¬ writeOk s a d ∧ ∃ f, busWrite a d s = .fatal f ∧
      ((0x8000 ≤ a.toNat ∧ f = .writeToRom a) ∨ (isPort .data a = true ∧ f = .unmappedPpuWrite s.ppu.v) ∨
        (a.toNat = 0x4014 ∧ ∃ v : VramAddr, f = .unmappedPpuRead v ∧ dmaFatalV s v))) := by
  have ha := a.isLt
  have hport : ∀ port, isPort port a = true → 0x2000 ≤ a.toNat ∧ a.toNat < 0x4000 :=
    fun port h => (isPpu_iff a).1 (isPort_isPpu h)
  unfold busWrite
  by_cases h1 : a.toNat < 0x2000
  · rw [if_pos h1]
    refine .inl ⟨⟨by omega, fun h => ?_, fun h => by omega⟩, _, rfl, writeRam_onlyDevices a d s, ?_, ?_, ?_⟩
    · have := hport _ h; omega
    · rw [if_pos h1]; rfl
    · rw [if_neg (by omega)]; rfl
    · exact fun h => writeRam_sound h a d
  · rw [if_neg h1]
    by_cases h2 : a.toNat < 0x4000
    · rw [if_pos h2]
      have hp : isPpu a = true := (isPpu_iff a).2 ⟨by omega, h2⟩
      rcases portWrite_cases (portOf a) d s with ⟨u, e, hu, hv⟩ | ⟨hd, hv, e⟩
      · refine .inl ⟨⟨by omega, fun h => hv (isPort_portOf h), fun h => by omega⟩, _, e,
          ⟨rfl, rfl, rfl, rfl, rfl, rfl, rfl, rfl, rfl, rfl, rfl, rfl⟩, ?_, ?_, fun h => { h with ppu := hu h.ppu }⟩
        · rw [if_neg h1]; rfl
        · rw [if_neg (by omega)]; rfl
      · have hd' : isPort .data a = true := (isPort_iff _ _).2 ⟨hp, hd⟩
        exact .inr ⟨fun h => hv (h.2.1 hd'), _, e, .inr (.inl ⟨hd', rfl⟩)⟩
    · rw [if_neg h2]
      have hnp : isPort .data a = true → False := fun h => h2 (hport _ h).2
      by_cases h3 : a.toNat = 0x4014
      · rw [if_pos h3, if_neg h1, if_pos h3]
        rcases oamDma_cases d s with ⟨hok, t, e, ho, hr, hst, hs⟩ | ⟨hok, v, e, hv⟩
        · exact .inl ⟨⟨by omega, fun h => (hnp h).elim, fun _ => hok⟩, t, e, ho, hr, hst, hs⟩
        · exact .inr ⟨fun h => hok (h.2.2 h3), _, e, .inr (.inr ⟨h3, v, rfl, hv⟩)⟩
      · rw [if_neg h3, if_neg h1, if_neg h3]
        by_cases h4 : a.toNat = 0x4016
        · rw [if_pos h4]
          exact .inl ⟨⟨by omega, fun h => (hnp h).elim, fun h => (h3 h).elim⟩, _, rfl,
            ⟨rfl, rfl, rfl, rfl, rfl, rfl, rfl, rfl, rfl, rfl, rfl, rfl⟩, rfl, rfl,
            fun h => { h with index1 := joypadWrite_i h.index1 d }⟩
        · rw [if_neg h4]
          by_cases h5 : a.toNat < 0x8000
          · rw [if_pos h5]
            exact .inl ⟨⟨h5, fun h => (hnp h).elim, fun h => (h3 h).elim⟩, s, rfl, OnlyDevices.refl s, rfl, rfl, id⟩
          · rw [if_neg h5]
            exact .inr ⟨fun h => h5 h.1, _, rfl, .inl ⟨by omega, rfl⟩⟩

/-- A write completes where it is safe. -/
theorem busWrite_of_writeOk {s : State} {a : Addr} {d : Byte} (h : writeOk s a d) : ∃ t, busWrite a d s = .done () t := by
  rcases busWrite_cases a d s with ⟨_, t, e, _⟩ | ⟨hn, _⟩
  · exact ⟨t, e⟩
  · exact absurd h hn

/-- A write that is not safe is fatal. -/
theorem busWrite_of_not_writeOk {s : State} {a : Addr} {d : Byte} (h : ¬ writeOk s a d) :
    ∃ f, busWrite a d s = .fatal f ∧
      ((0x8000 ≤ a.toNat ∧ f = .writeToRom a) ∨ (isPort .data a = true ∧ f = .unmappedPpuWrite s.ppu.v) ∨
        (a.toNat = 0x4014 ∧ ∃ v : VramAddr, f = .unmappedPpuRead v ∧ dmaFatalV s v)) := by
  rcases busWrite_cases a d s with ⟨hn, _⟩ | ⟨_, h'⟩
  · exact absurd hn h
  · exact h'

section
variable {s t : State} {a : Addr} {d : Byte} (h : busWrite a d s = .done () t)
include h

/-- All that a completed write leaves (20_memory.md R53). -/
theorem busWrite_done : writeOk s a d ∧ OnlyDevices s t ∧
    t.ram = (if a.toNat < 0x2000 then memSet s.ram (ramIndex a) d else s.ram) ∧
    t.dmaStall = (if a.toNat = 0x4014 then s.dmaStall + dmaStallFor s.cycles else s.dmaStall) ∧
    (s.Sound → t.Sound) := by
  rcases busWrite_cases a d s with ⟨hok, t', e, rest⟩ | ⟨_, f, e, _⟩
  · rw [e] at h
    cases h
    exact ⟨hok, rest⟩
  · rw [e] at h
    cases h

theorem busWrite_onlyDevices : OnlyDevices s t := (busWrite_done h).2.1
theorem busWrite_ram : t.ram = (if a.toNat < 0x2000 then memSet s.ram (ramIndex a) d else s.ram) := (busWrite_done h).2.2.1
theorem busWrite_dmaStall :
    t.dmaStall = (if a.toNat = 0x4014 then s.dmaStall + dmaStallFor s.cycles else s.dmaStall) := (busWrite_done h).2.2.2.1
theorem busWrite_sound (hs : s.Sound) : t.Sound := (busWrite_done h).2.2.2.2 hs

end

/-! ## The stack primitives are bus accesses (10_state.md R24) -/

theorem push8_eq_busWrite (d : Byte) (s : State) :
    busWrite (stackAddr s.sp) d s = .done () (writeRam (stackAddr s.sp) d s) := by
  have := s.sp.isLt
  rw [busWrite, if_pos]
  simp only [toNat_stackAddr]
  omega

theorem push8_sound {s : State} (h : s.Sound) (d : Byte) : (push8 d s).Sound :=
  { writeRam_sound h (stackAddr s.sp) d with }

theorem push16_sound {s : State} (h : s.Sound) (w : Addr) : (push16 w s).Sound := push8_sound (push8_sound h _) _

theorem enterTrap_sound {s : State} (h : s.Sound) (ret : Addr) (st : Byte) : (enterTrap ret st s).Sound :=
  { push8_sound (push16_sound h ret) st with
    flagB := by simpa using h.flagB
    flagU := by simpa using h.flagU }

end Sys2Proof.Machine
end

