-- ==== Sys2Proof/Laws/Shapes.lean ====
section
/-! SUPPORT. What each shared shape of Operands.lean can do, said once; and how a shape meets its rule of Safety.lean. -/

namespace Sys2Proof.Machine

/-! ## Operands -/

/-- The modes whose base is the effective address cross no page (30_encoding.md R92). -/
@[simp] theorem crossed_zp (a : Byte) (s : State) : crossed (.zp a) s = false := by simp [crossed, effAddr, baseAddress]
@[simp] theorem crossed_zpx (a : Byte) (s : State) : crossed (.zpx a) s = false := by simp [crossed, effAddr, baseAddress]
@[simp] theorem crossed_zpy (a : Byte) (s : State) : crossed (.zpy a) s = false := by simp [crossed, effAddr, baseAddress]
@[simp] theorem crossed_abs (w : Addr) (s : State) : crossed (.abs w) s = false := by simp [crossed, effAddr, baseAddress]
@[simp] theorem crossed_izx (b : Byte) (s : State) : crossed (.izx b) s = false := by simp [crossed, effAddr, baseAddress]

/-- `M`: the immediate byte, or what a bus read of `ea` returns (30_encoding.md R92, R95). -/
def sourceValue (src : Source) (s : State) : Byte :=
  match src with
  | .imm d => d
  | .mem o => readValue s (effAddr o s)

/-- What reading `M` leaves (20_memory.md R52). -/
def sourceAfter (src : Source) (s : State) : State :=
  match src with
  | .imm _ => s
  | .mem o => readEffect s (effAddr o s)

/-- Reading `M` is not fatal. -/
def sourceOk (src : Source) (s : State) : Prop :=
  match src with
  | .imm _ => True
  | .mem o => readOk s (effAddr o s)

/-- One bus read, or the immediate byte. -/
theorem readSource_cases (src : Source) (s : State) :
    (sourceOk src s ∧ readSource src s = .done (sourceValue src s) (sourceAfter src s)) ∨
      (¬ sourceOk src s ∧ readSource src s = .fatal (.unmappedPpuRead s.ppu.v)) := by
  cases src with
  | imm d => exact .inl ⟨trivial, rfl⟩
  | mem o => exact busRead_cases s (effAddr o s)

theorem sourceAfter_onlyDevices (src : Source) (s : State) : OnlyDevices s (sourceAfter src s) := by
  cases src with
  | imm d => exact OnlyDevices.refl s
  | mem o => exact readEffect_onlyDevices s _

@[simp] theorem sourceAfter_ram (src : Source) (s : State) : (sourceAfter src s).ram = s.ram := by
  cases src with
  | imm d => rfl
  | mem o => exact readEffect_ram s _

@[simp] theorem sourceAfter_dmaStall (src : Source) (s : State) : (sourceAfter src s).dmaStall = s.dmaStall := by
  cases src with
  | imm d => rfl
  | mem o => exact readEffect_dmaStall s _

theorem sourceAfter_sound {s : State} (h : s.Sound) (src : Source) : (sourceAfter src s).Sound := by
  cases src with
  | imm d => exact h
  | mem o => exact readEffect_sound h _

/-! ## The tick -/

theorem busTick_sound {s : State} (h : s.Sound) (c : Nat) : (busTick c s).Sound :=
  { h with ppu := ppuTick_sound h.ppu _ _ }

/-- A tick leaves what holds between steps (60_exceptions.md R280, R282). -/
theorem busTick_inv {s : State} (h : s.Sound) (c : Nat) : (busTick c s).Inv :=
  { busTick_sound h c with dmaStall := rfl, pendingNmi := rfl }

/-- The tick looks at nothing of the CPU. -/
theorem busTick_outside_congr {s t : State} (c : Nat) (h : s.outside = t.outside) :
    (busTick c s).outside = (busTick c t).outside := by
  simp only [State.outside, Outside.mk.injEq] at h
  obtain ⟨h1, h2, h3, h4, h5, h6, h7, h8, h9, h10, h11⟩ := h
  simp [State.outside, busTick, tickedPpu, *]

@[simp] theorem State.setPc_outside (s : State) (v : Addr) : (s.setPc v).outside = s.outside := rfl
@[simp] theorem State.setA_outside (s : State) (v : Byte) : (s.setA v).outside = s.outside := rfl
@[simp] theorem State.setX_outside (s : State) (v : Byte) : (s.setX v).outside = s.outside := rfl
@[simp] theorem State.setY_outside (s : State) (v : Byte) : (s.setY v).outside = s.outside := rfl
@[simp] theorem State.setSp_outside (s : State) (v : Byte) : (s.setSp v).outside = s.outside := rfl
@[simp] theorem State.setP_outside (s : State) (v : Byte) : (s.setP v).outside = s.outside := rfl
@[simp] theorem loadA_outside (s : State) (v : Byte) : (loadA v s).outside = s.outside := rfl
@[simp] theorem loadX_outside (s : State) (v : Byte) : (loadX v s).outside = s.outside := rfl
@[simp] theorem loadY_outside (s : State) (v : Byte) : (loadY v s).outside = s.outside := rfl
@[simp] theorem addCore_outside (s : State) (m : Byte) : (addCore m s).outside = s.outside := rfl
@[simp] theorem compareWith_outside (s : State) (r m : Byte) : (compareWith r m s).outside = s.outside := rfl
@[simp] theorem pop8State_outside (s : State) : (pop8State s).outside = s.outside := rfl
@[simp] theorem pop16State_outside (s : State) : (pop16State s).outside = s.outside := rfl
@[simp] theorem leaveTrap_outside (s : State) : (leaveTrap s).outside = s.outside := rfl

/-- How an instruction ends, from the state `w` before its tick. -/
theorem leaves_busTick {u w : State} (c : Nat) (ho : w.outside = u.outside) :
    Leaves u c w.registers (statusBits w.p) (busTick c w) :=
  ⟨rfl, rfl, busTick_outside_congr c ho⟩

theorem leaves_of {u w : State} {c : Nat} {r : Registers} {f : StatusBits} (hr : w.registers = r)
    (hf : statusBits w.p = f) (ho : w.outside = u.outside) : Leaves u c r f (busTick c w) := by
  subst hr hf
  exact leaves_busTick c ho

/-! ## The shapes -/

theorem readThen_cases (src : Source) (f : Byte → State → State) (s : State) :
    (sourceOk src s ∧ readThen src f s = .next (busTick (sourceCycles src s)
      ((f (sourceValue src s) (sourceAfter src s)).setPc (s.pc + sourceLength src)))) ∨
    (¬ sourceOk src s ∧ readThen src f s = .fault (.unmappedPpuRead s.ppu.v)) := by
  rcases readSource_cases src s with ⟨h, e⟩ | ⟨h, e⟩
  · exact .inl ⟨h, by rw [readThen, e]; rfl⟩
  · exact .inr ⟨h, by rw [readThen, e]⟩

theorem storeByte_cases (o : MemOperand) (d : Byte) (s : State) :
    (writeOk s (effAddr o s) d ∧ ∃ u, busWrite (effAddr o s) d s = .done () u ∧
      storeByte o d s = .next (busTick (storeCycles o) (u.setPc (s.pc + memLength o)))) ∨
    (¬ writeOk s (effAddr o s) d ∧ ∃ f, busWrite (effAddr o s) d s = .fatal f ∧ storeByte o d s = .fault f) := by
  rcases busWrite_cases (effAddr o s) d s with ⟨h, u, e, _⟩ | ⟨h, f, e, _⟩
  · exact .inl ⟨h, u, e, by rw [storeByte, e]; rfl⟩
  · exact .inr ⟨h, f, e, by rw [storeByte, e]⟩

theorem modifyThen_cases (o : MemOperand) (result : Byte → State → Byte) (after : Byte → Byte → State → State)
    (s : State) :
    (readOk s (effAddr o s) ∧ ∃ r u, r = result (readValue s (effAddr o s)) (readEffect s (effAddr o s)) ∧
      writeOk (readEffect s (effAddr o s)) (effAddr o s) r ∧
      busWrite (effAddr o s) r (readEffect s (effAddr o s)) = .done () u ∧
      modifyThen o result after s = .next (busTick (modifyCycles o)
        ((after (readValue s (effAddr o s)) r u).setPc (s.pc + memLength o)))) ∨
    (¬ readOk s (effAddr o s) ∧ modifyThen o result after s = .fault (.unmappedPpuRead s.ppu.v)) ∨
    (readOk s (effAddr o s) ∧ ∃ r f, r = result (readValue s (effAddr o s)) (readEffect s (effAddr o s)) ∧
      ¬ writeOk (readEffect s (effAddr o s)) (effAddr o s) r ∧
      busWrite (effAddr o s) r (readEffect s (effAddr o s)) = .fatal f ∧ modifyThen o result after s = .fault f) := by
  rcases busRead_cases s (effAddr o s) with ⟨h, e⟩ | ⟨h, e⟩
  · rcases busWrite_cases (effAddr o s) (result (readValue s (effAddr o s)) (readEffect s (effAddr o s)))
      (readEffect s (effAddr o s)) with ⟨hw, u, e', _⟩ | ⟨hw, f, e', _⟩
    · exact .inl ⟨h, _, u, rfl, hw, e', by simp only [modifyThen, e, e']; rfl⟩
    · exact .inr (.inr ⟨h, _, f, rfl, hw, e', by simp only [modifyThen, e, e']⟩)
  · exact .inr (.inl ⟨h, by rw [modifyThen, e]⟩)

/-! ## From a shape to its rule -/

theorem impliedRule_of {i : Instr} {op : Byte} {cycles : Nat} {regs : State → Registers} {bits : State → StatusBits}
    (f : State → State) (hwf : i.wf = true) (henc : Encodes [op] i) (hex : ∀ s, exec i s = implied cycles f s)
    (ho : ∀ s, (f s).outside = s.outside)
    (hr : ∀ s pc, { (f s).registers with pc := pc } = { regs s with pc := pc })
    (hb : ∀ s, statusBits (f s).p = bits s) : ImpliedRule i op cycles regs bits := by
  refine ⟨hwf, henc, fun s => ⟨_, hex s, ?_⟩⟩
  rw [← hr, ← hb]
  exact leaves_busTick cycles (w := (f s).setPc (s.pc + 1)) (ho s)

theorem immediateRule_of {mk : Byte → Instr} {op : Byte} {regs : Byte → State → Registers}
    {bits : Byte → State → StatusBits} (f : Byte → State → State)
    (henc : ∀ m, (mk m).wf = true ∧ Encodes [op, m] (mk m))
    (hex : ∀ m s, exec (mk m) s = readThen (.imm m) f s) (ho : ∀ m s, (f m s).outside = s.outside)
    (hr : ∀ m s u pc, OnlyDevices s u → { (f m u).registers with pc := pc } = { regs m s with pc := pc })
    (hb : ∀ m s u, OnlyDevices s u → statusBits (f m u).p = bits m s) : ImmediateRule mk op regs bits := by
  refine fun m => ⟨(henc m).1, (henc m).2, fun s => ⟨_, hex m s, ?_⟩⟩
  rw [← hr m s s _ (OnlyDevices.refl s), ← hb m s s (OnlyDevices.refl s)]
  exact leaves_busTick 2 (w := (f m s).setPc (s.pc + 2)) (ho m s)

/-- The rows give the cycles and the length of the model's shape. -/
def Row.agrees (cyc : MemOperand → State → Nat) (r : Row) : Prop :=
  ∀ o s, r.mode = o.mode → r.next s = s.pc + memLength o ∧ r.cost (crossed o s) = cyc o s

theorem readRule_of {mk : MemOperand → Instr} {rows : List Row} {regs : Byte → State → Registers}
    {bits : Byte → State → StatusBits} (f : Byte → State → State)
    (hforms : FormsAre mk rows) (hrows : ∀ r ∈ rows, r.agrees readCycles)
    (hex : ∀ o s, exec (mk o) s = readThen (.mem o) f s)
    (ho : ∀ m s, (f m s).outside = s.outside)
    (hr : ∀ m s u pc, OnlyDevices s u → { (f m u).registers with pc := pc } = { regs m s with pc := pc })
    (hb : ∀ m s u, OnlyDevices s u → statusBits (f m u).p = bits m s) : ReadRule mk rows regs bits := by
  refine ⟨hforms, ?_⟩
  rintro r hrm o hm s m rfl
  obtain ⟨hn, hc⟩ := hrows r hrm o s hm
  rcases readThen_cases (.mem o) f s with ⟨h, e⟩ | ⟨h, e⟩
  · refine ⟨fun _ => ⟨_, (hex o s).trans e, ?_⟩, fun h' => absurd h h'⟩
    have hs := readEffect_onlyDevices s (effAddr o s)
    rw [hn, hc, ← hr _ s _ _ hs, ← hb _ s _ hs]
    exact leaves_busTick _ (w := (f (readValue s (effAddr o s)) (readEffect s (effAddr o s))).setPc (s.pc + memLength o))
      (ho _ _)
  · exact ⟨fun h' => absurd h' h, fun _ => (hex o s).trans e⟩

theorem storeRule_of {mk : MemOperand → Instr} {rows : List Row} {value : State → Byte}
    (hforms : FormsAre mk rows) (hrows : ∀ r ∈ rows, r.agrees fun o _ => storeCycles o)
    (hex : ∀ o s, exec (mk o) s = storeByte o (value s) s) : StoreRule mk rows value := by
  refine ⟨hforms, fun r hrm o hm s => ?_⟩
  obtain ⟨hn, hc⟩ := hrows r hrm o s hm
  rcases storeByte_cases o (value s) s with ⟨h, u, e, e'⟩ | ⟨h, f, e, e'⟩
  · refine ⟨fun _ => ⟨u, _, e, (hex o s).trans e', ?_⟩, fun h' => absurd h h'⟩
    have hu := busWrite_onlyDevices e
    have := leaves_busTick (storeCycles o) (u := u) (w := u.setPc (s.pc + memLength o)) rfl
    rw [hn, hc]
    simpa [State.registers, hu.a, hu.x, hu.y, hu.sp, hu.p] using this
  · exact ⟨fun h' => absurd h' h, fun _ => ⟨f, e, (hex o s).trans e'⟩⟩

theorem modifyRule_of {mk : MemOperand → Instr} {rows : List Row} {result : Byte → State → Byte}
    {regs : Byte → State → Registers} {bits : Byte → State → StatusBits} (res : Byte → State → Byte)
    (after : Byte → Byte → State → State)
    (hforms : FormsAre mk rows) (hrows : ∀ r ∈ rows, r.agrees fun o _ => modifyCycles o)
    (hex : ∀ o s, exec (mk o) s = modifyThen o res after s)
    (hres : ∀ m s u, OnlyDevices s u → res m u = result m s)
    (ho : ∀ m r s, (after m r s).outside = s.outside)
    (hr : ∀ m s u pc, OnlyDevices s u → { (after m (result m s) u).registers with pc := pc } = { regs m s with pc := pc })
    (hb : ∀ m s u, OnlyDevices s u → statusBits (after m (result m s) u).p = bits m s) :
    ModifyRule mk rows result regs bits := by
  refine ⟨hforms, ?_⟩
  rintro r hrm o hm s m w rfl rfl
  have hre := hres (readValue s (effAddr o s)) s _ (readEffect_onlyDevices s (effAddr o s))
  obtain ⟨hn, hc⟩ := hrows r hrm o s hm
  rcases modifyThen_cases o res after s with ⟨h, q, u, rfl, hw, e, e'⟩ | ⟨h, e⟩ | ⟨h, q, f, rfl, hw, e, e'⟩
  · rw [hre] at hw e e'
    refine ⟨fun _ _ => ⟨u, _, e, (hex o s).trans e', ?_⟩, fun h' => absurd h h', fun _ h' => absurd hw h'⟩
    have hu := (readEffect_onlyDevices s (effAddr o s)).trans (busWrite_onlyDevices e)
    rw [hn, hc, ← hr _ s u _ hu, ← hb _ s u hu]
    exact leaves_busTick _ (w := (after (readValue s (effAddr o s)) (result (readValue s (effAddr o s)) s) u).setPc
      (s.pc + memLength o)) (ho _ _ _)
  · exact ⟨fun h' => absurd h' h, fun _ => (hex o s).trans e, fun h' => absurd h' h⟩
  · rw [hre] at hw e
    exact ⟨fun _ h' => absurd h' hw, fun h' => absurd h h', fun _ _ => ⟨f, e, (hex o s).trans e'⟩⟩

end Sys2Proof.Machine
end

