-- ==== Sys2Proof/Laws/Effects.lean ====
section
/-! SUPPORT. What an instruction can do, said once for all of them: every instruction that gives a next state other than BRK in Halt mode is some accesses and register writes (`Effect`), then one tick of 2 to 8 cycles. -/

namespace Sys2Proof.Machine

/-! ## What a write does to the NMI request and to the other devices -/

/-- What a read leaves of PPUCTRL and of the NMI request (60_exceptions.md R282, R294). -/
theorem readEffect_nmi (s : State) (a : Addr) :
    (readEffect s a).ppu.nmiPending = s.ppu.nmiPending ∧ (readEffect s a).ppu.ctrl = s.ppu.ctrl := by
  rcases readEffect_cases s a with ⟨_, e⟩ | ⟨_, e⟩ | ⟨_, e⟩ | ⟨_, _, _, e⟩ <;> rw [e]
  · exact ⟨(portAfterRead_keeps s.cart (portOf a) s.ppu).2.2.2.2.2.2.2.2.2.2.2.1,
      (portAfterRead_keeps s.cart (portOf a) s.ppu).2.2.2.1⟩
  · exact ⟨rfl, rfl⟩
  · exact ⟨rfl, rfl⟩
  · exact ⟨rfl, rfl⟩

theorem dmaCopy_nmi (n : Nat) (src : Addr) (s t : State) (h : dmaCopy n src s = .done () t) :
    t.ppu.nmiPending = s.ppu.nmiPending ∧ t.ppu.ctrl = s.ppu.ctrl := by
  induction n generalizing src s with
  | zero => cases h; exact ⟨rfl, rfl⟩
  | succ n ih =>
    rcases dmaCopy_succ_cases n src s with ⟨_, e⟩ | ⟨_, e⟩
    · have hn := readEffect_nmi s src
      have := ih _ _ (e ▸ h)
      exact ⟨this.1.trans hn.1, this.2.trans hn.2⟩
    · rw [e] at h
      cases h

/-- A write raises the NMI request only through a PPUCTRL whose bit 7 is then set (60_exceptions.md R292). -/
theorem busWrite_nmi {s t : State} {a : Addr} {d : Byte} (h : busWrite a d s = .done () t)
    (hn : t.ppu.nmiPending = true) : s.ppu.nmiPending = true ∨ t.ppu.ctrl.getLsbD 7 = true := by
  unfold busWrite at h
  split at h
  · cases h; exact .inl hn
  · split at h
    · generalize portOf a = port at h
      cases port with
      | ctrl =>
        cases h
        simp only [State.setPpu_ppu, ppuWriteCtrl, Bool.or_eq_true, Bool.and_eq_true] at hn ⊢
        exact hn.imp id fun ⟨⟨_, h⟩, _⟩ => h
      | addr =>
        cases h
        simp only [State.setPpu_ppu, ppuWriteAddr] at hn
        split at hn <;> exact .inl hn
      | scroll =>
        cases h
        simp only [State.setPpu_ppu, ppuWriteScroll] at hn
        split at hn <;> exact .inl hn
      | data =>
        simp only [portWrite] at h
        split at h
        · cases h
        · cases h
          simp only [State.setPpu_ppu, ppuWriteData] at hn
          split at hn <;> exact .inl hn
      | mask | status | oamAddr | oamData => cases h; exact .inl hn
    · split at h
      · unfold oamDma at h
        cases hc : dmaCopy 256 (word16 d 0x00) s with
        | fatal f => rw [hc] at h; cases h
        | done v u =>
          rw [hc] at h
          cases h
          exact .inl ((dmaCopy_nmi _ _ _ _ hc).1 ▸ hn)
      · split at h
        · cases h; exact .inl hn
        · split at h <;> cases h
          exact .inl hn

/-- A write to RAM changes no device. -/
theorem busWrite_devices {s t : State} {a : Addr} {d : Byte} (h : busWrite a d s = .done () t) (ha : isStorage a = true) :
    t.ppu = s.ppu ∧ t.joy1 = s.joy1 ∧ t.joy2 = s.joy2 := by
  rw [isStorage_iff] at ha
  unfold busWrite at h
  split at h
  · cases h; exact ⟨rfl, rfl, rfl⟩
  · rw [if_neg (by omega), if_neg (by omega), if_neg (by omega), if_neg (by omega)] at h
    cases h

/-! ## What the CPU registers keep -/

/-- The registers and flags the instruction is not listed to write are the same (10_state.md R21 to R23, R26, R27). -/
structure KeepsRegisters (j : Instr) (s w : State) : Prop where
  a : writesA j = false → w.a = s.a
  x : writesX j = false → w.x = s.x
  y : writesY j = false → w.y = s.y
  sp : writesSp j = false → w.sp = s.sp
  c : writesC j = false → (statusBits w.p).c = (statusBits s.p).c
  z : writesZN j = false → (statusBits w.p).z = (statusBits s.p).z
  n : writesZN j = false → (statusBits w.p).n = (statusBits s.p).n
  i : writesI j = false → (statusBits w.p).i = (statusBits s.p).i
  d : writesD j = false → (statusBits w.p).d = (statusBits s.p).d
  v : writesV j = false → (statusBits w.p).v = (statusBits s.p).v
  b : j ≠ .plp → j ≠ .rti → (statusBits w.p).b = (statusBits s.p).b
  u : j ≠ .plp → j ≠ .rti → (statusBits w.p).u = (statusBits s.p).u

/-- The bits of P between, when the registers before are the same. -/
theorem KeepsRegisters.of_onlyDevices {i : Instr} {s u w : State} (h : OnlyDevices s u) (h' : KeepsRegisters i u w) :
    KeepsRegisters i s w := by
  obtain ⟨h1, h2, h3, h4, h5, h6, h7, h8, h9, h10, h11, h12⟩ := h'
  rw [h.a] at h1
  rw [h.x] at h2
  rw [h.y] at h3
  rw [h.sp] at h4
  rw [h.p] at h5 h6 h7 h8 h9 h10 h11 h12
  exact ⟨h1, h2, h3, h4, h5, h6, h7, h8, h9, h10, h11, h12⟩

/-- `w` is `u` with CPU registers written as the instruction may write them; P keeps B = 0 and U = 1. -/
structure RegisterEffect (i : Instr) (u w : State) : Prop where
  outside : w.outside = u.outside
  keeps : KeepsRegisters i u w
  flags : flagB u.p = false → flagU u.p = true → flagB w.p = false ∧ flagU w.p = true

theorem KeepsRegisters.refl (i : Instr) (s : State) : KeepsRegisters i s s := by constructor <;> intros <;> rfl

theorem RegisterEffect.refl (i : Instr) (s : State) : RegisterEffect i s s := ⟨rfl, .refl i s, fun h h' => ⟨h, h'⟩⟩

/-- An instruction other than PLP and RTI keeps B and U because it does not write them. -/
theorem RegisterEffect.of_keeps {i : Instr} {u w : State} (ho : w.outside = u.outside) (hk : KeepsRegisters i u w)
    (h1 : i ≠ .plp) (h2 : i ≠ .rti) : RegisterEffect i u w :=
  ⟨ho, hk, fun hb hu => ⟨(hk.b h1 h2).trans hb, (hk.u h1 h2).trans hu⟩⟩

theorem RegisterEffect.setPc {i : Instr} {u w : State} (h : RegisterEffect i u w) (pc : Addr) :
    RegisterEffect i u (w.setPc pc) :=
  ⟨h.outside, ⟨h.keeps.a, h.keeps.x, h.keeps.y, h.keeps.sp, h.keeps.c, h.keeps.z, h.keeps.n, h.keeps.i, h.keeps.d,
    h.keeps.v, h.keeps.b, h.keeps.u⟩, h.flags⟩

/-- The registers are not part of what a tick or an access looks at. -/
theorem sound_of_outside {s w : State} (h : s.Sound) (ho : w.outside = s.outside) (hb : flagB w.p = false)
    (hu : flagU w.p = true) : w.Sound := by
  simp only [State.outside, Outside.mk.injEq] at ho
  obtain ⟨h1, h2, h3, h4, h5, h6, h7, h8, h9, h10, h11⟩ := ho
  exact ⟨h1 ▸ h.ram, h9 ▸ h.cart, h6 ▸ h9 ▸ h.ppu, hb, hu, h7 ▸ h.index1, h8 ▸ h.index2, h8 ▸ h.strobe2⟩

/-- P as PLP and RTI load it has B = 0 and U = 1 (10_state.md R26). -/
theorem pulledStatus_flags (d : Byte) : flagB (pulledStatus d) = false ∧ flagU (pulledStatus d) = true := by
  have := statusBits_pulled d
  exact ⟨congrArg StatusBits.b this, congrArg StatusBits.u this⟩

/-! ## The effect of an instruction before its tick -/

/-- All that an instruction's accesses and register writes can do, from `s` to the state `w` in which its tick starts. -/
structure Effect (i : Instr) (s w : State) : Prop where
  keeps : KeepsRegisters i s w
  cycles : w.cycles = s.cycles
  frameReady : w.frameReady = s.frameReady
  cart : w.cart = s.cart
  build : w.build = s.build
  halted : w.halted = s.halted
  stall : s.dmaStall ≤ w.dmaStall ∧ w.dmaStall ≤ s.dmaStall + 514
  /-- RAM changes only where the instruction stores or pushes (20_memory.md R54). -/
  ram : ∀ k, (∀ b ∈ targetAddrs i s ++ pushAddrs i s, b.toNat < 0x2000 → ramIndex b ≠ k) →
    memGet w.ram k = memGet s.ram k
  /-- The devices change only through their addresses. -/
  devices : (∀ b ∈ sourceAddrs i s ++ targetAddrs i s, isStorage b = true) →
    w.ppu = s.ppu ∧ w.joy1 = s.joy1 ∧ w.joy2 = s.joy2
  /-- The NMI request rises only with PPUCTRL bit 7 (60_exceptions.md R292). -/
  nmi : w.ppu.nmiPending = true → s.ppu.nmiPending = true ∨ w.ppu.ctrl.getLsbD 7 = true
  sound : s.Sound → w.Sound

/-- Register writes after accesses. -/
theorem Effect.registers {i : Instr} {s u w : State} (h : OnlyDevices s u) (hw : RegisterEffect i u w)
    (stall : s.dmaStall ≤ u.dmaStall ∧ u.dmaStall ≤ s.dmaStall + 514)
    (ram : ∀ k, (∀ b ∈ targetAddrs i s ++ pushAddrs i s, b.toNat < 0x2000 → ramIndex b ≠ k) →
      memGet u.ram k = memGet s.ram k)
    (devices : (∀ b ∈ sourceAddrs i s ++ targetAddrs i s, isStorage b = true) →
      u.ppu = s.ppu ∧ u.joy1 = s.joy1 ∧ u.joy2 = s.joy2)
    (nmi : u.ppu.nmiPending = true → s.ppu.nmiPending = true ∨ u.ppu.ctrl.getLsbD 7 = true)
    (sound : s.Sound → u.Sound) : Effect i s w := by
  have ho := hw.outside
  simp only [State.outside, Outside.mk.injEq] at ho
  obtain ⟨h1, h2, h3, h4, h5, h6, h7, h8, h9, h10, h11⟩ := ho
  refine ⟨hw.keeps.of_onlyDevices h, h2.trans h.cycles, h3.trans h.frameReady, h9.trans h.cart, h10.trans h.build,
    h11.trans h.halted, h5 ▸ stall, h1 ▸ ram, ?_, h6 ▸ nmi, fun hs => ?_⟩
  · rw [h6, h7, h8]; exact devices
  · have hu := sound hs
    obtain ⟨hb, hu'⟩ := hw.flags hu.flagB hu.flagU
    exact sound_of_outside hu hw.outside hb hu'

theorem Effect.of_registers {i : Instr} {s w : State} (hw : RegisterEffect i s w) : Effect i s w :=
  Effect.registers (OnlyDevices.refl s) hw (by omega) (fun _ _ => rfl) (fun _ => ⟨rfl, rfl, rfl⟩) Or.inl id

/-- A read, then register writes. -/
theorem Effect.of_read {i : Instr} {s w : State} (src : Source) (hw : RegisterEffect i (sourceAfter src s) w)
    (hsrc : ∀ o, src = .mem o → effAddr o s ∈ sourceAddrs i s) : Effect i s w := by
  refine Effect.registers (sourceAfter_onlyDevices src s) hw (by simp) (fun _ _ => by rw [sourceAfter_ram]) ?_ ?_
    (fun h => sourceAfter_sound h src)
  · intro h
    cases src with
    | imm d => exact ⟨rfl, rfl, rfl⟩
    | mem o =>
      have := h _ (List.mem_append_left _ (hsrc o rfl))
      simp only [sourceAfter, readEffect_of_isStorage this, and_self]
  · intro h
    cases src with
    | imm d => exact .inl h
    | mem o => exact .inl ((readEffect_nmi s _).1 ▸ h)

/-- Two reads, then register writes. -/
theorem Effect.of_two_reads {i : Instr} {s w : State} {a b : Addr} (hw : RegisterEffect i (readEffect (readEffect s a) b) w)
    (hsrc : sourceAddrs i s = [a, b]) : Effect i s w := by
  refine Effect.registers ((readEffect_onlyDevices s a).trans (readEffect_onlyDevices _ b)) hw (by simp)
    (fun _ _ => by simp) ?_ ?_ (fun h => readEffect_sound (readEffect_sound h a) b)
  · intro h
    rw [hsrc] at h
    rw [readEffect_of_isStorage (h a (by simp)), readEffect_of_isStorage (h b (by simp))]
    exact ⟨rfl, rfl, rfl⟩
  · exact fun h => .inl ((readEffect_nmi s a).1 ▸ (readEffect_nmi _ b).1 ▸ h)

/-- A write of a byte at `a`. -/
theorem Effect.of_write {i : Instr} {s r u w : State} {a : Addr} {d : Byte} (hr : r = s ∨ r = readEffect s a)
    (h : busWrite a d r = .done () u) (hw : RegisterEffect i u w) (ha : targetAddrs i s = [a]) : Effect i s w := by
  have hsr : OnlyDevices s r ∧ r.ram = s.ram ∧ r.dmaStall = s.dmaStall ∧ (s.Sound → r.Sound) ∧
      (r.ppu.nmiPending = true → s.ppu.nmiPending = true) ∧
      (isStorage a = true → r = s) := by
    rcases hr with rfl | rfl
    · exact ⟨OnlyDevices.refl _, rfl, rfl, id, id, fun _ => rfl⟩
    · exact ⟨readEffect_onlyDevices s a, readEffect_ram s a, readEffect_dmaStall s a, fun h => readEffect_sound h a,
        fun h => (readEffect_nmi s a).1 ▸ h, fun h => readEffect_of_isStorage h⟩
  obtain ⟨hd, hram, hst, hso, hn, hsto⟩ := hsr
  refine Effect.registers (hd.trans (busWrite_onlyDevices h)) hw ?_ ?_ ?_ ?_ fun hs => busWrite_sound h (hso hs)
  · rw [busWrite_dmaStall h, hst]
    split
    · unfold dmaStallFor
      split <;> omega
    · omega
  · intro k hk
    rw [busWrite_ram h, hram]
    split
    · rename_i hlt
      exact memGet_memSet_of_ne _ _ (hk a (by simp [ha]) hlt).symm
    · rfl
  · intro hall
    have hst := hall a (by simp [ha])
    rw [hsto hst] at h
    exact busWrite_devices h hst
  · intro h'
    rcases busWrite_nmi h h' with h1 | h1
    · exact .inl (hn h1)
    · exact .inr h1

/-- A push changes one byte of the stack page. -/
theorem push8_ram (d : Byte) (s : State) : (push8 d s).ram = memSet s.ram (ramIndex (stackAddr s.sp)) d := rfl

theorem stackAddr_lt (sp : Byte) : (stackAddr sp).toNat < 0x2000 := by
  have := sp.isLt
  simp only [toNat_stackAddr]
  omega

/-- Pushes go to RAM (10_state.md R24). -/
theorem pushAddrs_lt {i : Instr} {s : State} {b : Addr} (h : b ∈ pushAddrs i s) : b.toNat < 0x2000 := by
  have h0 : ∀ sp, b = stackAddr sp → b.toNat < 0x2000 := fun sp h => h ▸ stackAddr_lt sp
  cases i <;> simp only [pushAddrs, List.mem_cons, List.not_mem_nil, or_false] at h
  · exact h.elim (h0 _) (h0 _)
  · exact h0 _ h
  · exact h0 _ h
  · split at h
    · simp only [List.mem_cons, List.not_mem_nil, or_false] at h
      rcases h with h | h | h <;> exact h0 _ h
    · cases h

/-- `u` is `s` but for RAM, SP and PC: all that pushes can change (10_state.md R24). -/
structure Pushed (s u : State) : Prop where
  a : u.a = s.a
  x : u.x = s.x
  y : u.y = s.y
  p : u.p = s.p
  cycles : u.cycles = s.cycles
  frameReady : u.frameReady = s.frameReady
  pendingNmi : u.pendingNmi = s.pendingNmi
  dmaStall : u.dmaStall = s.dmaStall
  ppu : u.ppu = s.ppu
  joy1 : u.joy1 = s.joy1
  joy2 : u.joy2 = s.joy2
  cart : u.cart = s.cart
  build : u.build = s.build
  halted : u.halted = s.halted

theorem Pushed.refl (s : State) : Pushed s s := ⟨rfl, rfl, rfl, rfl, rfl, rfl, rfl, rfl, rfl, rfl, rfl, rfl, rfl, rfl⟩

theorem Pushed.push8 {s u : State} (h : Pushed s u) (d : Byte) : Pushed s (push8 d u) :=
  ⟨h.a, h.x, h.y, h.p, h.cycles, h.frameReady, h.pendingNmi, h.dmaStall, h.ppu, h.joy1, h.joy2, h.cart, h.build, h.halted⟩

/-- Pushes, then register writes. -/
theorem Effect.of_push {i : Instr} {s u w : State} (hd : Pushed s u) (hsp : writesSp i = true)
    (hram : ∀ k, (∀ b ∈ pushAddrs i s, ramIndex b ≠ k) → memGet u.ram k = memGet s.ram k)
    (hs : s.Sound → u.Sound) (hw : RegisterEffect i u w) : Effect i s w := by
  have how := hw.outside
  simp only [State.outside, Outside.mk.injEq] at how
  obtain ⟨g1, g2, g3, g4, g5, g6, g7, g8, g9, g10, g11⟩ := how
  obtain ⟨k1, k2, k3, k4, k5, k6, k7, k8, k9, k10, k11, k12⟩ := hw.keeps
  rw [hd.a] at k1
  rw [hd.x] at k2
  rw [hd.y] at k3
  rw [hd.p] at k5 k6 k7 k8 k9 k10 k11 k12
  refine ⟨⟨k1, k2, k3, fun h => absurd (h.symm.trans hsp) (by decide), k5, k6, k7, k8, k9, k10, k11, k12⟩,
    g2.trans hd.cycles, g3.trans hd.frameReady, g9.trans hd.cart, g10.trans hd.build, g11.trans hd.halted,
    by rw [g5, hd.dmaStall]; omega, ?_, fun _ => ⟨g6.trans hd.ppu, g7.trans hd.joy1, g8.trans hd.joy2⟩,
    fun h => .inl ((g6.trans hd.ppu) ▸ h), fun h => ?_⟩
  · intro k hk
    rw [g1]
    refine hram k fun b hb => hk b (List.mem_append_right _ hb) ?_
    exact pushAddrs_lt hb
  · have hu := hs h
    obtain ⟨hb, hu'⟩ := hw.flags hu.flagB hu.flagU
    exact sound_of_outside hu hw.outside hb hu'

/-! ## Every instruction -/

/-- How an instruction goes on: an effect, then the tick of its cycles; or BRK in Halt mode. -/
def Completes (i : Instr) (s t : State) : Prop :=
  (∃ w c, Effect i s w ∧ 2 ≤ c ∧ c ≤ 8 ∧ t = busTick c w) ∨
    (i = .brk ∧ s.build.brkMode = .halt ∧ t = (s.setPc (s.pc + 1)).setHalted true)

theorem completes_implied {i : Instr} {s t : State} {c : Nat} {f : State → State} (h : implied c f s = .next t)
    (hf : RegisterEffect i s (f s)) (hc : 2 ≤ c ∧ c ≤ 8) : Completes i s t := by
  cases h
  exact .inl ⟨_, c, Effect.of_registers (hf.setPc _), hc.1, hc.2, rfl⟩

theorem completes_finish {i : Instr} {s t : State} {pc : Addr} {c : Nat} (h : finish pc c s = .next t)
    (hc : 2 ≤ c ∧ c ≤ 8) : Completes i s t := by
  cases h
  exact .inl ⟨_, c, Effect.of_registers ((RegisterEffect.refl i s).setPc _), hc.1, hc.2, rfl⟩

theorem sourceCycles_le (src : Source) (s : State) : 2 ≤ sourceCycles src s ∧ sourceCycles src s ≤ 8 := by
  cases src with
  | imm d => simp [sourceCycles]
  | mem o =>
    simp only [sourceCycles, readCycles]
    cases o <;> simp only [readBaseCycles] <;> split <;> omega

theorem completes_read {i : Instr} {src : Source} {s t : State} {f : Byte → State → State}
    (h : readThen src f s = .next t) (hf : ∀ m u, RegisterEffect i u (f m u))
    (hsrc : ∀ o, src = .mem o → effAddr o s ∈ sourceAddrs i s) : Completes i s t := by
  rcases readThen_cases src f s with ⟨_, e⟩ | ⟨_, e⟩
  · rw [e] at h
    cases h
    exact .inl ⟨_, _, Effect.of_read src ((hf _ _).setPc _) hsrc, (sourceCycles_le src s).1, (sourceCycles_le src s).2, rfl⟩
  · rw [e] at h
    cases h

theorem completes_store {i : Instr} {o : MemOperand} {d : Byte} {s t : State} (h : storeByte o d s = .next t)
    (ha : targetAddrs i s = [effAddr o s]) : Completes i s t := by
  rcases storeByte_cases o d s with ⟨_, u, e, e'⟩ | ⟨_, f, _, e'⟩
  · rw [e'] at h
    cases h
    refine .inl ⟨_, _, Effect.of_write (.inl rfl) e ((RegisterEffect.refl i u).setPc _) ha, ?_, ?_, rfl⟩ <;>
      cases o <;> simp [storeCycles]
  · rw [e'] at h
    cases h

theorem completes_modify {i : Instr} {o : MemOperand} {result : Byte → State → Byte}
    {after : Byte → Byte → State → State} {s t : State} (h : modifyThen o result after s = .next t)
    (hf : ∀ m r u, RegisterEffect i u (after m r u)) (ha : targetAddrs i s = [effAddr o s]) : Completes i s t := by
  rcases modifyThen_cases o result after s with ⟨_, r, u, _, _, e, e'⟩ | ⟨_, e'⟩ | ⟨_, r, f, _, _, _, e'⟩
  · rw [e'] at h
    cases h
    refine .inl ⟨_, _, Effect.of_write (.inr rfl) e ((hf _ _ _).setPc _) ha, ?_, ?_, rfl⟩ <;> cases o <;> simp [modifyCycles]
  · rw [e'] at h
    cases h
  · rw [e'] at h
    cases h

theorem completes_branch {i : Instr} {cond : Bool} {off : Byte} {s t : State} (h : branchIf cond off s = .next t) :
    Completes i s t := by
  unfold branchIf at h
  split at h
  · exact completes_finish h (by split <;> omega)
  · exact completes_finish h (by omega)

/-- Every instruction that gives a next state completes so. -/
theorem exec_completes {i : Instr} {s t : State} (h : exec i s = .next t) : Completes i s t := by
  cases i with
  | tax | tay | tsx | txa | txs | tya | inx | iny | dex | dey | clc | sec | cld | sed | cli | sei | clv | nop =>
    simp only [exec, execTax, execTay, execTsx, execTxa, execTxs, execTya, execInx, execIny, execDex, execDey,
      execClc, execSec, execCld, execSed, execCli, execSei, execClv, execNop] at h
    refine completes_implied h (.of_keeps rfl ?_ ?_ ?_) (by decide)
    · constructor <;> intro h' <;> first | rfl | (cases h'; done) | simp [StatusBits.nz]
    · simp
    · simp
  | lda src | ldx src | ldy src | adc src | sbc src | and src | ora src | eor src | cmp src | cpx src | cpy src =>
    simp only [exec, execLda, execLdx, execLdy, execAdc, execSbc, execAnd, execOra, execEor, execCmp, execCpx,
      execCpy] at h
    refine completes_read h (fun m u => .of_keeps rfl ?_ ?_ ?_) (fun o e => e ▸ List.mem_singleton.2 rfl)
    · constructor <;> intro h' <;> first | rfl | (cases h'; done) | simp [StatusBits.nz, addFlags, compareFlags]
    · simp
    · simp
  | bit o | lax o =>
    simp only [exec, execBit, execLax] at h
    refine completes_read h (fun m u => .of_keeps rfl ?_ ?_ ?_) (fun o e => by cases e; exact List.mem_singleton.2 rfl)
    · constructor <;> intro h' <;> first | rfl | (cases h'; done) | simp [StatusBits.nz, bitFlags]
    · simp
    · simp
  | sta o | stx o | sty o | sax o =>
    exact completes_store h rfl
  | asl tgt | lsr tgt | rol tgt | ror tgt =>
    simp only [exec, execAsl, execLsr, execRol, execRor] at h
    cases tgt with
    | acc =>
      simp only [shiftThen] at h
      refine completes_implied h (.of_keeps rfl ?_ ?_ ?_) (by decide)
      · constructor <;> intro h' <;> first | rfl | (cases h'; done) | simp [StatusBits.nz, shiftFlags]
      · simp
      · simp
    | mem o =>
      simp only [shiftThen] at h
      refine completes_modify h (fun m r u => .of_keeps rfl ?_ ?_ ?_) rfl
      · constructor <;> intro h' <;> first | rfl | (cases h'; done) | simp [StatusBits.nz, shiftFlags]
      · simp
      · simp
  | inc o | dec o | dcp o | isb o | slo o | rla o | sre o | rra o =>
    simp only [exec, execInc, execDec, execDcp, execIsb, execSlo, execRla, execSre, execRra] at h
    refine completes_modify h (fun m r u => .of_keeps rfl ?_ ?_ ?_) rfl
    · constructor <;> intro h' <;> first | rfl | (cases h'; done) | simp [StatusBits.nz, addFlags, compareFlags]
    · simp
    · simp
  | bcc off | bcs off | beq off | bne off | bmi off | bpl off | bvc off | bvs off =>
    exact completes_branch h
  | sbcU d =>
    simp only [exec, execSbcU] at h
    refine completes_read h (fun m u => .of_keeps rfl ?_ ?_ ?_) (fun o e => by cases e)
    · constructor <;> intro h' <;> first | rfl | (cases h'; done) | simp [StatusBits.nz, addFlags]
    · simp
    · simp
  | nopU op n =>
    cases n with
    | imp => exact completes_implied (f := fun s => s) h (RegisterEffect.refl _ s) (by decide)
    | imm d => exact completes_finish h (by decide)
    | mem o => exact completes_finish h (sourceCycles_le (.mem o) s)
  | undefined op => cases h
  | jmp j =>
    cases j with
    | abs w => exact completes_finish h (by decide)
    | ind w =>
      rcases busRead_cases s w with ⟨_, e⟩ | ⟨_, e⟩
      · rcases busRead_cases (readEffect s w) (jumpHighAddr w) with ⟨_, e'⟩ | ⟨_, e'⟩
        · simp only [exec, execJmp, e, e', andThen_done] at h
          cases h
          exact .inl ⟨_, 5, Effect.of_two_reads ((RegisterEffect.refl _ _).setPc _) rfl, by decide, by decide, rfl⟩
        · simp only [exec, execJmp, e, e', andThen_done, andThen_fatal] at h
          cases h
      · simp only [exec, execJmp, e, andThen_fatal] at h
        cases h
  | jsr w =>
    cases h
    refine .inl ⟨_, 6, Effect.of_push ((Pushed.refl s).push8 _ |>.push8 _) rfl ?_ (fun h => push16_sound h _)
      ((RegisterEffect.refl _ _).setPc w), by decide, by decide, rfl⟩
    intro k hk
    exact (memGet_memSet_of_ne _ _ (hk (stackAddr (s.sp - 1)) (by simp [pushAddrs])).symm).trans
      (memGet_memSet_of_ne _ _ (hk (stackAddr s.sp) (by simp [pushAddrs])).symm)
  | pha | php =>
    cases h
    refine .inl ⟨_, 3, Effect.of_push ((Pushed.refl s).push8 _) rfl ?_ (fun h => push8_sound h _)
      ((RegisterEffect.refl _ _).setPc _), by decide, by decide, rfl⟩
    intro k hk
    exact memGet_memSet_of_ne _ _ (hk (stackAddr s.sp) (by simp [pushAddrs])).symm
  | rts =>
    have hw : RegisterEffect .rts s (pop16State s) := by
      refine .of_keeps rfl ?_ (by simp) (by simp)
      constructor <;> intro h' <;> first | rfl | (cases h') | exact fun _ => rfl
    cases h
    exact .inl ⟨_, 6, Effect.of_registers (hw.setPc _), by decide, by decide, rfl⟩
  | pla =>
    simp only [exec, execPla] at h
    refine completes_implied h (.of_keeps rfl ?_ (by simp) (by simp)) (by decide)
    constructor <;> intro h' <;> first | rfl | (cases h'; done) | simp [StatusBits.nz]
  | plp =>
    simp only [exec, execPlp] at h
    refine completes_implied h ⟨rfl, ?_, fun _ _ => pulledStatus_flags _⟩ (by decide)
    constructor <;> intro h' <;> first | rfl | (cases h') | exact absurd rfl h'
  | rti =>
    have hw : RegisterEffect .rti s (leaveTrap s) := by
      refine ⟨rfl, ?_, fun _ _ => pulledStatus_flags _⟩
      constructor <;> intro h' <;> first | rfl | (cases h') | exact absurd rfl h' | exact fun h => absurd rfl h
    cases h
    exact .inl ⟨_, 6, Effect.of_registers (hw.setPc _), by decide, by decide, rfl⟩
  | brk =>
    simp only [exec, execBrk] at h
    cases hb : s.build.brkMode with
    | halt =>
      rw [hb] at h
      cases h
      exact .inr ⟨rfl, hb, rfl⟩
    | hardware =>
      rw [hb] at h
      have hw : RegisterEffect .brk (push8 (pushedByProgram s.p) (push16 (s.pc + 2) s))
          (enterTrap (s.pc + 2) (pushedByProgram s.p) s) := by
        refine .of_keeps rfl ?_ (by simp) (by simp)
        constructor <;> intro h' <;> first | rfl | (cases h'; done) | simp
      have he := Effect.of_push (u := push8 (pushedByProgram s.p) (push16 (s.pc + 2) s)) ((Pushed.refl s).push8 _ |>.push8 _ |>.push8 _) rfl ?_
        (fun h => push8_sound (push16_sound h _) _) (hw.setPc (readWord (enterTrap (s.pc + 2) (pushedByProgram s.p) s) brkVector))
      · cases h
        exact .inl ⟨_, 7, he, by decide, by decide, rfl⟩
      · intro k hk
        simp only [pushAddrs, hb] at hk
        refine (memGet_memSet_of_ne _ _ (hk (stackAddr (s.sp - 1 - 1)) ?_).symm).trans ?_
        · simp [BitVec.sub_sub]
        · exact (memGet_memSet_of_ne _ _ (hk (stackAddr (s.sp - 1)) (by simp)).symm).trans
            (memGet_memSet_of_ne _ _ (hk (stackAddr s.sp) (by simp)).symm)

end Sys2Proof.Machine
end

