-- ==== Sys2Proof/Laws/PerInstr.lean ====
section
/-! SUPPORT. The statements made per instruction (LAWS.json): EncodedLength, that the encoding of a well-formed instruction has 1 to 3 bytes (30_encoding.md R91). -/

namespace Sys2Proof.Laws

/-- The encoding of a memory operand has one or two bytes. -/
theorem operand_bytes_length (o : MemOperand) : 1 ≤ o.bytes.length ∧ o.bytes.length ≤ 2 := by
  cases o <;> simp [MemOperand.bytes]

/-- Where every mode a mnemonic has is in its row of 30_encoding.md R105, the encoding is an opcode byte and the operand. -/
theorem encodeMem_length {o : MemOperand} {modes : List MemMode} {ops : List (MemMode × Byte)}
    (hops : ∀ m ∈ modes, (ops.lookup m).isSome = true) (h : o.hasMode modes = true) :
    1 ≤ (encodeMem ops o).length ∧ (encodeMem ops o).length ≤ 3 := by
  obtain ⟨op, hop⟩ := Option.isSome_iff_exists.mp (hops o.mode (of_decide_eq_true h))
  have := operand_bytes_length o
  simp only [encodeMem, hop, List.length_cons]
  omega

theorem encodeSource_length {imm : Byte} {src : Source} {modes : List MemMode} {ops : List (MemMode × Byte)}
    (hops : ∀ m ∈ modes, (ops.lookup m).isSome = true) (h : src.hasMode modes = true) :
    1 ≤ (encodeSource imm ops src).length ∧ (encodeSource imm ops src).length ≤ 3 := by
  cases src with
  | imm d => simp [encodeSource]
  | mem o => exact encodeMem_length hops h

theorem encodeTarget_length {acc : Byte} {tgt : Target} {modes : List MemMode} {ops : List (MemMode × Byte)}
    (hops : ∀ m ∈ modes, (ops.lookup m).isSome = true) (h : tgt.hasMode modes = true) :
    1 ≤ (encodeTarget acc ops tgt).length ∧ (encodeTarget acc ops tgt).length ≤ 3 := by
  cases tgt with
  | acc => simp [encodeTarget]
  | mem o => exact encodeMem_length hops h

theorem encodeNop_length (opcode : Byte) (n : NopOperand) :
    1 ≤ (encodeNop opcode n).length ∧ (encodeNop opcode n).length ≤ 3 := by
  cases n with
  | imp => simp [encodeNop]
  | imm d => simp [encodeNop]
  | mem o =>
    have := operand_bytes_length o
    simp only [encodeNop, List.length_cons]
    omega

namespace EncodedLength

/-- The length of an encoding (30_encoding.md R91). -/
def Statement (i : Instr) : Prop := i.wf = true → 1 ≤ (encode i).length ∧ (encode i).length ≤ 3

theorem lda (src : Source) : Statement (.lda src) := fun h => encodeSource_length (by decide) h
theorem ldx (src : Source) : Statement (.ldx src) := fun h => encodeSource_length (by decide) h
theorem ldy (src : Source) : Statement (.ldy src) := fun h => encodeSource_length (by decide) h
theorem sta (o : MemOperand) : Statement (.sta o) := fun h => encodeMem_length (by decide) h
theorem stx (o : MemOperand) : Statement (.stx o) := fun h => encodeMem_length (by decide) h
theorem sty (o : MemOperand) : Statement (.sty o) := fun h => encodeMem_length (by decide) h
theorem tax : Statement (.tax) := fun _ => by simp [encode]
theorem tay : Statement (.tay) := fun _ => by simp [encode]
theorem tsx : Statement (.tsx) := fun _ => by simp [encode]
theorem txa : Statement (.txa) := fun _ => by simp [encode]
theorem txs : Statement (.txs) := fun _ => by simp [encode]
theorem tya : Statement (.tya) := fun _ => by simp [encode]
theorem adc (src : Source) : Statement (.adc src) := fun h => encodeSource_length (by decide) h
theorem sbc (src : Source) : Statement (.sbc src) := fun h => encodeSource_length (by decide) h
theorem and (src : Source) : Statement (.and src) := fun h => encodeSource_length (by decide) h
theorem ora (src : Source) : Statement (.ora src) := fun h => encodeSource_length (by decide) h
theorem eor (src : Source) : Statement (.eor src) := fun h => encodeSource_length (by decide) h
theorem asl (tgt : Target) : Statement (.asl tgt) := fun h => encodeTarget_length (by decide) h
theorem lsr (tgt : Target) : Statement (.lsr tgt) := fun h => encodeTarget_length (by decide) h
theorem rol (tgt : Target) : Statement (.rol tgt) := fun h => encodeTarget_length (by decide) h
theorem ror (tgt : Target) : Statement (.ror tgt) := fun h => encodeTarget_length (by decide) h
theorem bit (o : MemOperand) : Statement (.bit o) := fun h => encodeMem_length (by decide) h
theorem bcc (off : Byte) : Statement (.bcc off) := fun _ => by simp [encode]
theorem bcs (off : Byte) : Statement (.bcs off) := fun _ => by simp [encode]
theorem beq (off : Byte) : Statement (.beq off) := fun _ => by simp [encode]
theorem bne (off : Byte) : Statement (.bne off) := fun _ => by simp [encode]
theorem bmi (off : Byte) : Statement (.bmi off) := fun _ => by simp [encode]
theorem bpl (off : Byte) : Statement (.bpl off) := fun _ => by simp [encode]
theorem bvc (off : Byte) : Statement (.bvc off) := fun _ => by simp [encode]
theorem bvs (off : Byte) : Statement (.bvs off) := fun _ => by simp [encode]
theorem cmp (src : Source) : Statement (.cmp src) := fun h => encodeSource_length (by decide) h
theorem cpx (src : Source) : Statement (.cpx src) := fun h => encodeSource_length (by decide) h
theorem cpy (src : Source) : Statement (.cpy src) := fun h => encodeSource_length (by decide) h
theorem inc (o : MemOperand) : Statement (.inc o) := fun h => encodeMem_length (by decide) h
theorem dec (o : MemOperand) : Statement (.dec o) := fun h => encodeMem_length (by decide) h
theorem inx : Statement (.inx) := fun _ => by simp [encode]
theorem iny : Statement (.iny) := fun _ => by simp [encode]
theorem dex : Statement (.dex) := fun _ => by simp [encode]
theorem dey : Statement (.dey) := fun _ => by simp [encode]
theorem clc : Statement (.clc) := fun _ => by simp [encode]
theorem sec : Statement (.sec) := fun _ => by simp [encode]
theorem cld : Statement (.cld) := fun _ => by simp [encode]
theorem sed : Statement (.sed) := fun _ => by simp [encode]
theorem cli : Statement (.cli) := fun _ => by simp [encode]
theorem sei : Statement (.sei) := fun _ => by simp [encode]
theorem clv : Statement (.clv) := fun _ => by simp [encode]
theorem jmp (j : JumpOperand) : Statement (.jmp j) := fun _ => by cases j <;> simp [encode]
theorem jsr (w : Addr) : Statement (.jsr w) := fun _ => by simp [encode]
theorem rts : Statement (.rts) := fun _ => by simp [encode]
theorem rti : Statement (.rti) := fun _ => by simp [encode]
theorem pha : Statement (.pha) := fun _ => by simp [encode]
theorem pla : Statement (.pla) := fun _ => by simp [encode]
theorem php : Statement (.php) := fun _ => by simp [encode]
theorem plp : Statement (.plp) := fun _ => by simp [encode]
theorem brk : Statement (.brk) := fun _ => by simp [encode]
theorem nop : Statement (.nop) := fun _ => by simp [encode]
theorem lax (o : MemOperand) : Statement (.lax o) := fun h => encodeMem_length (by decide) h
theorem sax (o : MemOperand) : Statement (.sax o) := fun h => encodeMem_length (by decide) h
theorem dcp (o : MemOperand) : Statement (.dcp o) := fun h => encodeMem_length (by decide) h
theorem isb (o : MemOperand) : Statement (.isb o) := fun h => encodeMem_length (by decide) h
theorem slo (o : MemOperand) : Statement (.slo o) := fun h => encodeMem_length (by decide) h
theorem rla (o : MemOperand) : Statement (.rla o) := fun h => encodeMem_length (by decide) h
theorem sre (o : MemOperand) : Statement (.sre o) := fun h => encodeMem_length (by decide) h
theorem rra (o : MemOperand) : Statement (.rra o) := fun h => encodeMem_length (by decide) h
theorem nopU (opcode : Byte) (n : NopOperand) : Statement (.nopU opcode n) := fun _ => encodeNop_length opcode n
theorem sbcU (d : Byte) : Statement (.sbcU d) := fun _ => by simp [encode]
theorem undefined (opcode : Byte) : Statement (.undefined opcode) := fun _ => by simp [encode]

end EncodedLength

end Sys2Proof.Laws
end

