-- ==== Sys2Proof/Laws/Steps.lean ====
section
/-! SUPPORT. What the parts of a step around `exec` can do: the NMI poll and service, and the fetch. -/

namespace Sys2Proof.Machine

/-! ## The poll and the service -/

theorem pollNmi_of_pending {s : State} (h : s.pendingNmi = true) :
    pollNmi s = (s.setPendingNmi false).setPpu { s.ppu with nmiPending := false } := by simp [pollNmi, h]

theorem pollNmi_of_not_pending {s : State} (h : s.pendingNmi = false) : pollNmi s = s := by simp [pollNmi, h]

theorem takePendingNmi_of_not_pending {s : State} (h : s.pendingNmi = false) : takePendingNmi s = s := by
  simp [takePendingNmi, h]

/-- The state a serviced NMI leaves (60_exceptions.md R274, R283). -/
theorem takePendingNmi_of_pending {s : State} (h : s.pendingNmi = true) :
    takePendingNmi s = serviceNmi (pollNmi s) := by simp only [takePendingNmi, h, if_true]

theorem serviceNmi_eq (s : State) :
    serviceNmi s = (busTick nmiServiceCycles (enterTrap s.pc (pushedByNmi s.p) s)).setPc
      (readWord (busTick nmiServiceCycles (enterTrap s.pc (pushedByNmi s.p) s)) nmiVector) := rfl

theorem pollNmi_sound {s : State} (h : s.Sound) : (pollNmi s).Sound := by
  unfold pollNmi
  split
  · exact { h with ppu := { h.ppu with } }
  · exact h

/-- The service leaves what holds between steps (60_exceptions.md R274, R280). -/
theorem serviceNmi_inv {s : State} (h : s.Sound) : (serviceNmi s).Inv := by
  have hi := busTick_inv (enterTrap_sound h s.pc (pushedByNmi s.p)) nmiServiceCycles
  rw [serviceNmi_eq]
  exact { hi with }

theorem takePendingNmi_inv {s : State} (h : s.Inv) : (takePendingNmi s).Inv := by
  unfold takePendingNmi
  split
  · exact serviceNmi_inv (pollNmi_sound h.toSound)
  · exact h

@[simp] theorem serviceNmi_cart (s : State) : (serviceNmi s).cart = s.cart := by
  rw [serviceNmi_eq]
  simp only [State.setPc_cart, busTick_cart, enterTrap_cart]

@[simp] theorem serviceNmi_build (s : State) : (serviceNmi s).build = s.build := by
  rw [serviceNmi_eq]
  simp only [State.setPc_build, busTick_build, enterTrap_build]

@[simp] theorem pollNmi_cart (s : State) : (pollNmi s).cart = s.cart := by
  unfold pollNmi
  split <;> simp only [State.setPpu_cart, State.setPendingNmi_cart]

@[simp] theorem pollNmi_build (s : State) : (pollNmi s).build = s.build := by
  unfold pollNmi
  split <;> simp only [State.setPpu_build, State.setPendingNmi_build]

@[simp] theorem takePendingNmi_cart (s : State) : (takePendingNmi s).cart = s.cart := by
  unfold takePendingNmi
  split
  · rw [serviceNmi_cart, pollNmi_cart]
  · rfl

@[simp] theorem takePendingNmi_build (s : State) : (takePendingNmi s).build = s.build := by
  unfold takePendingNmi
  split
  · rw [serviceNmi_build, pollNmi_build]
  · rfl

/-! ## Reads alone -/

/-- `u` comes from `s` by bus reads: what a fetch can do (60_exceptions.md R260 items 2 and 3). -/
structure ByReads (s u : State) : Prop where
  only : OnlyDevices s u
  ram : u.ram = s.ram
  dmaStall : u.dmaStall = s.dmaStall
  nmi : u.ppu.nmiPending = s.ppu.nmiPending
  ctrl : u.ppu.ctrl = s.ppu.ctrl
  sound : s.Sound → u.Sound

theorem ByReads.refl (s : State) : ByReads s s := ⟨OnlyDevices.refl s, rfl, rfl, rfl, rfl, id⟩

theorem ByReads.trans {s t u : State} (h : ByReads s t) (h' : ByReads t u) : ByReads s u :=
  ⟨h.only.trans h'.only, h'.ram.trans h.ram, h'.dmaStall.trans h.dmaStall, h'.nmi.trans h.nmi, h'.ctrl.trans h.ctrl,
    fun hs => h'.sound (h.sound hs)⟩

theorem ByReads.read (s : State) (a : Addr) : ByReads s (readEffect s a) :=
  ⟨readEffect_onlyDevices s a, readEffect_ram s a, readEffect_dmaStall s a, (readEffect_nmi s a).1, (readEffect_nmi s a).2,
    fun h => readEffect_sound h a⟩

/-- A bus read that completes is one of these. -/
theorem byReads_of_busRead {s u : State} {a : Addr} {b : Byte} (h : busRead a s = .done b u) : ByReads s u := by
  rcases busRead_cases s a with ⟨_, e⟩ | ⟨_, e⟩
  · rw [e] at h
    cases h
    exact ByReads.read s a
  · rw [e] at h
    cases h

/-- A fatal read names `v`, which is then above $3FFF (60_exceptions.md R269). -/
theorem busRead_fatal {s : State} {a : Addr} {f : Fault} (h : busRead a s = .fatal f) :
    f = .unmappedPpuRead s.ppu.v ∧ 0x4000 ≤ s.ppu.v.toNat ∧ isPort .data a = true := by
  rcases busRead_cases s a with ⟨_, e⟩ | ⟨hn, e⟩
  · rw [e] at h
    cases h
  · rw [e] at h
    cases h
    simp only [readOk, Classical.not_imp, Nat.not_lt] at hn
    exact ⟨rfl, hn.2, hn.1⟩

/-- The fetch only reads. -/
theorem fetchInstr_byReads {s u : State} {i : Instr} (h : fetchInstr s = .done i u) : ByReads s u := by
  unfold fetchInstr at h
  cases h0 : busRead s.pc s with
  | fatal f => rw [h0] at h; cases h
  | done op s1 =>
    rw [h0, andThen_done] at h
    have b0 := byReads_of_busRead h0
    split at h
    · cases h; exact b0
    · cases h1 : busRead (s.pc + 1) s1 with
      | fatal f => rw [h1] at h; cases h
      | done d s2 =>
        rw [h1, andThen_done] at h
        cases h
        exact b0.trans (byReads_of_busRead h1)
    · cases h; exact b0
    · cases h1 : busRead (s.pc + 1) s1 with
      | fatal f => rw [h1] at h; cases h
      | done lo s2 =>
        rw [h1, andThen_done] at h
        cases h2 : busRead (s.pc + 2) s2 with
        | fatal f => rw [h2] at h; cases h
        | done hi s3 =>
          rw [h2, andThen_done] at h
          cases h
          exact (b0.trans (byReads_of_busRead h1)).trans (byReads_of_busRead h2)

/-- A step that gives a next state has fetched an instruction and executed it (60_exceptions.md R260). -/
theorem step_next {s t : State} (h : step s = .next t) :
    s.halted = false ∧ ∃ i u, fetchInstr (takePendingNmi s) = .done i u ∧ ByReads (takePendingNmi s) u ∧ exec i u = .next t := by
  unfold step at h
  split at h
  · cases h
  · rename_i hh
    refine ⟨by simpa using hh, ?_⟩
    split at h
    · cases h
    · rename_i i u hf
      exact ⟨i, u, hf, fetchInstr_byReads hf, h⟩

/-! ## The NMI request of a tick -/

/-- Dots raise the NMI request only with PPUCTRL bit 7 (60_exceptions.md R301). -/
theorem ppuTick_nmi (cart : Cartridge) (n : Nat) (u : Ppu) (h : (ppuTick cart n u).nmiPending = true) :
    u.nmiPending = true ∨ u.ctrl.getLsbD 7 = true := by
  induction n generalizing u with
  | zero => exact .inl h
  | succ n ih =>
    rcases ih _ h with h' | h'
    · simp only [ppuDot, ppuSpriteZero, ppuEvents] at h'
      split at h'
      · simp only [Bool.or_eq_true] at h'
        exact h'
      · split at h'
        · cases h'
        · exact .inl h'
    · exact .inr h'

end Sys2Proof.Machine
end

