-- ==== Sys2Proof/Tests/Slice0.lean ====
section
/-! SUPPORT. The model's own tests: ill-formed terms refused, encodings written out from 30_encoding.md R105 and R115, one step per vector of 95_test_vectors.md section 3 (the docstring names it), and a witness of the hypotheses of each statement. -/

open Sys2Proof Sys2Proof.Machine

namespace Sys2Proof.Tests

/-! ## Well-formedness: one ill-formed term for each check -/

theorem test_wf_refuses_modes_a_mnemonic_lacks :
    (Instr.lda (.mem (.zpy 0))).wf = false ∧ (Instr.ldx (.mem (.zpx 0))).wf = false ∧
    (Instr.ldy (.mem (.aby 0))).wf = false ∧ (Instr.cpx (.mem (.zpx 0))).wf = false ∧
    (Instr.sta (.zpy 0)).wf = false ∧ (Instr.stx (.aby 0)).wf = false ∧ (Instr.sty (.abx 0)).wf = false ∧
    (Instr.bit (.abx 0)).wf = false ∧ (Instr.inc (.izx 0)).wf = false ∧ (Instr.asl (.mem (.aby 0))).wf = false ∧
    (Instr.lax (.abx 0)).wf = false ∧ (Instr.sax (.izy 0)).wf = false ∧ (Instr.dcp (.zpy 0)).wf = false := by
  decide

theorem test_wf_refuses_bytes_of_another_instruction :
    (Instr.nopU 0xEA .imp).wf = false ∧ (Instr.nopU 0x04 .imp).wf = false ∧ (Instr.nopU 0x80 (.mem (.zp 0))).wf = false ∧
    (Instr.nopU 0x0C (.mem (.aby 0))).wf = false ∧ (Instr.undefined 0x00).wf = false := by
  decide

/-! ## Encodings, written out bit by bit from 30_encoding.md R105 -/

/-- The bytes decode to the instruction, and to nothing more. -/
def reads (bytes : List Byte) (i : Instr) : Bool :=
  match decode bytes with
  | .ok (j, rest) => decide (j = i) && rest.isEmpty
  | .error _ => false

theorem test_decode_loads :
    (reads [0b10110001, 0x34] (.lda (.mem (.izy 0x34))) &&
    reads [0b10110110, 0x34] (.ldx (.mem (.zpy 0x34))) &&
    reads [0b10100000, 0x34] (.ldy (.imm 0x34)) &&
    reads [0b10000001, 0x34] (.sta (.izx 0x34)) &&
    reads [0b10001110, 0x34, 0x12] (.stx (.abs 0x1234)) &&
    reads [0b10010100, 0x34] (.sty (.zpx 0x34)) &&
    reads [0b10101010] .tax &&
    reads [0b10101000] .tay &&
    reads [0b10111010] .tsx &&
    reads [0b10001010] .txa &&
    reads [0b10011010] .txs &&
    reads [0b10011000] .tya) = true := by
  decide

theorem test_decode_arithmetic :
    (reads [0b01101001, 0x34] (.adc (.imm 0x34)) &&
    reads [0b11111101, 0x34, 0x12] (.sbc (.mem (.abx 0x1234))) &&
    reads [0b00100101, 0x34] (.and (.mem (.zp 0x34))) &&
    reads [0b00011001, 0x34, 0x12] (.ora (.mem (.aby 0x1234))) &&
    reads [0b01010101, 0x34] (.eor (.mem (.zpx 0x34))) &&
    reads [0b00001010] (.asl .acc) &&
    reads [0b01011110, 0x34, 0x12] (.lsr (.mem (.abx 0x1234))) &&
    reads [0b00100110, 0x34] (.rol (.mem (.zp 0x34))) &&
    reads [0b01101110, 0x34, 0x12] (.ror (.mem (.abs 0x1234))) &&
    reads [0b00101100, 0x34, 0x12] (.bit (.abs 0x1234))) = true := by
  decide

theorem test_decode_branches :
    (reads [0b10010000, 0x34] (.bcc 0x34) &&
    reads [0b10110000, 0x34] (.bcs 0x34) &&
    reads [0b11110000, 0x34] (.beq 0x34) &&
    reads [0b11010000, 0x34] (.bne 0x34) &&
    reads [0b00110000, 0x34] (.bmi 0x34) &&
    reads [0b00010000, 0x34] (.bpl 0x34) &&
    reads [0b01010000, 0x34] (.bvc 0x34) &&
    reads [0b01110000, 0x34] (.bvs 0x34) &&
    reads [0b11000001, 0x34] (.cmp (.mem (.izx 0x34))) &&
    reads [0b11100000, 0x34] (.cpx (.imm 0x34)) &&
    reads [0b11000100, 0x34] (.cpy (.mem (.zp 0x34)))) = true := by
  decide

theorem test_decode_increments :
    (reads [0b11111110, 0x34, 0x12] (.inc (.abx 0x1234)) &&
    reads [0b11010110, 0x34] (.dec (.zpx 0x34)) &&
    reads [0b11101000] .inx &&
    reads [0b11001000] .iny &&
    reads [0b11001010] .dex &&
    reads [0b10001000] .dey &&
    reads [0b00011000] .clc &&
    reads [0b00111000] .sec &&
    reads [0b11011000] .cld &&
    reads [0b11111000] .sed &&
    reads [0b01011000] .cli &&
    reads [0b01111000] .sei &&
    reads [0b10111000] .clv) = true := by
  decide

theorem test_decode_jumps :
    (reads [0b01101100, 0x34, 0x12] (.jmp (.ind 0x1234)) &&
    reads [0b00100000, 0x34, 0x12] (.jsr 0x1234) &&
    reads [0b01100000] .rts &&
    reads [0b01000000] .rti &&
    reads [0b01001000] .pha &&
    reads [0b01101000] .pla &&
    reads [0b00001000] .php &&
    reads [0b00101000] .plp &&
    reads [0b00000000] .brk &&
    reads [0b11101010] .nop) = true := by
  decide

theorem test_decode_undocumented :
    (reads [0b10110111, 0x34] (.lax (.zpy 0x34)) &&
    reads [0b10000011, 0x34] (.sax (.izx 0x34)) &&
    reads [0b11011011, 0x34, 0x12] (.dcp (.aby 0x1234)) &&
    reads [0b11110011, 0x34] (.isb (.izy 0x34)) &&
    reads [0b00001111, 0x34, 0x12] (.slo (.abs 0x1234)) &&
    reads [0b00111111, 0x34, 0x12] (.rla (.abx 0x1234)) &&
    reads [0b01000111, 0x34] (.sre (.zp 0x34)) &&
    reads [0b01110111, 0x34] (.rra (.zpx 0x34)) &&
    reads [0b00011100, 0x34, 0x12] (.nopU 0x1C (.mem (.abx 0x1234))) &&
    reads [0b11101011, 0x34] (.sbcU 0x34) &&
    reads [0b00000010] (.undefined 0x02)) = true := by
  decide

/-- The decoder refuses what is no whole instruction. -/
theorem test_decode_rejects :
    decode [] = .error .noBytes ∧ decode [0xA9] = .error (.operandMissing 0xA9) ∧
    decode [0x4C, 0x00] = .error (.operandMissing 0x4C) :=
  ⟨rfl, rfl, rfl⟩

/-- Table words: bit 0 is the least significant bit of the first byte; bits above `nbits` are 0. -/
theorem test_decodeTableWord :
    decodeTableWord 24 0x1234BD = some (.lda (.mem (.abx 0x1234))) ∧
    decodeTableWord 8 0x1234BD = some (.lda (.mem (.abx 0x0000))) := by
  decide

/-! ## One step each, on the harness of 95_test_vectors.md section 1 -/

/-- Bytes placed from an address on. -/
def place : Addr → List Byte → State → State
  | _, [], s => s
  | a, d :: ds, s => place (a + 1) ds (placeByte a d s)

/-- The harness: `code` at `org`, PC there, the NMI and BRK vectors $9000. -/
def machine (org : Addr) (code : List Byte) : State :=
  place org code (place 0xFFFA [0x00, 0x90, 0x00, 0x80, 0x00, 0x90] { State.reset with pc := org })

/-- The outcome is a next state of which `p` holds. -/
def after (o : Host.Outcome State Fault Refusal) (p : State → Bool) : Bool :=
  match o with
  | .next t => p t
  | .fault _ | .refused _ => false

/-- One step ends with these registers, P and cycle count, and with exactly these bytes of RAM stored. -/
def ends (s : State) (r : Registers) (p : Byte) (cycles : Nat) (stored : List (Addr × Byte)) : Bool :=
  after (step s) fun t =>
    t.registers == r && t.p == p && t.cycles == cycles &&
      t.ram == stored.foldl (fun m c => memSet m (ramIndex c.1) c.2) s.ram

/-- One step stops with this fault. -/
def stops (s : State) (f : Fault) : Bool :=
  match step s with
  | .fault g => g == f
  | .next _ | .refused _ => false

/-- LS6. -/
theorem test_lda_LS6 :
    ends ({ machine 0x8000 [0xBD, 0xFF, 0x02] with x := 0x01, ram := [(0x300, 0xC1)] })
      ⟨0xC1, 0x01, 0x00, 0xFD, 0x8003⟩ 0xA4 5 [] = true := by
  decide

/-- LS9. -/
theorem test_lda_LS9 :
    ends ({ machine 0x8000 [0xA1, 0xFE] with x := 0x01, ram := [(0x0, 0x02), (0xFF, 0x34), (0x100, 0x07), (0x234, 0x99)] })
      ⟨0x99, 0x01, 0x00, 0xFD, 0x8002⟩ 0xA4 6 [] = true := by
  decide

/-- LS15. -/
theorem test_ldx_LS15 :
    ends ({ machine 0x8000 [0xB6, 0xFF] with y := 0x02, ram := [(0x1, 0x09)] })
      ⟨0x00, 0x09, 0x02, 0xFD, 0x8002⟩ 0x24 4 [] = true := by
  decide

/-- LS16. -/
theorem test_ldx_LS16 :
    ends ({ machine 0x8000 [0xBE, 0xFF, 0x00] with y := 0x01, ram := [(0x100, 0x33)] })
      ⟨0x00, 0x33, 0x01, 0xFD, 0x8003⟩ 0x24 5 [] = true := by
  decide

/-- LS18. -/
theorem test_ldy_LS18 :
    ends ({ machine 0x8000 [0xBC, 0xF0, 0x02] with x := 0x10, ram := [(0x300, 0x80)] })
      ⟨0x00, 0x10, 0x80, 0xFD, 0x8003⟩ 0xA4 5 [] = true := by
  decide

/-- LS20. -/
theorem test_sta_LS20 :
    ends ({ machine 0x8000 [0x9D, 0xFF, 0x02] with a := 0x5A, x := 0x01 })
      ⟨0x5A, 0x01, 0x00, 0xFD, 0x8003⟩ 0x24 5 [(0x0300, 0x5A)] = true := by
  decide

/-- LS22. -/
theorem test_sta_LS22 :
    ends ({ machine 0x8000 [0x91, 0x40] with a := 0x77, y := 0xFF, ram := [(0x40, 0x01), (0x41, 0x02)] })
      ⟨0x77, 0x00, 0xFF, 0xFD, 0x8002⟩ 0x24 6 [(0x0300, 0x77)] = true := by
  decide

/-- LS26. -/
theorem test_stx_LS26 :
    ends ({ machine 0x8000 [0x96, 0x10] with x := 0xAB, y := 0x04 })
      ⟨0x00, 0xAB, 0x04, 0xFD, 0x8002⟩ 0x24 4 [(0x0014, 0xAB)] = true := by
  decide

/-- LS27. -/
theorem test_sty_LS27 :
    ends ({ machine 0x8000 [0x8C, 0x00, 0x03] with y := 0xCD })
      ⟨0x00, 0x00, 0xCD, 0xFD, 0x8003⟩ 0x24 4 [(0x0300, 0xCD)] = true := by
  decide

/-- LS28. -/
theorem test_tax_LS28 :
    ends ({ machine 0x8000 [0xAA] with a := 0x80 })
      ⟨0x80, 0x80, 0x00, 0xFD, 0x8001⟩ 0xA4 2 [] = true := by
  decide

/-- LS29. -/
theorem test_tay_LS29 :
    ends ({ machine 0x8000 [0xA8] with a := 0x00, p := 0xA4 })
      ⟨0x00, 0x00, 0x00, 0xFD, 0x8001⟩ 0x26 2 [] = true := by
  decide

/-- LS30. -/
theorem test_tsx_LS30 :
    ends (machine 0x8000 [0xBA])
      ⟨0x00, 0xFD, 0x00, 0xFD, 0x8001⟩ 0xA4 2 [] = true := by
  decide

/-- LS31. -/
theorem test_txa_LS31 :
    ends ({ machine 0x8000 [0x8A] with x := 0x00, a := 0x55 })
      ⟨0x00, 0x00, 0x00, 0xFD, 0x8001⟩ 0x26 2 [] = true := by
  decide

/-- LS32. -/
theorem test_txs_LS32 :
    ends ({ machine 0x8000 [0x9A] with x := 0x00, p := 0x24 })
      ⟨0x00, 0x00, 0x00, 0x00, 0x8001⟩ 0x24 2 [] = true := by
  decide

/-- LS33. -/
theorem test_tya_LS33 :
    ends ({ machine 0x8000 [0x98] with y := 0xFF })
      ⟨0xFF, 0x00, 0xFF, 0xFD, 0x8001⟩ 0xA4 2 [] = true := by
  decide

/-- AL5. -/
theorem test_adc_AL5 :
    ends ({ machine 0x8000 [0x69, 0x09] with a := 0x09, p := 0x2C })
      ⟨0x12, 0x00, 0x00, 0xFD, 0x8002⟩ 0x2C 2 [] = true := by
  decide

/-- AL7. -/
theorem test_adc_AL7 :
    ends ({ machine 0x8000 [0x69, 0xD0] with a := 0x90 })
      ⟨0x60, 0x00, 0x00, 0xFD, 0x8002⟩ 0x65 2 [] = true := by
  decide

/-- AL10. -/
theorem test_sbc_AL10 :
    ends ({ machine 0x8000 [0xE9, 0x01] with a := 0x00, p := 0x25 })
      ⟨0xFF, 0x00, 0x00, 0xFD, 0x8002⟩ 0xA4 2 [] = true := by
  decide

/-- AL11. -/
theorem test_sbc_AL11 :
    ends ({ machine 0x8000 [0xE9, 0x01] with a := 0x80, p := 0x25 })
      ⟨0x7F, 0x00, 0x00, 0xFD, 0x8002⟩ 0x65 2 [] = true := by
  decide

/-- AL15. -/
theorem test_and_AL15 :
    ends ({ machine 0x8000 [0x29, 0x0F] with a := 0xF0 })
      ⟨0x00, 0x00, 0x00, 0xFD, 0x8002⟩ 0x26 2 [] = true := by
  decide

/-- AL16. -/
theorem test_ora_AL16 :
    ends ({ machine 0x8000 [0x09, 0x80] with a := 0x01 })
      ⟨0x81, 0x00, 0x00, 0xFD, 0x8002⟩ 0xA4 2 [] = true := by
  decide

/-- AL18. -/
theorem test_eor_AL18 :
    ends ({ machine 0x8000 [0x49, 0xFF] with a := 0x0F })
      ⟨0xF0, 0x00, 0x00, 0xFD, 0x8002⟩ 0xA4 2 [] = true := by
  decide

/-- AL20. -/
theorem test_asl_AL20 :
    ends ({ machine 0x8000 [0x0A] with a := 0x41, p := 0x25 })
      ⟨0x82, 0x00, 0x00, 0xFD, 0x8001⟩ 0xA4 2 [] = true := by
  decide

/-- AL22. -/
theorem test_asl_AL22 :
    ends ({ machine 0x8000 [0x1E, 0xFF, 0x02] with x := 0x01, ram := [(0x300, 0x01)] })
      ⟨0x00, 0x01, 0x00, 0xFD, 0x8003⟩ 0x24 7 [(0x0300, 0x02)] = true := by
  decide

/-- AL23. -/
theorem test_lsr_AL23 :
    ends ({ machine 0x8000 [0x4A] with a := 0x01 })
      ⟨0x00, 0x00, 0x00, 0xFD, 0x8001⟩ 0x27 2 [] = true := by
  decide

/-- AL24. -/
theorem test_lsr_AL24 :
    ends ({ machine 0x8000 [0x46, 0x10] with p := 0xA4, ram := [(0x10, 0xFE)] })
      ⟨0x00, 0x00, 0x00, 0xFD, 0x8002⟩ 0x24 5 [(0x0010, 0x7F)] = true := by
  decide

/-- AL26. -/
theorem test_rol_AL26 :
    ends ({ machine 0x8000 [0x2A] with a := 0x40, p := 0x25 })
      ⟨0x81, 0x00, 0x00, 0xFD, 0x8001⟩ 0xA4 2 [] = true := by
  decide

/-- AL27. -/
theorem test_rol_AL27 :
    ends ({ machine 0x8000 [0x26, 0x10] with ram := [(0x10, 0xFF)] })
      ⟨0x00, 0x00, 0x00, 0xFD, 0x8002⟩ 0xA5 5 [(0x0010, 0xFE)] = true := by
  decide

/-- AL29. -/
theorem test_ror_AL29 :
    ends ({ machine 0x8000 [0x6A] with a := 0x00, p := 0x25 })
      ⟨0x80, 0x00, 0x00, 0xFD, 0x8001⟩ 0xA4 2 [] = true := by
  decide

/-- AL30. -/
theorem test_ror_AL30 :
    ends ({ machine 0x8000 [0x6E, 0x00, 0x02] with p := 0x25, ram := [(0x200, 0x03)] })
      ⟨0x00, 0x00, 0x00, 0xFD, 0x8003⟩ 0xA5 6 [(0x0200, 0x81)] = true := by
  decide

/-- AL31. -/
theorem test_bit_AL31 :
    ends ({ machine 0x8000 [0x24, 0x10] with a := 0x0F, ram := [(0x10, 0xC0)] })
      ⟨0x0F, 0x00, 0x00, 0xFD, 0x8002⟩ 0xE6 3 [] = true := by
  decide

/-- AL32. -/
theorem test_bit_AL32 :
    ends ({ machine 0x8000 [0x24, 0x10] with a := 0xFF, p := 0xE4, ram := [(0x10, 0x3F)] })
      ⟨0xFF, 0x00, 0x00, 0xFD, 0x8002⟩ 0x24 3 [] = true := by
  decide

/-- BC10. -/
theorem test_bcc_BC10 :
    ends (machine 0x80FB [0x90, 0x03])
      ⟨0x00, 0x00, 0x00, 0xFD, 0x8100⟩ 0x24 4 [] = true := by
  decide

/-- BC12. -/
theorem test_bcc_BC12 :
    ends (machine 0x80FE [0x90, 0x00])
      ⟨0x00, 0x00, 0x00, 0xFD, 0x8100⟩ 0x24 3 [] = true := by
  decide

/-- BC3. -/
theorem test_bcs_BC3 :
    ends ({ machine 0x8000 [0xB0, 0xFE] with p := 0x25 })
      ⟨0x00, 0x00, 0x00, 0xFD, 0x8000⟩ 0x25 3 [] = true := by
  decide

/-- BC4. -/
theorem test_beq_BC4 :
    ends ({ machine 0x8000 [0xF0, 0x7F] with p := 0x26 })
      ⟨0x00, 0x00, 0x00, 0xFD, 0x8081⟩ 0x26 3 [] = true := by
  decide

/-- BC5. -/
theorem test_bne_BC5 :
    ends (machine 0x8000 [0xD0, 0x80])
      ⟨0x00, 0x00, 0x00, 0xFD, 0x7F82⟩ 0x24 4 [] = true := by
  decide

/-- BC13. -/
theorem test_bne_BC13 :
    ends (machine 0x8100 [0xD0, 0xFD])
      ⟨0x00, 0x00, 0x00, 0xFD, 0x80FF⟩ 0x24 4 [] = true := by
  decide

/-- BC6. -/
theorem test_bmi_BC6 :
    ends ({ machine 0x8000 [0x30, 0x10] with p := 0xA4 })
      ⟨0x00, 0x00, 0x00, 0xFD, 0x8012⟩ 0xA4 3 [] = true := by
  decide

/-- BC7. -/
theorem test_bpl_BC7 :
    ends ({ machine 0x8000 [0x10, 0x10] with p := 0xA4 })
      ⟨0x00, 0x00, 0x00, 0xFD, 0x8002⟩ 0xA4 2 [] = true := by
  decide

/-- BC8. -/
theorem test_bvc_BC8 :
    ends (machine 0x8000 [0x50, 0x05])
      ⟨0x00, 0x00, 0x00, 0xFD, 0x8007⟩ 0x24 3 [] = true := by
  decide

/-- BC9. -/
theorem test_bvs_BC9 :
    ends ({ machine 0x8000 [0x70, 0x05] with p := 0x64 })
      ⟨0x00, 0x00, 0x00, 0xFD, 0x8007⟩ 0x64 3 [] = true := by
  decide

/-- BC17. -/
theorem test_cmp_BC17 :
    ends ({ machine 0x8000 [0xC9, 0x80] with a := 0x00 })
      ⟨0x00, 0x00, 0x00, 0xFD, 0x8002⟩ 0xA4 2 [] = true := by
  decide

/-- BC18. -/
theorem test_cmp_BC18 :
    ends ({ machine 0x8000 [0xC9, 0xFF] with a := 0x00, p := 0x64 })
      ⟨0x00, 0x00, 0x00, 0xFD, 0x8002⟩ 0x64 2 [] = true := by
  decide

/-- BC19. -/
theorem test_cpx_BC19 :
    ends ({ machine 0x8000 [0xE0, 0x10] with x := 0x20 })
      ⟨0x00, 0x20, 0x00, 0xFD, 0x8002⟩ 0x25 2 [] = true := by
  decide

/-- BC20. -/
theorem test_cpy_BC20 :
    ends ({ machine 0x8000 [0xC4, 0x10] with y := 0x05, ram := [(0x10, 0x06)] })
      ⟨0x00, 0x00, 0x05, 0xFD, 0x8002⟩ 0xA4 3 [] = true := by
  decide

/-- ID2. -/
theorem test_inc_ID2 :
    ends ({ machine 0x8000 [0xE6, 0x10] with p := 0x25, ram := [(0x10, 0x7F)] })
      ⟨0x00, 0x00, 0x00, 0xFD, 0x8002⟩ 0xA5 5 [(0x0010, 0x80)] = true := by
  decide

/-- ID3. -/
theorem test_inc_ID3 :
    ends ({ machine 0x8000 [0xFE, 0x00, 0x02] with x := 0x05 })
      ⟨0x00, 0x05, 0x00, 0xFD, 0x8003⟩ 0x24 7 [(0x0205, 0x01)] = true := by
  decide

/-- ID4. -/
theorem test_dec_ID4 :
    ends (machine 0x8000 [0xC6, 0x10])
      ⟨0x00, 0x00, 0x00, 0xFD, 0x8002⟩ 0xA4 5 [(0x0010, 0xFF)] = true := by
  decide

/-- ID5. -/
theorem test_dec_ID5 :
    ends ({ machine 0x8000 [0xCE, 0x00, 0x02] with ram := [(0x200, 0x01)] })
      ⟨0x00, 0x00, 0x00, 0xFD, 0x8003⟩ 0x26 6 [(0x0200, 0x00)] = true := by
  decide

/-- ID7. -/
theorem test_inx_ID7 :
    ends ({ machine 0x8000 [0xE8] with x := 0xFF })
      ⟨0x00, 0x00, 0x00, 0xFD, 0x8001⟩ 0x26 2 [] = true := by
  decide

/-- ID8. -/
theorem test_iny_ID8 :
    ends ({ machine 0x8000 [0xC8] with y := 0x7F })
      ⟨0x00, 0x00, 0x80, 0xFD, 0x8001⟩ 0xA4 2 [] = true := by
  decide

/-- ID9. -/
theorem test_dex_ID9 :
    ends ({ machine 0x8000 [0xCA] with x := 0x00 })
      ⟨0x00, 0xFF, 0x00, 0xFD, 0x8001⟩ 0xA4 2 [] = true := by
  decide

/-- ID10. -/
theorem test_dey_ID10 :
    ends ({ machine 0x8000 [0x88] with y := 0x01 })
      ⟨0x00, 0x00, 0x00, 0xFD, 0x8001⟩ 0x26 2 [] = true := by
  decide

/-- ID11. -/
theorem test_clc_ID11 :
    ends ({ machine 0x8000 [0x18] with p := 0x25 })
      ⟨0x00, 0x00, 0x00, 0xFD, 0x8001⟩ 0x24 2 [] = true := by
  decide

/-- ID12. -/
theorem test_sec_ID12 :
    ends (machine 0x8000 [0x38])
      ⟨0x00, 0x00, 0x00, 0xFD, 0x8001⟩ 0x25 2 [] = true := by
  decide

/-- ID13. -/
theorem test_cld_ID13 :
    ends ({ machine 0x8000 [0xD8] with p := 0x2C })
      ⟨0x00, 0x00, 0x00, 0xFD, 0x8001⟩ 0x24 2 [] = true := by
  decide

/-- ID14. -/
theorem test_sed_ID14 :
    ends (machine 0x8000 [0xF8])
      ⟨0x00, 0x00, 0x00, 0xFD, 0x8001⟩ 0x2C 2 [] = true := by
  decide

/-- ID15. -/
theorem test_cli_ID15 :
    ends (machine 0x8000 [0x58])
      ⟨0x00, 0x00, 0x00, 0xFD, 0x8001⟩ 0x20 2 [] = true := by
  decide

/-- ID16. -/
theorem test_sei_ID16 :
    ends ({ machine 0x8000 [0x78] with p := 0x20 })
      ⟨0x00, 0x00, 0x00, 0xFD, 0x8001⟩ 0x24 2 [] = true := by
  decide

/-- ID17. -/
theorem test_clv_ID17 :
    ends ({ machine 0x8000 [0xB8] with p := 0x64 })
      ⟨0x00, 0x00, 0x00, 0xFD, 0x8001⟩ 0x24 2 [] = true := by
  decide

/-- JS2. -/
theorem test_jmp_JS2 :
    ends ({ machine 0x8000 [0x6C, 0x00, 0x02] with ram := [(0x200, 0x34), (0x201, 0x12)] })
      ⟨0x00, 0x00, 0x00, 0xFD, 0x1234⟩ 0x24 5 [] = true := by
  decide

/-- JS3. -/
theorem test_jmp_JS3 :
    ends ({ machine 0x8000 [0x6C, 0xFF, 0x02] with ram := [(0x200, 0x12), (0x2FF, 0x34), (0x300, 0x56)] })
      ⟨0x00, 0x00, 0x00, 0xFD, 0x1234⟩ 0x24 5 [] = true := by
  decide

/-- JS4. -/
theorem test_jsr_JS4 :
    ends (machine 0x8000 [0x20, 0x10, 0x80])
      ⟨0x00, 0x00, 0x00, 0xFB, 0x8010⟩ 0x24 6 [(0x01FD, 0x80), (0x01FC, 0x02)] = true := by
  decide

/-- JS5. -/
theorem test_jsr_JS5 :
    ends ({ machine 0x8000 [0x20, 0x10, 0x80] with sp := 0x00 })
      ⟨0x00, 0x00, 0x00, 0xFE, 0x8010⟩ 0x24 6 [(0x0100, 0x80), (0x01FF, 0x02)] = true := by
  decide

/-- JS6. -/
theorem test_rts_JS6 :
    ends ({ machine 0x8000 [0x60] with sp := 0xFB, ram := [(0x1FC, 0x02), (0x1FD, 0x80)] })
      ⟨0x00, 0x00, 0x00, 0xFD, 0x8003⟩ 0x24 6 [] = true := by
  decide

/-- JS7. -/
theorem test_rts_JS7 :
    ends ({ machine 0x8000 [0x60] with sp := 0xFB, ram := [(0x1FC, 0xFF), (0x1FD, 0xFF)] })
      ⟨0x00, 0x00, 0x00, 0xFD, 0x0000⟩ 0x24 6 [] = true := by
  decide

/-- JS8. -/
theorem test_rti_JS8 :
    ends ({ machine 0x8000 [0x40] with sp := 0xFA, ram := [(0x1FB, 0xFF), (0x1FC, 0x34), (0x1FD, 0x12)] })
      ⟨0x00, 0x00, 0x00, 0xFD, 0x1234⟩ 0xEF 6 [] = true := by
  decide

/-- JS9. -/
theorem test_rti_JS9 :
    ends ({ machine 0x8000 [0x40] with sp := 0xFA, ram := [(0x1FD, 0x90)] })
      ⟨0x00, 0x00, 0x00, 0xFD, 0x9000⟩ 0x20 6 [] = true := by
  decide

/-- JS11. -/
theorem test_pha_JS11 :
    ends ({ machine 0x8000 [0x48] with a := 0x42, sp := 0x00 })
      ⟨0x42, 0x00, 0x00, 0xFF, 0x8001⟩ 0x24 3 [(0x0100, 0x42)] = true := by
  decide

/-- JS12. -/
theorem test_pla_JS12 :
    ends ({ machine 0x8000 [0x68] with sp := 0xFC, ram := [(0x1FD, 0x80)] })
      ⟨0x80, 0x00, 0x00, 0xFD, 0x8001⟩ 0xA4 4 [] = true := by
  decide

/-- JS13. -/
theorem test_pla_JS13 :
    ends ({ machine 0x8000 [0x68] with sp := 0xFF, a := 0x55 })
      ⟨0x00, 0x00, 0x00, 0x00, 0x8001⟩ 0x26 4 [] = true := by
  decide

/-- JS15. -/
theorem test_php_JS15 :
    ends ({ machine 0x8000 [0x08] with p := 0xE7 })
      ⟨0x00, 0x00, 0x00, 0xFC, 0x8001⟩ 0xE7 3 [(0x01FD, 0xF7)] = true := by
  decide

/-- JS16. -/
theorem test_plp_JS16 :
    ends ({ machine 0x8000 [0x28] with sp := 0xFC, ram := [(0x1FD, 0xFF)] })
      ⟨0x00, 0x00, 0x00, 0xFD, 0x8001⟩ 0xEF 4 [] = true := by
  decide

/-- JS17. -/
theorem test_plp_JS17 :
    ends ({ machine 0x8000 [0x28] with sp := 0xFC, ram := [(0x1FD, 0x10)] })
      ⟨0x00, 0x00, 0x00, 0xFD, 0x8001⟩ 0x20 4 [] = true := by
  decide

/-- JS19. -/
theorem test_brk_JS19 :
    ends ({ machine 0x8000 [0x00] with p := 0xE3 })
      ⟨0x00, 0x00, 0x00, 0xFA, 0x9000⟩ 0xE7 7 [(0x01FD, 0x80), (0x01FC, 0x02), (0x01FB, 0xF3)] = true := by
  decide

/-- JS20. -/
theorem test_brk_JS20 :
    ends ({ machine 0x8000 [0x00] with build := { brkMode := .halt, resetPc := .vector } })
      ⟨0x00, 0x00, 0x00, 0xFD, 0x8001⟩ 0x24 0 [] = true := by
  decide

/-- JS21. -/
theorem test_nop_JS21 :
    ends (machine 0x8000 [0xEA])
      ⟨0x00, 0x00, 0x00, 0xFD, 0x8001⟩ 0x24 2 [] = true := by
  decide

/-- UD2. -/
theorem test_lax_UD2 :
    ends ({ machine 0x8000 [0xB3, 0x20] with y := 0x01, ram := [(0x20, 0xFF), (0x21, 0x02)] })
      ⟨0x00, 0x00, 0x01, 0xFD, 0x8002⟩ 0x26 6 [] = true := by
  decide

/-- UD3. -/
theorem test_lax_UD3 :
    ends ({ machine 0x8000 [0xBF, 0x00, 0x02] with y := 0x05, ram := [(0x205, 0x7E)] })
      ⟨0x7E, 0x7E, 0x05, 0xFD, 0x8003⟩ 0x24 4 [] = true := by
  decide

/-- UD4. -/
theorem test_sax_UD4 :
    ends ({ machine 0x8000 [0x87, 0x10] with a := 0xF0, x := 0x3C })
      ⟨0xF0, 0x3C, 0x00, 0xFD, 0x8002⟩ 0x24 3 [(0x0010, 0x30)] = true := by
  decide

/-- UD5. -/
theorem test_sax_UD5 :
    ends ({ machine 0x8000 [0x97, 0xFF] with a := 0xFF, x := 0x0F, y := 0x02 })
      ⟨0xFF, 0x0F, 0x02, 0xFD, 0x8002⟩ 0x24 4 [(0x0001, 0x0F)] = true := by
  decide

/-- UD7. -/
theorem test_dcp_UD7 :
    ends ({ machine 0x8000 [0xC7, 0x10] with a := 0x00 })
      ⟨0x00, 0x00, 0x00, 0xFD, 0x8002⟩ 0x24 5 [(0x0010, 0xFF)] = true := by
  decide

/-- UD9. -/
theorem test_dcp_UD9 :
    ends ({ machine 0x8000 [0xD3, 0x40] with a := 0x10, y := 0x01, ram := [(0x41, 0x03), (0x301, 0x10)] })
      ⟨0x10, 0x00, 0x01, 0xFD, 0x8002⟩ 0x25 8 [(0x0301, 0x0F)] = true := by
  decide

/-- UD10. -/
theorem test_isb_UD10 :
    ends ({ machine 0x8000 [0xE7, 0x10] with a := 0x10, p := 0x25, ram := [(0x10, 0x04)] })
      ⟨0x0B, 0x00, 0x00, 0xFD, 0x8002⟩ 0x25 5 [(0x0010, 0x05)] = true := by
  decide

/-- UD12. -/
theorem test_isb_UD12 :
    ends ({ machine 0x8000 [0xE3, 0x40] with a := 0x00, x := 0x02, ram := [(0x43, 0x02)] })
      ⟨0xFE, 0x02, 0x00, 0xFD, 0x8002⟩ 0xA4 8 [(0x0200, 0x01)] = true := by
  decide

/-- UD13. -/
theorem test_slo_UD13 :
    ends ({ machine 0x8000 [0x07, 0x10] with a := 0x01, ram := [(0x10, 0xC0)] })
      ⟨0x81, 0x00, 0x00, 0xFD, 0x8002⟩ 0xA5 5 [(0x0010, 0x80)] = true := by
  decide

/-- UD14. -/
theorem test_rla_UD14 :
    ends ({ machine 0x8000 [0x27, 0x10] with a := 0xFF, p := 0x25, ram := [(0x10, 0x40)] })
      ⟨0x81, 0x00, 0x00, 0xFD, 0x8002⟩ 0xA4 5 [(0x0010, 0x81)] = true := by
  decide

/-- UD15. -/
theorem test_sre_UD15 :
    ends ({ machine 0x8000 [0x47, 0x10] with a := 0xFF, ram := [(0x10, 0x03)] })
      ⟨0xFE, 0x00, 0x00, 0xFD, 0x8002⟩ 0xA5 5 [(0x0010, 0x01)] = true := by
  decide

/-- UD17. -/
theorem test_rra_UD17 :
    ends ({ machine 0x8000 [0x67, 0x10] with a := 0x10, ram := [(0x10, 0x03)] })
      ⟨0x12, 0x00, 0x00, 0xFD, 0x8002⟩ 0x24 5 [(0x0010, 0x01)] = true := by
  decide

/-- UD18. -/
theorem test_rra_UD18 :
    ends ({ machine 0x8000 [0x7B, 0x00, 0x02] with a := 0x7F, y := 0x01, ram := [(0x201, 0x02)] })
      ⟨0x80, 0x00, 0x01, 0xFD, 0x8003⟩ 0xE4 7 [(0x0201, 0x01)] = true := by
  decide

/-- UD20. -/
theorem test_nopU_UD20 :
    ends (machine 0x8000 [0x80, 0x55])
      ⟨0x00, 0x00, 0x00, 0xFD, 0x8002⟩ 0x24 2 [] = true := by
  decide

/-- UD24. -/
theorem test_nopU_UD24 :
    ends ({ machine 0x8000 [0x1C, 0xFF, 0x20] with x := 0x01 })
      ⟨0x00, 0x01, 0x00, 0xFD, 0x8003⟩ 0x24 5 [] = true := by
  decide

/-- UD26. -/
theorem test_sbcU_UD26 :
    ends ({ machine 0x8000 [0xEB, 0x03] with a := 0x05, p := 0x25 })
      ⟨0x02, 0x00, 0x00, 0xFD, 0x8002⟩ 0x25 2 [] = true := by
  decide

/-- UD28. -/
theorem test_undefined_UD28 :
    stops (machine 0x8000 [0xAB, 0x00]) (.unknownOpcode 0xAB 0x8000) = true := by
  decide

/-! ## The devices -/

/-- AL33: the operand read of BIT is a read of $2002. -/
theorem test_bit_reads_the_port :
    after (step { machine 0x8000 [0x2C, 0x02, 0x20] with a := 0xFF, ppu := { Ppu.powerOn with status := 0x80, w := true } })
      (fun t => t.p == 0xA4 && t.ppu.status == 0x00 && !t.ppu.w) = true := by
  decide

/-- UD23: an unofficial NOP does not read $2002. -/
theorem test_nopU_reads_nothing :
    after (step { machine 0x8000 [0x0C, 0x02, 0x20] with ppu := { Ppu.powerOn with status := 0x80, w := true } })
      (fun t => t.ppu.status == 0x80 && t.ppu.w && t.cycles == 4) = true := by
  decide

/-- LS24. -/
theorem test_sta_to_rom : stops (machine 0x8000 [0x8D, 0x00, 0x80]) (.writeToRom 0x8000) = true := by
  decide

/-- PP13, its second read. -/
theorem test_unmapped_ppu_read :
    stops { machine 0x8000 [0xAD, 0x07, 0x20] with ppu := { Ppu.powerOn with v := 0x4000 } } (.unmappedPpuRead 0x4000) =
      true := by
  decide

/-- PP12, its write. -/
theorem test_unmapped_ppu_write :
    stops { machine 0x8000 [0x8D, 0x07, 0x20] with ppu := { Ppu.powerOn with v := 0x1000 } } (.unmappedPpuWrite 0x1000) =
      true := by
  decide

/-- PP7 and PP8: the nametable indexes. -/
theorem test_nametables :
    [0x2000, 0x2400, 0x2800, 0x2C00, 0x3000, 0x3400, 0x3EFF].map (ntIndex .horizontal) =
      [0x000, 0x000, 0x400, 0x400, 0x000, 0x000, 0x6FF] ∧
    [0x2000, 0x2400, 0x2800, 0x2C00, 0x3000, 0x3400, 0x3EFF].map (ntIndex .vertical) =
      [0x000, 0x400, 0x000, 0x400, 0x000, 0x400, 0x6FF] := by
  decide

/-- PP5, its two writes of $2005. -/
theorem test_scroll :
    ((ppuWriteScroll 0x7D Ppu.powerOn).t, (ppuWriteScroll 0x7D Ppu.powerOn).x) = (0x000F, 5) ∧
    (ppuWriteScroll 0x5E (ppuWriteScroll 0x7D Ppu.powerOn)).t = 0x616F := by
  decide

/-- NM1: the NMI is serviced, then the instruction at $9000 runs in the same step (here NOP: two cycles more). -/
theorem test_nmi_NM1 :
    after (step { place 0x9000 [0xEA] (machine 0x8000 []) with
        pc := 0x8123, p := 0xA5, sp := 0xF0, pendingNmi := true, ppu := { Ppu.powerOn with nmiPending := true } })
      (fun t => t.ram == [(0x1EE, 0xA5), (0x1EF, 0x23), (0x1F0, 0x81)] && t.sp == 0xED && t.p == 0xA5 &&
        t.pc == 0x9001 && t.cycles == 4 && !t.pendingNmi && !t.ppu.nmiPending) = true := by
  decide

/-- NM5: VBlank is set by the tick that arrives at scanline 241 dot 1 exactly. -/
theorem test_vblank_set :
    after (step { machine 0x8000 [0xEA] with ppu := { Ppu.powerOn with scanline := 240, dot := 336 } })
      (fun t => t.ppu.status == 0x80 && t.ppu.scanline == 241 && t.ppu.dot == 1 && !t.frameReady) = true := by
  decide

/-- NM6: VBlank is cleared where dot 1 of scanline 261 is passed. -/
theorem test_vblank_cleared :
    (ppuTick State.reset.cart 3 { Ppu.powerOn with scanline := 261, dot := 0, status := 0x80 }).status = 0x00 := by
  decide

/-- JP1, JP2, JP4: what `Joypad.read` gives, strobed, and at the last button and after it. -/
theorem test_joypad :
    joypadReadValue { b := 0xA5, i := 0, s := true } = 1 ∧ joypadAfterRead { b := 0xA5, i := 0, s := true } = ⟨0xA5, 0, true⟩ ∧
    joypadReadValue { b := 0xA5, i := 6, s := false } = 0 ∧ joypadReadValue { b := 0xA5, i := 7, s := false } = 1 ∧
    joypadAfterRead { b := 0xA5, i := 7, s := false } = ⟨0xA5, 8, false⟩ ∧
    joypadReadValue { b := 0x25, i := 8, s := false } = 1 := by
  decide

/-- RS2 and RS4: reset from a 16 KiB cartridge, keeping what is not the CPU's. -/
theorem test_reset :
    (cpuReset { State.reset with cart := { State.reset.cart with prg := [(0x3FFC, 0x34), (0x3FFD, 0xC0)], prgSize := .kib16 }
                                 a := 0x12, sp := 0x80, p := 0xE5, cycles := 1000 }).registers =
      ⟨0x00, 0x00, 0x00, 0xFD, 0xC034⟩ ∧
    (cpuReset { State.reset with cycles := 1000, pendingNmi := true, build := { brkMode := .hardware, resetPc := .forceC000 } }) =
      { State.reset with cycles := 1000, pendingNmi := true, pc := 0xC000, build := { brkMode := .hardware, resetPc := .forceC000 } } := by
  decide

/-! ## Witnesses: for each statement with hypotheses, concrete values that meet them together -/

/-- A state between two steps with an NMI requested and D, B-less P, a near-empty stack and bytes in every memory. -/
def busy : State :=
  { machine 0x8000 [0xEA] with
      sp := 0x01, p := 0x2D, ram := [(0x010, 0x41), (0x7FF, 0x80)], pendingNmi := true
      ppu := { Ppu.powerOn with
        vram := [(0x7FF, 0x66)], pal := [(31, 0x0F)], oam := [(255, 0x01)], ctrl := 0x80, status := 0xC0, dot := 340,
        scanline := 261, nmiPending := true }
      joy1 := { b := 0x81, i := 8, s := false } }

theorem witness_inv : busy.Inv ∧ busy.pendingNmi = true ∧ busy.build.brkMode = .hardware where
  left := {
    ram := ⟨by decide, by decide⟩
    cart := ⟨⟨by decide, by decide⟩, ⟨by decide, by decide⟩⟩
    ppu := {
      vram := ⟨by decide, by decide⟩
      pal := ⟨by decide, by decide⟩
      oam := ⟨by decide, by decide⟩
      statusLow := by decide
      dot := by decide
      scanline := by decide }
    flagB := by decide
    flagU := by decide
    index1 := by decide
    index2 := by decide
    strobe2 := by decide
    dmaStall := by decide
    pendingNmi := by decide }
  right := by decide

/-- For `InvKeptByStep` and `TheCartridgeIsImmutable`. -/
theorem witness_step_completes : busy.Inv ∧ after (step busy) (fun _ => true) = true := ⟨witness_inv.1, by decide⟩

/-- For `NoNmiUntilEnabled`: a step that sets VBlank with the NMI disabled. -/
def quiet : State :=
  { machine 0x8000 [0xEA] with ppu := { Ppu.powerOn with scanline := 240, dot := 336 } }

theorem witness_quiet :
    quiet.Inv ∧ quiet.ppu.ctrl.getLsbD 7 = false ∧ quiet.pendingNmi = false ∧
      after (step quiet) (fun t => !t.ppu.ctrl.getLsbD 7 && t.ppu.status.getLsbD 7) = true where
  left := {
    ram := ⟨by decide, by decide⟩
    cart := ⟨⟨by decide, by decide⟩, ⟨by decide, by decide⟩⟩
    ppu := {
      vram := ⟨by decide, by decide⟩
      pal := ⟨by decide, by decide⟩
      oam := ⟨by decide, by decide⟩
      statusLow := by decide
      dot := by decide
      scanline := by decide }
    flagB := by decide
    flagU := by decide
    index1 := by decide
    index2 := by decide
    strobe2 := by decide
    dmaStall := by decide
    pendingNmi := by decide }
  right := by decide

/-- For `InvAtReset`: a 16 KiB cartridge with a byte at each end, and a full RAM address range. -/
theorem witness_cartridge :
    Cartridge.Sound { prg := [(0, 0xEA), (0x3FFF, 0x80)], prgSize := .kib16, chr := [(0x1FFF, 1)], mirroring := .vertical } ∧
      Memory.ok [(0, 1), (0x7FF, 1)] 0x800 :=
  ⟨⟨⟨by decide, by decide⟩, ⟨by decide, by decide⟩⟩, ⟨by decide, by decide⟩⟩

/-! Encoding. -/

/-- For `EveryByteIsAnOpcode`. -/
theorem witness_opcode_bytes :
    0x02 ∈ undefinedBytes ∧ 0xBB ∈ undefinedBytes ∧ 0x00 ∉ undefinedBytes ∧ 0xFF ∉ undefinedBytes := by
  decide

/-- For `DecodeOfEncode` and the family EncodedLength: one instruction of each length. -/
theorem witness_well_formed :
    (Instr.nopU 0xFA .imp).wf = true ∧ (Instr.stx (.zpy 0xFF)).wf = true ∧ (Instr.lda (.mem (.aby 0xFFFF))).wf = true := by
  decide

/-- For `EncodeOfDecode`. -/
theorem witness_decodes :
    decode [0xB9, 0xFF, 0xFF, 0x00] = .ok (.lda (.mem (.aby 0xFFFF)), [0x00]) ∧ decode [0x9F] = .ok (.undefined 0x9F, []) :=
  ⟨rfl, rfl⟩

/-! The step. -/

/-- The access ends with this value, in this state. -/
def endsAt {α : Type} [DecidableEq α] (r : Access α) (v : α) (s : State) : Bool :=
  match r with
  | .done u t => decide (u = v) && decide (t = s)
  | .fatal _ => false

/-- The access is fatal. -/
def isFatal {α : Type} (r : Access α) : Bool :=
  match r with
  | .done _ _ => false
  | .fatal _ => true

/-- For `StepRunsDecodedInstruction`: with an NMI pending, and with PC at the last byte of the address space. -/
theorem witness_decoded_instruction :
    (busy.halted = false ∧ ∀ k : Fin 3,
      endsAt (busRead ((takePendingNmi busy).pc + BitVec.ofNat 16 k) (takePendingNmi busy))
        (readValue (takePendingNmi busy) ((takePendingNmi busy).pc + BitVec.ofNat 16 k)) (takePendingNmi busy) = true) ∧
    (let s := machine 0xFFFF [0xA9, 0x05]
     s.halted = false ∧ takePendingNmi s = s ∧
      (∀ k : Fin 3, endsAt (busRead (s.pc + BitVec.ofNat 16 k) s) (readValue s (s.pc + BitVec.ofNat 16 k)) s = true) ∧
      reads [readValue s s.pc, readValue s (s.pc + 1)] (.lda (.imm 0x05)) = true) := by
  decide

/-- For `StepFetchesThroughTheBus`, its three clauses: LDA # from ROM, an Immediate *NOP, and PC at $2007 with `v` $4000. -/
theorem witness_fetch :
    (let s := machine 0x8000 [0xA9, 0x05]
     endsAt (readBytes (encode (.lda (.imm 0x05))).length s.pc s) (encode (.lda (.imm 0x05))) s = true ∧
      takePendingNmi s = s ∧ s.halted = false) ∧
    (let s := machine 0x8000 [0x80, 0x55]
     0x80 ∈ nopBytes (.imm 0) ∧ endsAt (busRead s.pc s) 0x80 s = true ∧ takePendingNmi s = s ∧ s.halted = false) ∧
    (let s := { State.reset with pc := 0x2007, ppu := { Ppu.powerOn with v := 0x4000 } }
     isFatal (busRead s.pc s) = true ∧ takePendingNmi s = s ∧ s.halted = false) := by
  decide

/-- The instruction stops with this fault. -/
def faults (o : Host.Outcome State Fault Refusal) (f : Fault) : Bool :=
  match o with
  | .fault g => g == f
  | .next _ | .refused _ => false

/-- A state with `v` and `a` as given. -/
def withV (v : VramAddr) (a : Byte) : State := { State.reset with a := a, ppu := { Ppu.powerOn with v := v } }

/-- For `FatalOutcomesHaveTheirCauses`, each fault an instruction can raise, at the lowest value that raises it; the read also
by JMP Indirect's second read and by OAM DMA, in which `v` has moved; the write also after the read that moves `v`. -/
theorem witness_faults :
    faults (exec (.undefined 0x02) State.reset) (.unknownOpcode 0x02 0x0000) = true ∧
    faults (exec (.sta (.abs 0x8000)) State.reset) (.writeToRom 0x8000) = true ∧
    faults (exec (.lda (.mem (.abs 0x2007))) (withV 0x4000 0)) (.unmappedPpuRead 0x4000) = true ∧
    faults (exec (.sta (.abs 0x4014)) (withV 0x4000 0x20)) (.unmappedPpuRead 0x4000) = true ∧
    faults (exec (.sta (.abs 0x3FFF)) (withV 0x1FFF 0)) (.unmappedPpuWrite 0x1FFF) = true ∧
    faults (exec (.sta (.abs 0x3FFF)) (withV 0x4000 0)) (.unmappedPpuWrite 0x4000) = true ∧
    faults (exec (.jmp (.ind 0x2006)) (withV 0x4000 0)) (.unmappedPpuRead 0x4000) = true ∧
    faults (exec (.sta (.abs 0x4014)) (withV 0x3FFF 0x20)) (.unmappedPpuRead 0x4000) = true ∧
    faults (exec (.inc (.abs 0x2007)) (withV 0x3FFF 0)) (.unmappedPpuWrite 0x4000) = true := by
  refine ⟨?_, ?_, ?_, ?_, ?_, ?_, ?_, ?_, ?_⟩ <;> decide

/-- For `InstructionTicksAreBounded`: its lower bound is met, and BRK in Halt mode ticks nothing. -/
theorem witness_ticks :
    State.reset.dmaStall = 0 ∧ after (exec .nop State.reset) (fun t => t.cycles == 2) = true ∧
    after (exec .brk { State.reset with build := { brkMode := .halt, resetPc := .vector } }) (fun t => t.cycles == 0) =
      true := by
  decide

/-! Operands and instruction rules. -/

/-- For `EffectiveAddresses`: the pointers of ($FF,X) with X = 1 and of ($FF),Y, whose second bytes lie at $0001 and $0000. -/
theorem witness_pointers :
    (0x0000 : Addr).toNat = ((0xFF : Byte).toNat + (0x01 : Byte).toNat) % 256 ∧
    (0x0001 : Addr).toNat = ((0x0000 : Addr).toNat + 1) % 256 ∧
    (0x00FF : Addr).toNat = (0xFF : Byte).toNat ∧ (0x0000 : Addr).toNat = ((0xFF : Byte).toNat + 1) % 256 := by
  decide

/-- For `LoadRules`, `AdcRule`, `SbcRules`, `LogicAndBitRules`, `CompareRules`: a row with an operand of its mode, and both
clauses of `ReadRule` at the boundary of `v`. -/
theorem witness_read_rule :
    (∃ r ∈ Rows.lda, r.mode = (MemOperand.abs 0x2007).mode) ∧
    readOk (withV 0x3FFF 0) (effAddr (.abs 0x2007) (withV 0x3FFF 0)) ∧
    ¬ readOk (withV 0x4000 0) (effAddr (.abs 0x2007) (withV 0x4000 0)) := by
  unfold readOk
  decide

/-- For `StoreRules` and `SaxRule`: both clauses of `StoreRule`, at the boundaries of the address, of `v` and of a DMA from $2000. -/
theorem witness_store_rule :
    (∃ r ∈ Rows.sta, r.mode = (MemOperand.abs 0x2007).mode) ∧
    writeOk State.reset 0x7FFF 0 ∧ ¬ writeOk State.reset 0x8000 0 ∧
    writeOk (withV 0x2000 0) 0x2007 0 ∧ ¬ writeOk (withV 0x1FFF 0) 0x2007 0 ∧
    writeOk (withV 0x3FFF 0) 0x3FFF 0 ∧ ¬ writeOk (withV 0x4000 0) 0x3FFF 0 ∧
    writeOk (withV 0x3FE0 0) 0x4014 0x20 ∧ ¬ writeOk (withV 0x3FE1 0) 0x4014 0x20 := by
  unfold writeOk dmaOk
  refine ⟨?_, ?_, ?_, ?_, ?_, ?_, ?_, ?_, ?_⟩ <;> decide

/-- For `ShiftRules`, `RotateRules`, `IncDecRules`, `DcpIsbRules`, `SloRlaSreRraRules`: the three clauses of
`ModifyRule`. -/
theorem witness_modify_rule :
    (∃ r ∈ Rows.asl, r.mode = (MemOperand.abs 0x2007).mode) ∧ (∃ r ∈ Rows.rra, r.mode = (MemOperand.izy 0x00).mode) ∧
    (readOk (withV 0x2000 0) 0x2007 ∧ writeOk (readEffect (withV 0x2000 0) 0x2007) 0x2007 0x02) ∧
    ¬ readOk (withV 0x4000 0) 0x2007 ∧
    (readOk (withV 0x3FFF 0) 0x2007 ∧ ¬ writeOk (readEffect (withV 0x3FFF 0) 0x2007) 0x2007 0x02) := by
  unfold readOk writeOk dmaOk
  decide

/-- For `BranchRules`: both clauses, and the target of the longest branch back across address 0. -/
theorem witness_branch_rule :
    (!(statusBits (0x25 : Byte)).c) = false ∧ (!(statusBits (0x24 : Byte)).c) = true ∧
    (0xFF82 : Addr).toNat = ((0x0000 : Addr).toNat + 2 + (0x80 : Byte).toNat + 0xFF00) % 65536 := by
  decide

/-- For `JmpRule`: its three cases of the Indirect form, and the pointer at the end of a page. -/
theorem witness_jmp_rule :
    (0x1000 : Addr) = ((0x10FF : Addr) &&& 0xFF00) ||| (((0x10FF : Addr) + 1) &&& 0x00FF) ∧
    (readOk State.reset 0x10FF ∧ readOk (readEffect State.reset 0x10FF) 0x1000) ∧
    (readOk (withV 0x4000 0) 0x2006 ∧ ¬ readOk (readEffect (withV 0x4000 0) 0x2006) 0x2007) ∧
    ¬ readOk (withV 0x4000 0) 0x2007 := by
  unfold readOk
  decide

/-- For `BrkRule`: the two modes. -/
theorem witness_brk_rule :
    State.reset.build.brkMode = .hardware ∧
    { State.reset with build := { brkMode := .halt, resetPc := .vector } }.build.brkMode = .halt := by
  decide

/-- For `NopRules`: a byte of each form, and a row with an operand of its mode. -/
theorem witness_nop_rule :
    (Instr.nopU 0x1A .imp).wf = true ∧ (Instr.nopU 0xE2 (.imm 0)).wf = true ∧ (Instr.nopU 0xFC (.mem (.abx 0))).wf = true ∧
    ∃ r ∈ Rows.nop, r.mode = (MemOperand.abx 0xFFFF).mode := by
  decide

/-- For `UndefinedBytesAreFatal`, its last clause. -/
theorem witness_undefined_byte :
    let s := machine 0x8000 [0x02]
    s.halted = false ∧ takePendingNmi s = s ∧ endsAt (busRead s.pc s) 0x02 s = true := by
  decide

/-- For `CarryAndOverflowOfAdcAndSbc`, its clauses, and for `AdcClcSbcRestoresA`. -/
theorem witness_adc_sbc :
    let s := { State.reset with a := 0x7F, p := 0x2D }
    (statusBits s.p).c = true ∧ after (exec (.adc (.imm 0x00)) s) (fun t => t.a == 0x80) = true ∧
      after (exec (.sbc (.mem (.zp 0x00))) s) (fun t => t.a == 0x7F) = true ∧
      after (exec (.sbcU 0x80) s) (fun t => t.a == 0xFF) = true := by
  decide

/-- For `PullsGiveBackWhatWasPushed`: a sound state whose pushes wrap. -/
theorem witness_pushes : busy.Sound ∧ (busy.sp - 2).toNat = 0xFF := ⟨witness_inv.1.toSound, by decide⟩

/-! Frames, the bus and the ports. -/

/-- For `OnlyTheListedInstructionsWriteARegister`, `OnlyTheListedInstructionsWriteAFlag`, `MemoryChangesOnlyWhereStored` and
`DevicesChangeOnlyThroughTheirAddresses`: a store in the last byte of RAM, and bytes on both sides that it does not reach. -/
theorem witness_frames :
    let i := Instr.sta (.abs 0x1FFF)
    after (exec i busy) (fun t => t.ram == [(0x010, 0x41)]) = true ∧
      (writesA i || writesX i || writesY i || writesSp i || writesC i || writesZN i || writesI i || writesD i || writesV i) =
        false ∧
      i ≠ .plp ∧ i ≠ .rti ∧ sourceAddrs i busy = [] ∧ targetAddrs i busy ++ pushAddrs i busy = [0x1FFF] := by
  decide

theorem witness_unstored_bytes :
    isStorage 0x1FFF = true ∧ isStorage 0x1FFE = true ∧ ¬ sameRamByte 0x1FFE 0x1FFF ∧ isStorage 0x8000 = true ∧
      ¬ sameRamByte 0x8000 0x1FFF := by
  unfold sameRamByte
  decide

/-- For `OnlyTheListedInstructionsWriteAFlag`, its last clause. -/
theorem witness_pulled_flags :
    after (exec .plp busy) (fun t => !flagB t.p && flagU t.p) = true ∧
      after (exec .rti busy) (fun t => !flagB t.p && flagU t.p) = true := by
  decide

/-- For `BusReadMap` and `BusWriteMap`: the first and last address of each range, both cases of `v`, and both joypad cases. -/
theorem witness_bus_maps :
    (0x1FFF : Addr).toNat < 0x2000 ∧
    (0x2000 ≤ (0x2000 : Addr).toNat ∧ (0x3FFF : Addr).toNat < 0x4000 ∧ (0x3FFA : Addr).toNat % 8 = 2 ∧
      (0x2004 : Addr).toNat % 8 = 4 ∧ (0x2000 : Addr).toNat % 8 ∈ [0, 1, 3, 5, 6] ∧ (0x3FFF : Addr).toNat % 8 = 7 ∧
      (withV 0x3FFF 0).ppu.v.toNat < 0x4000 ∧ 0x4000 ≤ (withV 0x4000 0).ppu.v.toNat) ∧
    (0x4000 ≤ (0x4000 : Addr).toNat ∧ (0x7FFF : Addr).toNat < 0x8000 ∧ (0x4015 : Addr).toNat ≠ 0x4014 ∧
      (0x4015 : Addr).toNat ≠ 0x4016 ∧ (0x4018 : Addr).toNat ≠ 0x4017) ∧
    7 < busy.joy1.i ∧ busy.joy2.i ≤ 7 ∧ 0x8000 ≤ (0x8000 : Addr).toNat := by
  decide

/-- For `RamReadsBackThroughItsMirrors`: the last byte of RAM through its first and last mirrors (`witness_unstored_bytes` has
the bytes that stay). -/
theorem witness_mirrors :
    busy.Sound ∧ (0x1FFF : Addr).toNat < 0x2000 ∧ sameRamByte 0x07FF 0x1FFF := by
  refine ⟨witness_inv.1.toSound, by decide, ?_⟩
  unfold sameRamByte
  decide

/-- For `PpuControlPorts` and `PpuAddressPorts`: the first and last address that reaches each port, and both values of `w`. -/
theorem witness_ports :
    ([0x2000, 0x3FF8, 0x2001, 0x3FF9, 0x2003, 0x3FFB, 0x2004, 0x3FFC, 0x2005, 0x3FFD, 0x2006, 0x3FFE] : List Addr).all
      (fun a => decide (0x2000 ≤ a.toNat) && decide (a.toNat < 0x4000) && [0, 1, 3, 4, 5, 6].contains (a.toNat % 8)) = true ∧
    Ppu.powerOn.w = false ∧ { Ppu.powerOn with w := true }.w = true := by
  decide

/-- For `PpuDataPort`: both ends of each range of `v`, with the next `v`, which wraps at $7FFF. -/
theorem witness_data_port :
    (0x2000 ≤ (0x3FFF : Addr).toNat ∧ (0x3FFF : Addr).toNat < 0x4000 ∧ (0x3FFF : Addr).toNat % 8 = 7) ∧
    ([(0x0000, 0x0001), (0x1FFF, 0x2000), (0x2000, 0x2001), (0x3EFF, 0x3F00), (0x3F00, 0x3F01), (0x3FFF, 0x4000),
        (0x4000, 0x4001), (0x7FFF, 0x0000)] : List (VramAddr × VramAddr)).all (fun c =>
      c.2.toNat == ((withV c.1 0).ppu.v.toNat + (if (withV c.1 0).ppu.ctrl.getLsbD 2 then 32 else 1)) % 32768) = true := by
  decide

/-- For `PpuAddressSpace`: the ends of the nametable and palette ranges. -/
theorem witness_ppu_addresses :
    (0x2000 ≤ (0x2FFF : VramAddr).toNat ∧ (0x2FFF : VramAddr).toNat < 0x4000 ∧
      3 = (0x2FFF : VramAddr).toNat % 0x1000 / 0x400 ∧ 0x3FF = (0x2FFF : VramAddr).toNat % 0x400) ∧
    (0x3F00 ≤ (0x3F00 : VramAddr).toNat ∧ (0x3FFF : VramAddr).toNat < 0x4000) := by
  decide

/-- For `OamDma`: both clauses on the DMA at the boundary of `v`, and the pages on both sides of the ports. -/
theorem witness_oam_dma :
    (0x4014 : Addr).toNat = 0x4014 ∧ dmaOk (withV 0x3FE0 0) 0x3F ∧ ¬ dmaOk (withV 0x3FE1 0) 0x3F ∧
      ((0x1F : Byte).toNat < 0x20 ∨ 0x41 ≤ (0x1F : Byte).toNat) ∧ ((0x41 : Byte).toNat < 0x20 ∨ 0x41 ≤ (0x41 : Byte).toNat) ∧
      busy.Sound := by
  refine ⟨by decide, ?_, ?_, by decide, by decide, witness_inv.1.toSound⟩ <;> unfold dmaOk <;> decide

/-- For `JoypadReadSequence`. -/
theorem witness_joypad :
    (0x4016 : Addr).toNat = 0x4016 ∧ (0x01 : Byte).getLsbD 0 = true ∧ (0xFE : Byte).getLsbD 0 = false := by
  decide

/-- For `BusTickAndPoll`: a request and none, and a tick that raises `frame_ready`. -/
theorem witness_tick :
    let s := { State.reset with ppu := { Ppu.powerOn with scanline := 241, ctrl := 0x80 } }
    busy.pendingNmi = true ∧ s.pendingNmi = false ∧ s.ppu.dot < 341 ∧ s.ppu.scanline < 262 ∧ s.frameReady = false ∧
      (busTick 1 s).frameReady = true := by
  decide

/-- For `PpuPositionAndParity` and `VblankEvents`: one dot that passes the start of vblank, one that passes its end, and one
that wraps the frame and passes neither. -/
theorem witness_positions :
    (let u := { Ppu.powerOn with scanline := 241, dot := 0 }
     u.dot < 341 ∧ u.scanline < 262 ∧ 1 ≤ 1566 ∧
      ∃ k, 1 ≤ k ∧ k ≤ 1 ∧ (u.scanline * 341 + u.dot + k) % 89342 = 241 * 341 + 1) ∧
    (let u := { Ppu.powerOn with scanline := 261, dot := 0 }
     u.dot < 341 ∧ u.scanline < 262 ∧ 1 ≤ 1566 ∧
      ∃ k, 1 ≤ k ∧ k ≤ 1 ∧ (u.scanline * 341 + u.dot + k) % 89342 = 261 * 341 + 1) ∧
    (let u := { Ppu.powerOn with scanline := 261, dot := 340 }
     u.dot < 341 ∧ u.scanline < 262 ∧ 1 ≤ 1566 ∧
      ∀ k, 1 ≤ k → k ≤ 1 → (u.scanline * 341 + u.dot + k) % 89342 = 0) := by
  refine ⟨⟨by decide, by decide, by decide, 1, by decide⟩, ⟨by decide, by decide, by decide, 1, by decide⟩, ?_⟩
  refine ⟨by decide, by decide, by decide, fun k h1 h2 => ?_⟩
  obtain rfl : k = 1 := by omega
  decide

/-- For `SpriteZeroHit`: the dot that clears, and a dot that does not. -/
theorem witness_sprite_zero :
    let u := { Ppu.powerOn with scanline := 261, status := 0x40 }
    let u' := { Ppu.powerOn with scanline := 239, dot := 339, status := 0x40 }
    ((ppuDot State.reset.cart u).scanline = 261 ∧ (ppuDot State.reset.cart u).dot = 1) ∧
      ¬ ((ppuDot State.reset.cart u').scanline = 261 ∧ (ppuDot State.reset.cart u').dot = 1) ∧
      u'.status.getLsbD 5 = false := by
  decide

/-- For `HostActions`: the last button. -/
theorem witness_host_actions : (7 : Nat) < 8 ∧ busy.Inv := ⟨by decide, witness_inv.1⟩

end Sys2Proof.Tests
end

/-! PROOFS. The state (10_state.md): the machine's invariant at reset and along every step, what no step changes, the
frames of the registers and of the flags, and the stack's pushes undone by its pops. -/

namespace Sys2Proof.Machine

/-! ## The invariant -/

/-- A fetch leaves the stall and both copies of the NMI request alone. -/
theorem ByReads.inv {s u : State} (h : ByReads s u) (hs : s.Inv) : u.Inv :=
  { h.sound hs.toSound with
    dmaStall := h.dmaStall.trans hs.dmaStall
    pendingNmi := by rw [h.only.pendingNmi, h.nmi]; exact hs.pendingNmi }

/-- The tick that ends an instruction makes the invariant out of what holds at every access; BRK in Halt mode has no tick,
and changes nothing the invariant speaks of. -/
theorem Completes.inv {i : Instr} {s t : State} (h : Completes i s t) (hs : s.Inv) : t.Inv := by
  rcases h with ⟨w, c, he, -, -, rfl⟩ | ⟨-, -, rfl⟩
  · exact busTick_inv (he.sound hs.toSound) c
  · exact { hs with }

/-- Settles O59: the NMI service, the fetch and the instruction each keep the invariant. -/
theorem invKeptByStep : Obligations.InvKeptByStep := by
  intro s t hs h
  obtain ⟨-, i, u, -, hfetch, hexec⟩ := step_next h
  have hu : u.Inv := hfetch.inv (takePendingNmi_inv hs)
  exact (exec_completes hexec).inv hu

theorem Ppu.powerOn_sound (m : Mirroring) : Ppu.powerOn.Sound m where
  vram := Memory.ok_nil _
  pal := Memory.ok_nil _
  oam := Memory.ok_nil _
  statusLow := rfl
  dot := by decide
  scanline := by decide

/-- The machine after power-on and `Cpu.reset` (70_reset_and_hazards.md R340). -/
theorem reset_powerOn_inv {cart : Cartridge} {ram : Memory} (build : Build) (hcart : cart.Sound)
    (hram : Memory.ok ram 0x800) : (hostAct .reset (powerOn cart build ram)).Inv where
  ram := hram
  cart := hcart
  ppu := Ppu.powerOn_sound _
  flagB := (by decide : flagB 0x24 = false)
  flagU := (by decide : flagU 0x24 = true)
  index1 := Nat.zero_le 8
  index2 := Nat.zero_le 8
  strobe2 := rfl
  dmaStall := rfl
  pendingNmi := rfl

/-- The unprogrammed cartridge's reset vector holds $0000 (log 3). -/
theorem State.reset_eq_hostAct : State.reset = hostAct .reset (powerOn Cartridge.unprogrammed Build.default []) := rfl

/-- Settles O58: `State.reset` is the reset machine of the unprogrammed cartridge. -/
theorem invAtReset : Obligations.InvAtReset := by
  have hcart : Cartridge.unprogrammed.Sound := ⟨Memory.ok_nil _, Memory.ok_nil _⟩
  refine ⟨?_, fun cart build ram hc hr => reset_powerOn_inv build hc hr⟩
  rw [State.reset_eq_hostAct]
  exact reset_powerOn_inv _ hcart (Memory.ok_nil _)

/-! ## The cartridge and the build -/

theorem Completes.cart {i : Instr} {s t : State} (h : Completes i s t) : t.cart = s.cart := by
  rcases h with ⟨w, c, he, -, -, rfl⟩ | ⟨-, -, rfl⟩
  · exact he.cart
  · rfl

theorem Completes.build {i : Instr} {s t : State} (h : Completes i s t) : t.build = s.build := by
  rcases h with ⟨w, c, he, -, -, rfl⟩ | ⟨-, -, rfl⟩
  · exact he.build
  · rfl

/-- Settles O42: neither the NMI service nor the fetch nor the instruction writes the parameters, and $8000 to $FFFF reads
the cartridge alone. -/
theorem theCartridgeIsImmutable : Obligations.TheCartridgeIsImmutable := by
  intro s t h
  obtain ⟨-, i, u, -, hfetch, hexec⟩ := step_next h
  have hdone := exec_completes hexec
  have hcart : t.cart = s.cart := by rw [hdone.cart, hfetch.only.cart, takePendingNmi_cart]
  have hbuild : t.build = s.build := by rw [hdone.build, hfetch.only.build, takePendingNmi_build]
  exact ⟨hcart, hbuild, fun a ha => by rw [readValue_rom t ha, readValue_rom s ha, hcart]⟩

/-! ## The frames of the registers and of the flags -/

/-- The tick writes no CPU register, so the frame of the effect is the frame of the instruction. -/
theorem Completes.keeps {i : Instr} {s t : State} (h : Completes i s t) : KeepsRegisters i s t := by
  rcases h with ⟨w, c, he, -, -, rfl⟩ | ⟨-, -, rfl⟩
  · exact { he.keeps with }
  · exact { KeepsRegisters.refl i s with }

/-- Settles O38: the frame is that of `KeepsRegisters`. -/
theorem onlyTheListedInstructionsWriteARegister : Obligations.OnlyTheListedInstructionsWriteARegister := by
  intro i s t h
  have hk := (exec_completes h).keeps
  exact ⟨hk.a, hk.x, hk.y, hk.sp⟩

/-- PLP and RTI leave P as they load it (10_state.md R26). -/
theorem exec_pulls_status {i : Instr} {s t : State} (hi : i = .plp ∨ i = .rti) (h : exec i s = .next t) :
    t.p = pulledStatus (pop8Value s) := by
  rcases hi with rfl | rfl
  · cases h; rfl
  · cases h; rfl

/-- Settles O39: the frame is `KeepsRegisters`, and PLP and RTI load P with B masked and U forced. -/
theorem onlyTheListedInstructionsWriteAFlag : Obligations.OnlyTheListedInstructionsWriteAFlag := by
  intro i s t h
  have hk := (exec_completes h).keeps
  refine ⟨hk.c, fun hw => ⟨hk.z hw, hk.n hw⟩, hk.i, hk.d, hk.v, fun hplp hrti => ⟨hk.b hplp hrti, hk.u hplp hrti⟩,
    fun hi => ?_⟩
  rw [exec_pulls_status hi h, statusBits_pulled]
  exact ⟨rfl, rfl⟩

/-! ## The stack -/

/-- A pop reads the RAM byte above SP (10_state.md R24). -/
theorem pop8Value_eq (s : State) : pop8Value s = memGet s.ram (0x100 + (s.sp + 1).toNat) := readValue_stackAddr s _

/-- A push is read back from the byte SP named. -/
theorem memGet_push8_self {s : State} (h : s.Sound) (d : Byte) : memGet (push8 d s).ram (0x100 + s.sp.toNat) = d := by
  rw [push8_ram, ramIndex_stackAddr, memGet_memSet_self _ _ _ h.ram.1]

/-- A push leaves the rest of the stack page alone. -/
theorem memGet_push8_of_ne {s : State} {sp : Byte} (d : Byte) (h : sp ≠ s.sp) :
    memGet (push8 d s).ram (0x100 + sp.toNat) = memGet s.ram (0x100 + sp.toNat) := by
  rw [push8_ram, ramIndex_stackAddr, memGet_memSet_of_ne]
  rw [Ne, BitVec.toNat_eq] at h
  omega

/-- A pop gives back the byte pushed, at any SP, wherever RAM and SP are as the push left them. -/
theorem pop8Value_of_push8 {s t : State} (h : s.Sound) (d : Byte) (hram : t.ram = (push8 d s).ram)
    (hsp : t.sp = s.sp - 1) : pop8Value t = d := by
  rw [pop8Value_eq, hram, hsp, BitVec.sub_add_cancel, memGet_push8_self h]

/-- The same of a word: the low byte, pushed last, is popped first (10_state.md R24). -/
theorem pop16Value_of_push16 {s t : State} (h : s.Sound) (w : Addr) (hram : t.ram = (push16 w s).ram)
    (hsp : t.sp = s.sp - 1 - 1) : pop16Value t = w := by
  have hlo : pop8Value t = loByte w := pop8Value_of_push8 (push8_sound h _) _ hram hsp
  have hhi : pop8Value (pop8State t) = hiByte w := by
    have hne : s.sp ≠ (push8 (hiByte w) s).sp := by rw [push8_sp]; bv_omega
    calc pop8Value (pop8State t)
        = memGet (push16 w s).ram (0x100 + s.sp.toNat) := by
          rw [pop8Value_eq, pop8State_ram, pop8State_sp, hram, hsp, BitVec.sub_add_cancel, BitVec.sub_add_cancel]
      _ = memGet (push8 (hiByte w) s).ram (0x100 + s.sp.toNat) := memGet_push8_of_ne _ hne
      _ = hiByte w := memGet_push8_self h _
  rw [pop16Value, hlo, hhi, word16_bytes]

/-! The six instructions, each as its register writes and pushes, then its tick. -/

theorem exec_jsr (w : Addr) (s : State) :
    exec (.jsr w) s = .next (busTick 6 ((push16 (s.pc + 2) s).setPc w)) := rfl
theorem exec_rts (s : State) : exec .rts s = .next (busTick 6 ((pop16State s).setPc (pop16Value s + 1))) := rfl
theorem exec_pha (s : State) : exec .pha s = .next (busTick 3 ((push8 s.a s).setPc (s.pc + 1))) := rfl
theorem exec_pla (s : State) :
    exec .pla s = .next (busTick 4 ((loadA (pop8Value s) (pop8State s)).setPc (s.pc + 1))) := rfl
theorem exec_php (s : State) :
    exec .php s = .next (busTick 3 ((push8 (pushedByProgram s.p) s).setPc (s.pc + 1))) := rfl
theorem exec_plp (s : State) :
    exec .plp s = .next (busTick 4 (((pop8State s).setP (pulledStatus (pop8Value s))).setPc (s.pc + 1))) := rfl

section
variable {s : State} (h : s.Sound)
include h

/-- RTS returns to the address after the JSR (44_jumps_stack_brk_nop.md R211, R212). -/
theorem rts_after_jsr (w : Addr) : ∃ t, exec (.jsr w) s = .next t ∧ ∀ pc, ∃ u, exec .rts (t.setPc pc) = .next u ∧
    u.registers = { s.registers with pc := s.pc + 3 } ∧ u.p = s.p := by
  refine ⟨_, exec_jsr w s, fun pc => ⟨_, exec_rts _, ?_, by simp⟩⟩
  rw [pop16Value_of_push16 h (s.pc + 2) (by simp) (by simp)]
  simp [State.registers, BitVec.add_assoc]

/-- PLA gives back the A that PHA pushed (44_jumps_stack_brk_nop.md R215, R216). -/
theorem pla_after_pha : ∃ t, exec .pha s = .next t ∧ ∀ a pc, ∃ u, exec .pla ((t.setA a).setPc pc) = .next u ∧
    u.a = s.a ∧ u.sp = s.sp := by
  refine ⟨_, exec_pha s, fun a pc => ⟨_, exec_pla _, ?_, by simp⟩⟩
  rw [busTick_a, State.setPc_a, loadA_a, pop8Value_of_push8 h s.a (by simp) (by simp)]

/-- PLP gives back the P that PHP pushed, since B is 0 and U is 1 in it (44_jumps_stack_brk_nop.md R217, R218). -/
theorem plp_after_php : ∃ t, exec .php s = .next t ∧ ∀ p pc, ∃ u, exec .plp ((t.setP p).setPc pc) = .next u ∧
    u.p = s.p ∧ u.sp = s.sp := by
  refine ⟨_, exec_php s, fun p pc => ⟨_, exec_plp _, ?_, by simp⟩⟩
  rw [busTick_p, State.setPc_p, State.setP_p, pop8Value_of_push8 h (pushedByProgram s.p) (by simp) (by simp)]
  exact pulled_pushedByProgram s.p h.flagB h.flagU

end

/-- Settles O37: the three pairs, each by what a pop reads back. -/
theorem pullsGiveBackWhatWasPushed : Obligations.PullsGiveBackWhatWasPushed :=
  fun _ h => ⟨rts_after_jsr h, pla_after_pha h, plp_after_php h⟩

end Sys2Proof.Machine

/-! PROOFS. The memory (20_memory.md): the bus maps for reads and for writes, RAM through its mirrors, the addresses of the
PPU's memories, and the frame of RAM and ROM. -/

namespace Sys2Proof.Machine

/-! ## The addresses the PPU resolves -/

/-- $3F00 is a multiple of 32, so `PAL` looks at the low five bits of the address (20_memory.md R81). -/
theorem palIndex_eq {a : VramAddr} (h : 0x3F00 ≤ a.toNat) :
    palIndex a = if a.toNat % 32 ∈ [0x10, 0x14, 0x18, 0x1C] then a.toNat % 32 - 0x10 else a.toNat % 32 := by
  have hk : (a.toNat - 0x3F00) % 32 = a.toNat % 32 := by omega
  simp only [palIndex, hk, List.mem_cons, List.not_mem_nil, or_false]

/-- Settles O49: the index is the low 12 bits of the address, less the KiBs that its table is mirrored down by. -/
theorem ppuAddressSpace : Obligations.PpuAddressSpace := by
  refine fun a => ⟨?_, fun h _ => palIndex_eq h, fun m => ntIndex_lt m a, palIndex_lt a⟩
  rintro table offset h h' rfl rfl
  rw [ntIndex_horizontal h h', ntIndex_vertical h h', ntIndex_fourScreen h h']
  have htable : a.toNat % 0x1000 / 0x400 < 4 := by omega
  have hsplit : a.toNat % 0x1000 = 0x400 * (a.toNat % 0x1000 / 0x400) + a.toNat % 0x400 := by omega
  generalize a.toNat % 0x1000 / 0x400 = table at htable hsplit
  rw [hsplit]
  refine ⟨?horizontal, ?vertical, rfl⟩
  case horizontal => split_ifs <;> omega
  case vertical => split_ifs <;> omega

/-! ## Reading the bus -/

section
variable {a : Addr} (s : State)

/-- A read of a port, where it is not fatal, is the port's row of the map (20_memory.md R52, R55). -/
theorem busRead_port {port : PpuPort} (hp : isPpu a = true) (hport : portOf a = port) (hok : readOk s a) :
    busRead a s = .done (portValue port s.ppu) (s.setPpu (portAfterRead s.cart port s.ppu)) := by
  obtain ⟨hlo, hhi⟩ := (isPpu_iff a).1 hp
  have hvalue : readValue s a = portValue port s.ppu := by
    rw [readValue, if_neg (by omega), if_pos hhi, hport]
  have heffect : readEffect s a = s.setPpu (portAfterRead s.cart port s.ppu) := by
    rw [readEffect, if_pos hp, hport]
  rw [busRead_of_readOk hok, hvalue, heffect]

/-- Only the port $2007 has a fatal read (60_exceptions.md R269). -/
theorem readOk_of_portOf {port : PpuPort} (hport : portOf a = port) (hne : port ≠ .data) : readOk s a :=
  fun h => absurd (hport.symm.trans (isPort_portOf h)) hne

/-- The five write-only ports (20_memory.md R52). -/
theorem portOf_writeOnly (h : a.toNat % 8 ∈ [0, 1, 3, 5, 6]) :
    portOf a ∈ [PpuPort.ctrl, .mask, .oamAddr, .scroll, .addr] := by
  simp only [List.mem_cons, List.not_mem_nil, or_false] at h
  rcases h with h | h | h | h | h <;> simp [portOf, h]

/-- A write-only port reads 0, with no effect (20_memory.md R52). -/
theorem busRead_writeOnly (hp : isPpu a = true) (h : a.toNat % 8 ∈ [0, 1, 3, 5, 6]) : busRead a s = .done 0 s := by
  have hmem := portOf_writeOnly h
  generalize hport : portOf a = port at hmem
  cases port with
  | ctrl | mask | oamAddr | scroll | addr => exact busRead_port s hp hport (readOk_of_portOf s hport (by decide))
  | status | oamData | data => exact absurd hmem (by decide)

/-- The byte a $2007 read returns where it is not fatal (60_exceptions.md R297). -/
theorem ppuReadDataValue_eq {u : Ppu} (h : u.v.toNat < 0x4000) :
    ppuReadDataValue u = if u.v.toNat < 0x3F00 then u.buf else memGet u.pal (palIndex u.v) := by
  rw [ppuReadDataValue, if_pos h]

/-- A $2007 read where it is not fatal (60_exceptions.md R297). -/
theorem busRead_data (hp : isPpu a = true) (h : a.toNat % 8 = 7) (hv : s.ppu.v.toNat < 0x4000) :
    busRead a s = .done (if s.ppu.v.toNat < 0x3F00 then s.ppu.buf else memGet s.ppu.pal (palIndex s.ppu.v))
      (s.setPpu (ppuAfterReadData s.cart s.ppu)) := by
  rw [← ppuReadDataValue_eq hv]
  exact busRead_port s hp (portOf_eq_data.2 h) fun _ => hv

/-- A $2007 read where it is fatal (60_exceptions.md R269). -/
theorem busRead_data_fatal (hp : isPpu a = true) (h : a.toNat % 8 = 7) (hv : 0x4000 ≤ s.ppu.v.toNat) :
    busRead a s = .fatal (.unmappedPpuRead s.ppu.v) :=
  busRead_of_not_readOk fun hok => absurd (hok ((isPort_iff _ _).2 ⟨hp, portOf_eq_data.2 h⟩)) (by omega)

/-- A read beyond the ports is never fatal. -/
theorem readOk_of_ge (h : 0x4000 ≤ a.toNat) : readOk s a :=
  readOk_of_not_isPpu (by simp only [isPpu, decide_eq_false_iff_not]; omega)

/-- A read of $4016 is the read of joypad 1 (60_exceptions.md R316). -/
theorem busRead_joy1 (h : a.toNat = 0x4016) :
    busRead a s = .done (joypadReadValue s.joy1) (s.setJoy1 (joypadAfterRead s.joy1)) := by
  have hp : isPpu a ≠ true := by rw [Ne, isPpu_iff]; omega
  rw [busRead_of_readOk (readOk_of_ge s (by omega)), readValue, readEffect, if_neg (by omega), if_neg (by omega),
    if_pos h, if_neg hp, if_pos h]

/-- A read of $4017 is the read of joypad 2 (60_exceptions.md R316). -/
theorem busRead_joy2 (h : a.toNat = 0x4017) :
    busRead a s = .done (joypadReadValue s.joy2) (s.setJoy2 (joypadAfterRead s.joy2)) := by
  have hp : isPpu a ≠ true := by rw [Ne, isPpu_iff]; omega
  rw [busRead_of_readOk (readOk_of_ge s (by omega)), readValue, readEffect, if_neg (by omega), if_neg (by omega),
    if_neg (by omega), if_pos h, if_neg hp, if_neg (by omega), if_pos h]

/-- The rest of $4000 to $7FFF reads 0, with no effect (20_memory.md R52, D20). -/
theorem busRead_unused (hlo : 0x4000 ≤ a.toNat) (hhi : a.toNat < 0x8000) (h1 : a.toNat ≠ 0x4016)
    (h2 : a.toNat ≠ 0x4017) : busRead a s = .done 0 s := by
  have hp : isPpu a ≠ true := by rw [Ne, isPpu_iff]; omega
  rw [busRead_of_readOk (readOk_of_ge s hlo), readValue, readEffect, if_neg (by omega), if_neg (by omega), if_neg h1,
    if_neg h2, if_pos hhi, if_neg hp, if_neg h1, if_neg h2]

theorem busRead_ram (h : a.toNat < 0x2000) : busRead a s = .done (memGet s.ram (ramIndex a)) s := by
  rw [busRead_of_isStorage ((isStorage_iff a).2 (.inl h)), readValue_ram s h]

theorem busRead_rom (h : 0x8000 ≤ a.toNat) :
    busRead a s = .done (memGet s.cart.prg (prgIndex s.cart.prgSize a)) s := by
  rw [busRead_of_isStorage ((isStorage_iff a).2 (.inr h)), readValue_rom s h]

end

/-! What a read of a joypad gives and leaves, by its index (60_exceptions.md R315). -/

section
variable {j : Joypad}

theorem joypadReadValue_of_gt (h : 7 < j.i) : joypadReadValue j = 1 := if_pos h
theorem joypadAfterRead_of_gt (h : 7 < j.i) : joypadAfterRead j = j := if_pos h

theorem joypadReadValue_of_le (h : j.i ≤ 7) : joypadReadValue j = BitVec.ofNat 8 (j.b.getLsbD j.i).toNat := by
  rw [joypadReadValue, if_neg (by omega)]
  apply BitVec.eq_of_getLsbD_eq
  intro k hk
  rcases k with _ | k
  · cases hb : j.b.getLsbD j.i <;> simp [hb]
  · cases j.b.getLsbD j.i <;> simp

theorem joypadAfterRead_of_le (h : j.i ≤ 7) :
    joypadAfterRead j = { j with i := if j.s then j.i else j.i + 1 } := by
  rw [joypadAfterRead, if_neg (by omega), Nat.min_eq_left (by omega)]
  split <;> rfl

end

/-- Settles O43, one rule of the map for each range of addresses. -/
theorem busReadMap : Obligations.BusReadMap := by
  intro a s
  refine ⟨busRead_ram s, fun hlo hhi => ?ports, busRead_unused s, fun h => ?joy1, fun h => ?joy2, fun h => ?rom⟩
  case ports =>
    have hp : isPpu a = true := (isPpu_iff a).2 ⟨hlo, hhi⟩
    refine ⟨fun h => ?_, fun h => ?_, busRead_writeOnly s hp, fun h => ⟨busRead_data s hp h, busRead_data_fatal s hp h⟩⟩
    · have hport : portOf a = .status := by simp [portOf, h]
      exact busRead_port s hp hport (readOk_of_portOf s hport (by decide))
    · have hport : portOf a = .oamData := by simp [portOf, h]
      exact busRead_port s hp hport (readOk_of_portOf s hport (by decide))
  case joy1 =>
    rw [busRead_joy1 s h]
    exact ⟨fun hi => by rw [joypadReadValue_of_gt hi, joypadAfterRead_of_gt hi]; rfl,
      fun hi => by rw [joypadReadValue_of_le hi, joypadAfterRead_of_le hi]; rfl⟩
  case joy2 =>
    rw [busRead_joy2 s h]
    exact ⟨fun hi => by rw [joypadReadValue_of_gt hi, joypadAfterRead_of_gt hi]; rfl,
      fun hi => by rw [joypadReadValue_of_le hi, joypadAfterRead_of_le hi]; rfl⟩
  case rom =>
    rw [busRead_rom s h]
    cases s.cart.prgSize <;> rfl

/-! ## Writing the bus -/

section
variable {a : Addr} (d : Byte) (s : State)

theorem busWrite_eq_writeRam (h : a.toNat < 0x2000) : busWrite a d s = .done () (writeRam a d s) := if_pos h

theorem busWrite_port (hlo : 0x2000 ≤ a.toNat) (hhi : a.toNat < 0x4000) : busWrite a d s = portWrite (portOf a) d s := by
  rw [busWrite, if_neg (by omega), if_pos hhi]

theorem busWrite_strobe (h : a.toNat = 0x4016) : busWrite a d s = .done () (s.setJoy1 (joypadWrite d s.joy1)) := by
  rw [busWrite, if_neg (by omega), if_neg (by omega), if_neg (by omega), if_pos h]

theorem busWrite_ignored (hlo : 0x4000 ≤ a.toNat) (hhi : a.toNat < 0x8000) (h1 : a.toNat ≠ 0x4014)
    (h2 : a.toNat ≠ 0x4016) : busWrite a d s = .done () s := by
  rw [busWrite, if_neg (by omega), if_neg (by omega), if_neg h1, if_neg h2, if_pos hhi]

theorem busWrite_rom (h : 0x8000 ≤ a.toNat) : busWrite a d s = .fatal (.writeToRom a) := by
  rw [busWrite, if_neg (by omega), if_neg (by omega), if_neg (by omega), if_neg (by omega), if_neg (by omega)]

/-- The strobe follows bit 0, and the index is cleared where it is set (60_exceptions.md R314). -/
theorem joypadWrite_eq (j : Joypad) :
    joypadWrite d j = { j with s := d.getLsbD 0, i := if d.getLsbD 0 then 0 else j.i } := by
  unfold joypadWrite
  cases d.getLsbD 0 <;> rfl

end

/-- Settles O44, one rule of the map for each range of addresses. -/
theorem busWriteMap : Obligations.BusWriteMap := by
  intro a d s
  refine ⟨busWrite_eq_writeRam d s, fun hlo hhi h => ?status, fun h => ?strobe, busWrite_ignored d s, busWrite_rom d s⟩
  case status =>
    have hport : portOf a = .status := by simp [portOf, h]
    rw [busWrite_port d s hlo hhi, hport]
    rfl
  case strobe =>
    rw [busWrite_strobe d s h, joypadWrite_eq]
    rfl

/-! ## RAM and its mirrors -/

theorem toNat_and_07FF (a : Addr) : (a &&& 0x07FF).toNat = ramIndex a := by
  rw [BitVec.toNat_and]
  exact Nat.and_two_pow_sub_one_eq_mod a.toNat 11

/-- An address and its lowest mirror name the same byte (20_memory.md R54). -/
theorem ramIndex_and_07FF (a : Addr) : ramIndex (a &&& 0x07FF) = ramIndex a := by
  rw [ramIndex, toNat_and_07FF]
  exact Nat.mod_eq_of_lt (ramIndex_lt a)

/-- Every address that names the byte written reads it back. -/
theorem busRead_writeRam_same {s : State} (hs : s.Sound) {a b : Addr} (d : Byte) (h : sameRamByte b a) :
    busRead b (writeRam a d s) = .done d (writeRam a d s) := by
  obtain ⟨hb, -, hidx⟩ := h
  have hba : ramIndex b = ramIndex a := hidx
  have hget : memGet (writeRam a d s).ram (ramIndex b) = d := by
    rw [hba]
    exact memGet_memSet_self s.ram (ramIndex a) d hs.ram.1
  rw [busRead_ram _ hb, hget]

/-- Every other byte of RAM and ROM reads as before. -/
theorem readValue_writeRam_of_not_same (s : State) {a b : Addr} (d : Byte) (ha : a.toNat < 0x2000)
    (hb : isStorage b = true) (h : ¬ sameRamByte b a) : readValue (writeRam a d s) b = readValue s b := by
  rcases (isStorage_iff b).1 hb with hram | hrom
  · have hne : ramIndex b ≠ ramIndex a := fun e => h ⟨hram, ha, e⟩
    rw [readValue_ram _ hram, readValue_ram _ hram]
    exact memGet_memSet_of_ne s.ram d hne
  · rw [readValue_rom _ hrom, readValue_rom _ hrom]
    rfl

/-- Settles O45: both accesses see the address through `ramIndex` alone. -/
theorem ramReadsBackThroughItsMirrors : Obligations.RamReadsBackThroughItsMirrors := by
  intro a b d s hs ha
  have hmirror : (a &&& 0x07FF).toNat < 0x2000 := by
    rw [toNat_and_07FF]
    exact Nat.lt_trans (ramIndex_lt a) (by decide)
  refine ⟨?read, ?write, writeRam a d s, busWrite_eq_writeRam d s ha, busRead_writeRam_same hs d, fun hb hne => ?_⟩
  case read => rw [busRead_ram s ha, busRead_ram s hmirror, ramIndex_and_07FF]
  case write => rw [busWrite_eq_writeRam d s ha, busWrite_eq_writeRam d s hmirror, writeRam, writeRam, ramIndex_and_07FF]
  rw [busRead_of_isStorage hb, readValue_writeRam_of_not_same s d ha hb hne]

/-! ## The frame of RAM and ROM -/

/-- The accesses of an instruction leave every byte of RAM and ROM that it neither stores nor pushes. -/
theorem Effect.readValue_eq {i : Instr} {s w : State} (h : Effect i s w) {a : Addr} (ha : isStorage a = true)
    (hframe : ∀ b ∈ targetAddrs i s ++ pushAddrs i s, ¬ sameRamByte a b) : readValue w a = readValue s a := by
  rcases (isStorage_iff a).1 ha with hram | hrom
  · rw [readValue_ram w hram, readValue_ram s hram]
    exact h.ram _ fun b hb hlt e => hframe b hb ⟨hram, hlt, e.symm⟩
  · rw [readValue_rom w hrom, readValue_rom s hrom, h.cart]

/-- Settles O40: the tick changes neither RAM nor the cartridge, and BRK in Halt mode makes no access. -/
theorem memoryChangesOnlyWhereStored : Obligations.MemoryChangesOnlyWhereStored := by
  intro i s t a hexec ha hframe
  rcases exec_completes hexec with ⟨w, c, heffect, -, -, rfl⟩ | ⟨-, -, rfl⟩
  · rw [readValue_congr ha (busTick_ram w c) (busTick_cart w c), heffect.readValue_eq ha hframe]
  · exact readValue_congr ha rfl rfl

end Sys2Proof.Machine

/-! PROOFS. The encoding (30_encoding.md): what an entry of the opcode map reads and from which bytes, both round trips
between decoder and encoder, the undefined bytes, and the effective addresses. -/

namespace Sys2Proof

/-! ## The entries of the opcode map -/

/-- The instruction an entry reads, where the operand is the byte `d` or the word `w`. -/
def Form.instr (d : Byte) (w : Addr) : Form → Instr
  | .f1 i => i
  | .f2 mk | .f2skip mk => mk d
  | .f3 mk => mk w

/-- The bytes the entry of opcode byte `op` reads it from: the formats F1, F2, F3 of R90. -/
def Form.bytes (op d : Byte) (w : Addr) : Form → List Byte
  | .f1 _ => [op]
  | .f2 _ | .f2skip _ => [op, d]
  | .f3 _ => [op, loByte w, hiByte w]

/-- The decoder reads the entry's instruction from the entry's bytes. -/
theorem decode_bytes {op : Byte} {f : Form} (h : decodeOpcode op = f) (d : Byte) (w : Addr) (rest : List Byte) :
    decode (f.bytes op d w ++ rest) = .ok (f.instr d w, rest) := by
  cases f <;> simp [decode, h, Form.bytes, Form.instr]

/-- The decoder reads nothing else. -/
theorem exists_form_of_decode {bytes rest : List Byte} {i : Instr} (h : decode bytes = .ok (i, rest)) :
    ∃ op d w, i = (decodeOpcode op).instr d w ∧ bytes = (decodeOpcode op).bytes op d w ++ rest := by
  unfold decode at h
  split at h
  case h_1 => cases h
  case h_2 op tail =>
    refine ⟨op, ?_⟩
    split at h
    case h_1 i hop => cases h; exact ⟨0, 0, by simp [hop, Form.bytes, Form.instr]⟩
    case h_2 mk d tail hop | h_3 mk d tail hop => cases h; exact ⟨d, 0, by simp [hop, Form.bytes, Form.instr]⟩
    case h_4 mk lo hi tail hop => cases h; exact ⟨0, word16 hi lo, by simp [hop, Form.bytes, Form.instr]⟩
    case h_5 => cases h

/-- Three bytes are enough for any opcode byte (R91). -/
theorem exists_decode_three (op b1 b2 : Byte) : ∃ i rest, decode [op, b1, b2] = .ok (i, rest) := by
  cases h : decodeOpcode op <;> simp [decode, h]

/-! ## From the map to the encoder -/

/-- The 16 opcode bytes of one row of the map. -/
def rowBytes (row : Nat) : List Byte := (List.range 16).map fun column => BitVec.ofNat 8 (16 * row + column)

theorem mem_rowBytes (op : Byte) : op ∈ rowBytes (op.toNat / 16) := by
  refine List.mem_map.2 ⟨op.toNat % 16, List.mem_range.2 (Nat.mod_lt _ (by decide)), ?_⟩
  rw [Nat.div_add_mod, BitVec.ofNat_toNat, BitVec.setWidth_eq]

/-- The map of R104 and the table of R105 agree, row by row: for every opcode byte, whatever the operand, the instruction
its entry reads is well formed and encoded as the bytes of the entry. -/
theorem map_encode_rowBytes (d : Byte) (w : Addr) {row : Nat} (hrow : row < 16) :
    ((rowBytes row).map fun op => (((decodeOpcode op).instr d w).wf, encode ((decodeOpcode op).instr d w))) =
      (rowBytes row).map fun op => (true, (decodeOpcode op).bytes op d w) := by
  interval_cases row <;> rfl

/-- What the map's entry of a byte reads is well formed, and the encoder gives back the bytes it is read from. -/
theorem encode_decodeOpcode (op d : Byte) (w : Addr) :
    ((decodeOpcode op).instr d w).wf = true ∧ encode ((decodeOpcode op).instr d w) = (decodeOpcode op).bytes op d w := by
  have hrow : op.toNat / 16 < 16 := by omega
  have hentry := List.map_inj_left.1 (map_encode_rowBytes d w hrow) op (mem_rowBytes op)
  exact Prod.mk.inj hentry

/-- Settles O4: the bytes a decoded instruction was read from are those of its entry, and the encoder gives these. -/
theorem encodeOfDecode : Obligations.EncodeOfDecode := by
  intro bytes rest i h
  obtain ⟨op, d, w, rfl, rfl⟩ := exists_form_of_decode h
  obtain ⟨hwf, hencode⟩ := encode_decodeOpcode op d w
  exact ⟨hwf, by rw [hencode]⟩

/-! ## From the encoder to the map -/

/-- The entry of an opcode byte whose operand is in memory, by its mode. -/
def Form.ofMode (mk : MemOperand → Instr) : MemMode → Form
  | .zp => .f2 fun d => mk (.zp d)
  | .zpx => .f2 fun d => mk (.zpx d)
  | .zpy => .f2 fun d => mk (.zpy d)
  | .abs => .f3 fun w => mk (.abs w)
  | .abx => .f3 fun w => mk (.abx w)
  | .aby => .f3 fun w => mk (.aby w)
  | .izx => .f2 fun d => mk (.izx d)
  | .izy => .f2 fun d => mk (.izy d)

/-- The entry of the *NOP byte `op` of a form (45_undocumented.md R239). -/
def Form.ofNop (op : Byte) : NopOperand → Form
  | .imp => .f1 (.nopU op .imp)
  | .imm _ => .f2skip fun d => .nopU op (.imm d)
  | .mem o => .ofMode (fun o => .nopU op (.mem o)) o.mode

/-- A mnemonic's row of R105 and the map agree: each of its modes has an opcode byte, whose entry is the mnemonic in
that mode. -/
def RowInMap (mk : MemOperand → Instr) (ops : List (MemMode × Byte)) (modes : List MemMode) : Prop :=
  (modes.map fun m => (ops.lookup m).map decodeOpcode) = modes.map fun m => some (Form.ofMode mk m)

theorem RowInMap.exists_opcode {mk : MemOperand → Instr} {ops : List (MemMode × Byte)} {modes : List MemMode}
    (hrow : RowInMap mk ops modes) {o : MemOperand} (h : o.hasMode modes = true) :
    ∃ op, ops.lookup o.mode = some op ∧ decodeOpcode op = Form.ofMode mk o.mode :=
  Option.map_eq_some_iff.1 (List.map_inj_left.1 hrow o.mode (of_decide_eq_true h))

section
variable (rest : List Byte)

theorem decode_word {op : Byte} {mk : Addr → Instr} (h : decodeOpcode op = .f3 mk) (w : Addr) :
    decode ([op, loByte w, hiByte w] ++ rest) = .ok (mk w, rest) :=
  decode_bytes h 0 w rest

theorem decode_memOperand {op : Byte} {mk : MemOperand → Instr} (o : MemOperand)
    (h : decodeOpcode op = Form.ofMode mk o.mode) : decode (op :: o.bytes ++ rest) = .ok (mk o, rest) := by
  cases o with
  | abs w | abx w | aby w => exact decode_word rest h w
  | zp d | zpx d | zpy d | izx d | izy d => exact decode_bytes h d 0 rest

theorem decode_encodeMem {mk : MemOperand → Instr} {ops : List (MemMode × Byte)} {modes : List MemMode}
    (hrow : RowInMap mk ops modes) {o : MemOperand} (h : o.hasMode modes = true) :
    decode (encodeMem ops o ++ rest) = .ok (mk o, rest) := by
  obtain ⟨op, hlookup, hop⟩ := hrow.exists_opcode h
  rw [encodeMem, hlookup]
  exact decode_memOperand rest o hop

theorem decode_encodeSource {mk : Source → Instr} {imm : Byte} {ops : List (MemMode × Byte)} {modes : List MemMode}
    (himm : decodeOpcode imm = .f2 fun d => mk (.imm d)) (hrow : RowInMap (fun o => mk (.mem o)) ops modes)
    {src : Source} (h : src.hasMode modes = true) : decode (encodeSource imm ops src ++ rest) = .ok (mk src, rest) := by
  cases src with
  | imm d => exact decode_bytes himm d 0 rest
  | mem o => exact decode_encodeMem rest hrow h

theorem decode_encodeTarget {mk : Target → Instr} {acc : Byte} {ops : List (MemMode × Byte)} {modes : List MemMode}
    (hacc : decodeOpcode acc = .f1 (mk .acc)) (hrow : RowInMap (fun o => mk (.mem o)) ops modes)
    {tgt : Target} (h : tgt.hasMode modes = true) : decode (encodeTarget acc ops tgt ++ rest) = .ok (mk tgt, rest) := by
  cases tgt with
  | acc => exact decode_bytes hacc 0 0 rest
  | mem o => exact decode_encodeMem rest hrow h

end

/-- The *NOP bytes of each form have the entries of that form. -/
theorem map_decodeOpcode_nopBytes (n : NopOperand) :
    (nopBytes n).map decodeOpcode = (nopBytes n).map fun op => Form.ofNop op n := by
  cases n with
  | imp | imm => rfl
  | mem o => cases o <;> rfl

theorem decode_encodeNop {op : Byte} {n : NopOperand} (h : op ∈ nopBytes n) (rest : List Byte) :
    decode (encodeNop op n ++ rest) = .ok (.nopU op n, rest) := by
  have hop : decodeOpcode op = Form.ofNop op n := List.map_inj_left.1 (map_decodeOpcode_nopBytes n) op h
  cases n with
  | imp => exact decode_bytes hop 0 0 rest
  | imm d => exact decode_bytes hop d 0 rest
  | mem o => exact decode_memOperand (mk := fun o => .nopU op (.mem o)) rest o hop

/-- The entries of the 25 undefined bytes (R107; log 13). -/
theorem decodeOpcode_undefined {op : Byte} (h : op ∈ undefinedBytes) : decodeOpcode op = .f1 (.undefined op) := by
  have hentries : undefinedBytes.map decodeOpcode = undefinedBytes.map fun op => .f1 (.undefined op) := rfl
  exact List.map_inj_left.1 hentries op h

/-- Settles O3: the entry of each opcode byte that the encoder writes is the mnemonic in the mode it was written for. -/
theorem decodeOfEncode : Obligations.DecodeOfEncode := by
  intro i rest h
  cases i
  case lda | ldx | ldy | adc | sbc | and | ora | eor | cmp | cpx | cpy => exact decode_encodeSource rest (by rfl) (by rfl) h
  case asl | lsr | rol | ror => exact decode_encodeTarget rest (by rfl) (by rfl) h
  case sta | stx | sty | bit | inc | dec | lax | sax | dcp | isb | slo | rla | sre | rra =>
    exact decode_encodeMem rest (by rfl) h
  case jmp j =>
    cases j with
    | abs w => exact decode_word (op := 0x4C) rest (by rfl) w
    | ind w => exact decode_word (op := 0x6C) rest (by rfl) w
  case jsr w => exact decode_word rest (by rfl) w
  case bcc | bcs | beq | bne | bmi | bpl | bvc | bvs | sbcU => rfl
  case tax | tay | tsx | txa | txs | tya | inx | iny | dex | dey | clc | sec | cld | sed | cli | sei | clv => rfl
  case rts | rti | pha | pla | php | plp | brk | nop => rfl
  case nopU op n => exact decode_encodeNop (of_decide_eq_true h) rest
  case undefined op => exact decode_bytes (decodeOpcode_undefined (of_decide_eq_true h)) 0 0 rest

/-! ## The opcode bytes -/

/-- Settles O1: each of the ten bytes evaluated to its entry in the map, for any operand. -/
theorem decodesTheBytesTheSourceShows : Obligations.DecodesTheBytesTheSourceShows :=
  fun _ _ _ => ⟨rfl, rfl, rfl, rfl, rfl, rfl, rfl, rfl, rfl, rfl⟩

/-- Settles O2: three bytes always decode, and to UNDEFINED only where the opcode byte, which the encoder gives back, is
one of the 25. -/
theorem everyByteIsAnOpcode : Obligations.EveryByteIsAnOpcode := by
  refine ⟨by decide, by decide, fun op b1 b2 => ⟨fun h => ?undefined, fun h => ?defined⟩⟩
  case undefined => exact decode_bytes (decodeOpcode_undefined h) 0 0 [b1, b2]
  case defined =>
    obtain ⟨i, rest, hdecode⟩ := exists_decode_three op b1 b2
    obtain ⟨hwf, hencode⟩ := encodeOfDecode _ _ _ hdecode
    refine ⟨i, rest, hdecode, hwf, ?_⟩
    rintro b rfl
    obtain ⟨rfl, -⟩ : b = op ∧ rest = [b1, b2] := List.cons.inj hencode
    exact h (of_decide_eq_true hwf)

namespace Machine

/-- An opcode byte whose instruction has no operand is all the fetch reads (60_exceptions.md R267). -/
theorem fetchInstr_of_f1 {s u : State} {op : Byte} {i : Instr} (hread : busRead s.pc s = .done op u)
    (hop : decodeOpcode op = .f1 i) : fetchInstr s = .done i u := by
  simp only [fetchInstr, hread, andThen_done, hop]

/-- A step of a run that has not ended executes what it fetches (60_exceptions.md R260). -/
theorem step_of_fetchInstr {s u : State} {i : Instr} (hrun : s.halted = false)
    (hfetch : fetchInstr (takePendingNmi s) = .done i u) : step s = exec i u := by
  simp [step, hrun, hfetch]

/-- Settles O33: the fetch of an undefined byte is its opcode read alone, which leaves PC where it is. -/
theorem undefinedBytesAreFatal : Obligations.UndefinedBytesAreFatal := by
  intro b hb
  have hwf : (Instr.undefined b).wf = true := decide_eq_true hb
  refine ⟨hwf, ⟨rfl, decodeOfEncode (.undefined b) [] hwf⟩, fun s => rfl, ?_⟩
  rintro s w u hrun rfl hread
  have hfetch := fetchInstr_of_f1 hread (decodeOpcode_undefined hb)
  have hpc : u.pc = (takePendingNmi s).pc := (byReads_of_busRead hread).only.pc
  rw [step_of_fetchInstr hrun hfetch, ← hpc]
  rfl

/-! ## The effective addresses -/

/-- An index is added to a word modulo 65536 (R99, R102). -/
theorem toNat_add_setWidth (w : Addr) (b : Byte) : (w + b.setWidth 16).toNat = (w.toNat + b.toNat) % 65536 := by
  rw [BitVec.toNat_add, BitVec.toNat_setWidth_of_le (by decide)]

section
variable (s : State)

/-- The two pointer bytes are those at the byte and at its successor in page 0 (20_memory.md R63). -/
theorem toNat_readZeroPageWord {b : Byte} {ptr next : Addr} (hptr : ptr.toNat = b.toNat)
    (hnext : next.toNat = (b.toNat + 1) % 256) :
    (readZeroPageWord s b).toNat = (readValue s ptr).toNat + 256 * (readValue s next).toNat := by
  obtain rfl : ptr = zeroPage b := BitVec.eq_of_toNat_eq (by rw [hptr, toNat_zeroPage])
  obtain rfl : next = zeroPage (b + 1) := BitVec.eq_of_toNat_eq (by rw [hnext, toNat_zeroPage]; rfl)
  rw [readZeroPageWord, toNat_word16]
  omega

theorem crossed_iff (o : MemOperand) :
    crossed o s = true ↔ (baseAddress o s).toNat / 256 ≠ (effAddr o s).toNat / 256 := by
  rw [crossed, bne_iff_ne, ne_eq, ← BitVec.toNat_inj, toNat_hiByte, toNat_hiByte]

variable (w : Addr)

theorem toNat_effAddr_abx : (effAddr (.abx w) s).toNat = (w.toNat + s.x.toNat) % 65536 := toNat_add_setWidth w s.x

theorem toNat_effAddr_aby : (effAddr (.aby w) s).toNat = (w.toNat + s.y.toNat) % 65536 := toNat_add_setWidth w s.y

theorem toNat_effAddr_izy (b : Byte) :
    (effAddr (.izy b) s).toNat = ((readZeroPageWord s b).toNat + s.y.toNat) % 65536 :=
  toNat_add_setWidth (readZeroPageWord s b) s.y

end

/-- Settles O11: byte sums wrap in page 0, word sums at 65536, and `crossed` compares the pages of base and sum. -/
theorem effectiveAddresses : Obligations.EffectiveAddresses := by
  intro s b w
  refine ⟨toNat_zeroPage b, ?zpx, ?zpy, rfl, toNat_effAddr_abx s w, toNat_effAddr_aby s w, ?izx, ?izy, ?crossedX,
    ?crossedY, crossed_zp b s, crossed_zpx b s, crossed_zpy b s, crossed_abs w s, crossed_izx b s⟩
  case zpx => exact (toNat_zeroPage _).trans (BitVec.toNat_add b s.x)
  case zpy => exact (toNat_zeroPage _).trans (BitVec.toNat_add b s.y)
  case izx =>
    intro ptr next hptr hnext
    rw [← BitVec.toNat_add b s.x] at hptr
    exact toNat_readZeroPageWord s hptr (by rw [hnext, hptr])
  case izy =>
    rintro ptr next base hptr hnext rfl
    rw [crossed_iff, toNat_effAddr_izy, ← toNat_readZeroPageWord s hptr hnext]
    exact ⟨rfl, Iff.rfl⟩
  case crossedX => rw [crossed_iff, toNat_effAddr_abx]; exact Iff.rfl
  case crossedY => rw [crossed_iff, toNat_effAddr_aby]; exact Iff.rfl

end Machine
end Sys2Proof

/-! PROOFS. Loads, stores and transfers (40_loads_stores_transfers.md), and *LAX (45_undocumented.md R231): how the rows of a
mnemonic meet the opcode map and the shapes' lengths and cycles, then each rule from its shape. -/

namespace Sys2Proof.Machine

/-! ## The rows of a mnemonic -/

/-- Bytes that decode with nothing left over are the encoding of a well-formed instruction (30_encoding.md R90). -/
theorem wf_and_encodes_of_decode {bytes : List Byte} {i : Instr} (h : decode bytes = .ok (i, [])) :
    i.wf = true ∧ Encodes bytes i := by
  obtain ⟨hwf, hencode⟩ := encodeOfDecode _ _ _ h
  rw [List.append_nil] at hencode
  exact ⟨hwf, hencode, h⟩

/-- The rows are the forms of a mnemonic, where their modes are those it is well formed in, and the map's entry of each
row's byte is the mnemonic in the row's mode. -/
theorem formsAre_of {mk : MemOperand → Instr} {rows : List Row} (hmodes : ∀ o, (mk o).wf = o.hasMode (rows.map Row.mode))
    (hmap : (rows.map fun r => decodeOpcode r.op) = rows.map fun r => Form.ofMode mk r.mode) : FormsAre mk rows := by
  refine ⟨fun o hwf => ?_, fun r hr o hm => ?_⟩
  · rw [hmodes] at hwf
    exact List.mem_map.1 (of_decide_eq_true hwf)
  · have hop : decodeOpcode r.op = Form.ofMode mk o.mode := hm ▸ List.map_inj_left.1 hmap r hr
    have hdecode := decode_memOperand [] o hop
    rw [List.append_nil] at hdecode
    exact wf_and_encodes_of_decode hdecode

/-- An operand of the mode: lengths and base cycles depend on no more than the mode. -/
def operandOfMode : MemMode → MemOperand
  | .zp => .zp 0
  | .zpx => .zpx 0
  | .zpy => .zpy 0
  | .abs => .abs 0
  | .abx => .abx 0
  | .aby => .aby 0
  | .izx => .izx 0
  | .izy => .izy 0

theorem memLength_operandOfMode (o : MemOperand) : memLength (operandOfMode o.mode) = memLength o := by cases o <;> rfl

theorem readBaseCycles_operandOfMode (o : MemOperand) : readBaseCycles (operandOfMode o.mode) = readBaseCycles o := by
  cases o <;> rfl

theorem storeCycles_operandOfMode (o : MemOperand) : storeCycles (operandOfMode o.mode) = storeCycles o := by
  cases o <;> rfl

/-- The modes whose sum can leave the page of its base (30_encoding.md R99, R102). -/
def canCross : MemMode → Bool
  | .abx | .aby | .izy => true
  | .zp | .zpx | .zpy | .abs | .izx => false

theorem canCross_and_crossed (o : MemOperand) (s : State) : (canCross o.mode && crossed o s) = crossed o s := by
  cases o <;> simp [canCross, MemOperand.mode]

/-- The row's length, base cycles and page-cross flag are those that a shape of base cycles `base` has in the row's mode. -/
def Row.hasShape (base : MemOperand → Nat) (plus : MemMode → Bool) (r : Row) : Bool :=
  r == ⟨r.op, r.mode, (memLength (operandOfMode r.mode)).toNat, base (operandOfMode r.mode), plus r.mode⟩

theorem Row.hasShape_iff {base : MemOperand → Nat} {plus : MemMode → Bool} {r : Row} :
    r.hasShape base plus = true ↔ r.length = (memLength (operandOfMode r.mode)).toNat ∧
      r.cycles = base (operandOfMode r.mode) ∧ r.plus = plus r.mode := by
  cases r
  simp [Row.hasShape]

section
variable {base : MemOperand → Nat} (hbase : ∀ o, base (operandOfMode o.mode) = base o)
include hbase

/-- Rows of a shape cost the shape's base cycles, and one more where the shape has the flag and the page is crossed. -/
theorem agrees_of_hasShape {rows : List Row} {plus : MemMode → Bool} {cycles : MemOperand → State → Nat}
    (hcycles : ∀ o s, cycles o s = base o + if plus o.mode && crossed o s then 1 else 0)
    (h : rows.all (Row.hasShape base plus) = true) : ∀ r ∈ rows, r.agrees cycles := by
  intro r hr o s hm
  obtain ⟨hlength, hcost, hplus⟩ := Row.hasShape_iff.1 (List.all_eq_true.1 h r hr)
  constructor
  · rw [Row.next, hlength, hm, memLength_operandOfMode, BitVec.ofNat_toNat, BitVec.setWidth_eq]
  · rw [Row.cost, hcost, hplus, hm, hbase, hcycles]

/-- The rows of a shape with no page-cross flag (30_encoding.md R110). -/
theorem agrees_of_unflagged {rows : List Row} (h : rows.all (Row.hasShape base fun _ => false) = true) :
    ∀ r ∈ rows, r.agrees fun o _ => base o :=
  agrees_of_hasShape hbase (fun _ _ => rfl) h

end

/-- The rows of an instruction that reads its operand (30_encoding.md R110, R111). -/
theorem agrees_readCycles {rows : List Row} (h : rows.all (Row.hasShape readBaseCycles canCross) = true) :
    ∀ r ∈ rows, r.agrees readCycles :=
  agrees_of_hasShape readBaseCycles_operandOfMode (fun o s => by rw [canCross_and_crossed, readCycles]) h

/-! ## Loads -/

/-- An access leaves the CPU registers as they are. -/
theorem OnlyDevices.registers {s u : State} (h : OnlyDevices s u) : u.registers = s.registers := by
  rw [State.registers, h.a, h.x, h.y, h.sp, h.pc, State.registers]

/-- `load m` writes the byte `m` to the registers as `set m` says, sets Z and N from it, and does nothing else. -/
structure IsLoad (load : Byte → State → State) (set : Byte → Registers → Registers) : Prop where
  registers : ∀ m s, (load m s).registers = set m s.registers
  status : ∀ m s, (load m s).p = setNZ m s.p
  outside : ∀ m s, (load m s).outside = s.outside

theorem isLoad_loadA : IsLoad loadA fun m r => { r with a := m } := ⟨fun _ _ => rfl, fun _ _ => rfl, fun _ _ => rfl⟩
theorem isLoad_loadX : IsLoad loadX fun m r => { r with x := m } := ⟨fun _ _ => rfl, fun _ _ => rfl, fun _ _ => rfl⟩
theorem isLoad_loadY : IsLoad loadY fun m r => { r with y := m } := ⟨fun _ _ => rfl, fun _ _ => rfl, fun _ _ => rfl⟩

/-- *LAX loads A and X with the same byte (45_undocumented.md R231). -/
theorem isLoad_lax : IsLoad (fun m s => loadA m (s.setX m)) fun m r => { r with a := m, x := m } :=
  ⟨fun _ _ => rfl, fun _ _ => rfl, fun _ _ => rfl⟩

section
variable {load : Byte → State → State} {set : Byte → Registers → Registers} (h : IsLoad load set)
include h

theorem IsLoad.bits (m : Byte) (s : State) : statusBits (load m s).p = (statusBits s.p).nz m := by
  rw [h.status, statusBits_setNZ]

/-! After an access, a load writes the registers and flags that the instruction began with. -/

theorem IsLoad.registers_after {s u : State} (hu : OnlyDevices s u) (m : Byte) :
    (load m u).registers = set m s.registers := by
  rw [h.registers, hu.registers]

theorem IsLoad.bits_after {s u : State} (hu : OnlyDevices s u) (m : Byte) :
    statusBits (load m u).p = (statusBits s.p).nz m := by
  rw [h.bits, hu.p]

theorem IsLoad.readRule {mk : MemOperand → Instr} {rows : List Row} (hforms : FormsAre mk rows)
    (hrows : rows.all (Row.hasShape readBaseCycles canCross) = true)
    (hexec : ∀ o s, exec (mk o) s = readThen (.mem o) load s) :
    ReadRule mk rows (fun m s => set m s.registers) fun m s => (statusBits s.p).nz m :=
  readRule_of load hforms (agrees_readCycles hrows) hexec h.outside (fun _ _ _ _ hu => by rw [h.registers_after hu])
    fun m _ _ hu => h.bits_after hu m

theorem IsLoad.immediateRule {mk : Byte → Instr} {op : Byte} (hop : decodeOpcode op = .f2 mk)
    (hexec : ∀ m s, exec (mk m) s = readThen (.imm m) load s) :
    ImmediateRule mk op (fun m s => set m s.registers) fun m s => (statusBits s.p).nz m :=
  immediateRule_of load (fun m => wf_and_encodes_of_decode (decode_bytes hop m 0 [])) hexec h.outside
    (fun _ _ _ _ hu => by rw [h.registers_after hu]) fun m _ _ hu => h.bits_after hu m

end

/-- Settles O12: each instruction is the read shape with a load, in the rows the map has for it. What is evaluated for each
is its opcode bytes in the map, its table of rows against the shape, and its arm of `exec`. -/
theorem loadRules : Obligations.LoadRules :=
  ⟨⟨isLoad_loadA.immediateRule rfl fun _ _ => rfl,
      isLoad_loadA.readRule (formsAre_of (fun _ => rfl) rfl) rfl fun _ _ => rfl⟩,
    ⟨isLoad_loadX.immediateRule rfl fun _ _ => rfl,
      isLoad_loadX.readRule (formsAre_of (fun _ => rfl) rfl) rfl fun _ _ => rfl⟩,
    ⟨isLoad_loadY.immediateRule rfl fun _ _ => rfl,
      isLoad_loadY.readRule (formsAre_of (fun _ => rfl) rfl) rfl fun _ _ => rfl⟩,
    isLoad_lax.readRule (formsAre_of (fun _ => rfl) rfl) rfl fun _ _ => rfl⟩

/-! ## Stores -/

/-- A mnemonic whose meaning is the store shape, in rows that are its forms and have the shape's lengths and cycles. -/
theorem storeRule_of_rows {mk : MemOperand → Instr} {rows : List Row} {value : State → Byte} (hforms : FormsAre mk rows)
    (hrows : rows.all (Row.hasShape storeCycles fun _ => false) = true)
    (hexec : ∀ o s, exec (mk o) s = storeByte o (value s) s) : StoreRule mk rows value :=
  storeRule_of hforms (agrees_of_unflagged storeCycles_operandOfMode hrows) hexec

/-- Settles O13: each instruction is the store shape, in the rows the map has for it; evaluated are its modes and opcode
bytes, its table of rows against the shape, and its arm of `exec`. -/
theorem storeRules : Obligations.StoreRules :=
  ⟨storeRule_of_rows (formsAre_of (fun _ => rfl) rfl) rfl fun _ _ => rfl,
    storeRule_of_rows (formsAre_of (fun _ => rfl) rfl) rfl fun _ _ => rfl,
    storeRule_of_rows (formsAre_of (fun _ => rfl) rfl) rfl fun _ _ => rfl⟩

/-! ## Transfers -/

/-- A transfer loads a register with what another holds. -/
theorem IsLoad.transferRule {load : Byte → State → State} {set : Byte → Registers → Registers} (h : IsLoad load set)
    (value : State → Byte) {i : Instr} {op : Byte} (hop : decodeOpcode op = .f1 i)
    (hexec : ∀ s, exec i s = implied 2 (fun s => load (value s) s) s) :
    ImpliedRule i op 2 (fun s => set (value s) s.registers) fun s => (statusBits s.p).nz (value s) := by
  obtain ⟨hwf, hencodes⟩ := wf_and_encodes_of_decode (decode_bytes hop 0 0 [])
  refine impliedRule_of _ hwf hencodes hexec (fun s => h.outside _ s) (fun s pc => ?_) fun s => h.bits _ s
  rw [h.registers]

/-- TXS sets no flag, so it is no load (40_loads_stores_transfers.md R140). -/
theorem txs_rule : ImpliedRule .txs 0x9A 2 (fun s => { s.registers with sp := s.x }) fun s => statusBits s.p := by
  obtain ⟨hwf, hencodes⟩ := wf_and_encodes_of_decode (i := .txs) (decode_bytes (op := 0x9A) rfl 0 0 [])
  exact impliedRule_of (fun s => s.setSp s.x) hwf hencodes (fun _ => rfl) (fun _ => rfl) (fun _ _ => rfl) fun _ => rfl

/-- Settles O14: five of the six are a load of what another register holds, and TXS writes SP alone. -/
theorem transferRules : Obligations.TransferRules :=
  ⟨isLoad_loadX.transferRule (fun s => s.a) rfl fun _ => rfl,
    isLoad_loadY.transferRule (fun s => s.a) rfl fun _ => rfl,
    isLoad_loadX.transferRule (fun s => s.sp) rfl fun _ => rfl,
    isLoad_loadA.transferRule (fun s => s.x) rfl fun _ => rfl,
    txs_rule,
    isLoad_loadA.transferRule (fun s => s.y) rfl fun _ => rfl⟩

end Sys2Proof.Machine

/-! PROOFS. Arithmetic, logic, shifts, rotates and BIT (41_arithmetic_logic_shifts.md): what an operation on the CPU alone
makes of each shape, the arithmetic of the results and flags, then each rule from its shape. -/

namespace Sys2Proof.Machine

/-! ## Operations on the CPU alone -/

/-- `op` changes the CPU alone, and looks at nothing else: the registers become `regs` and the bits of P `bits` of what
both were. -/
structure IsCpuOp (op : State → State) (regs : Registers → StatusBits → Registers)
    (bits : Registers → StatusBits → StatusBits) : Prop where
  registers : ∀ s, (op s).registers = regs s.registers (statusBits s.p)
  bits : ∀ s, statusBits (op s).p = bits s.registers (statusBits s.p)
  outside : ∀ s, (op s).outside = s.outside

section
variable {op : State → State} {regs : Registers → StatusBits → Registers} {bits : Registers → StatusBits → StatusBits}
  (h : IsCpuOp op regs bits)
include h

/-! After an access, the operation finds the CPU as the instruction began. -/

theorem IsCpuOp.registers_after {s u : State} (hu : OnlyDevices s u) :
    (op u).registers = regs s.registers (statusBits s.p) := by
  rw [h.registers, hu.registers, hu.p]

theorem IsCpuOp.bits_after {s u : State} (hu : OnlyDevices s u) :
    statusBits (op u).p = bits s.registers (statusBits s.p) := by
  rw [h.bits, hu.registers, hu.p]

theorem IsCpuOp.impliedRule {i : Instr} {opcode : Byte} {cycles : Nat} (hop : decodeOpcode opcode = .f1 i)
    (hexec : ∀ s, exec i s = implied cycles op s) :
    ImpliedRule i opcode cycles (fun s => regs s.registers (statusBits s.p))
      fun s => bits s.registers (statusBits s.p) := by
  obtain ⟨hwf, hencodes⟩ := wf_and_encodes_of_decode (decode_bytes hop 0 0 [])
  exact impliedRule_of op hwf hencodes hexec h.outside (fun s _ => by rw [h.registers]) h.bits

end

/-- Where the read shape completes, its read was not fatal. -/
theorem sourceOk_of_readThen_next {src : Source} {op : Byte → State → State} {s t : State}
    (h : readThen src op s = .next t) : sourceOk src s := by
  rcases readThen_cases src op s with ⟨hok, -⟩ | ⟨-, hfault⟩
  · exact hok
  · cases h.symm.trans hfault

section
variable {op : Byte → State → State} {regs : Byte → Registers → StatusBits → Registers}
  {bits : Byte → Registers → StatusBits → StatusBits} (h : ∀ m, IsCpuOp (op m) (regs m) (bits m))
include h

theorem readRule_of_isCpuOp {mk : MemOperand → Instr} {rows : List Row} (hforms : FormsAre mk rows)
    (hrows : rows.all (Row.hasShape readBaseCycles canCross) = true)
    (hexec : ∀ o s, exec (mk o) s = readThen (.mem o) op s) :
    ReadRule mk rows (fun m s => regs m s.registers (statusBits s.p)) fun m s => bits m s.registers (statusBits s.p) :=
  readRule_of op hforms (agrees_readCycles hrows) hexec (fun m => (h m).outside)
    (fun m _ _ _ hu => by rw [(h m).registers_after hu]) fun m _ _ hu => (h m).bits_after hu

theorem immediateRule_of_isCpuOp {mk : Byte → Instr} {opcode : Byte} (hop : decodeOpcode opcode = .f2 mk)
    (hexec : ∀ m s, exec (mk m) s = readThen (.imm m) op s) :
    ImmediateRule mk opcode (fun m s => regs m s.registers (statusBits s.p))
      fun m s => bits m s.registers (statusBits s.p) :=
  immediateRule_of op (fun m => wf_and_encodes_of_decode (decode_bytes hop m 0 [])) hexec (fun m => (h m).outside)
    (fun m _ _ _ hu => by rw [(h m).registers_after hu]) fun m _ _ hu => (h m).bits_after hu

/-- The read shape with any source, where its read is not fatal. -/
theorem readThen_of_isCpuOp {src : Source} {s : State} (hok : sourceOk src s) :
    ∃ t, readThen src op s = .next t ∧ Leaves (sourceAfter src s) (sourceCycles src s)
      { regs (sourceValue src s) s.registers (statusBits s.p) with pc := s.pc + sourceLength src }
      (bits (sourceValue src s) s.registers (statusBits s.p)) t := by
  have hu := sourceAfter_onlyDevices src s
  rcases readThen_cases src op s with ⟨-, hnext⟩ | ⟨hfatal, -⟩
  · refine ⟨_, hnext, ?_⟩
    rw [← (h _).registers_after hu, ← (h _).bits_after hu]
    exact leaves_busTick (sourceCycles src s)
      (w := (op (sourceValue src s) (sourceAfter src s)).setPc (s.pc + sourceLength src)) ((h _).outside _)
  · exact absurd hok hfatal

/-- What the read shape leaves, wherever it completes. -/
theorem leaves_of_readThen_next {src : Source} {s t : State} (hnext : readThen src op s = .next t) :
    Leaves (sourceAfter src s) (sourceCycles src s)
      { regs (sourceValue src s) s.registers (statusBits s.p) with pc := s.pc + sourceLength src }
      (bits (sourceValue src s) s.registers (statusBits s.p)) t := by
  obtain ⟨t', hnext', hleaves⟩ := readThen_of_isCpuOp h (sourceOk_of_readThen_next hnext)
  cases hnext'.symm.trans hnext
  exact hleaves

end

theorem modifyCycles_operandOfMode (o : MemOperand) : modifyCycles (operandOfMode o.mode) = modifyCycles o := by
  cases o <;> rfl

/-- A read-modify-write whose byte to write depends on the CPU alone, and which then operates on the CPU alone. -/
theorem modifyRule_of_isCpuOp {after : Byte → Byte → State → State}
    {regs : Byte → Byte → Registers → StatusBits → Registers} {bits : Byte → Byte → Registers → StatusBits → StatusBits}
    {mk : MemOperand → Instr} {rows : List Row} {result : Byte → State → Byte}
    (h : ∀ m r, IsCpuOp (after m r) (regs m r) (bits m r))
    (hresult : ∀ m s u, OnlyDevices s u → result m u = result m s) (hforms : FormsAre mk rows)
    (hrows : rows.all (Row.hasShape modifyCycles fun _ => false) = true)
    (hexec : ∀ o s, exec (mk o) s = modifyThen o result after s) :
    ModifyRule mk rows result (fun m s => regs m (result m s) s.registers (statusBits s.p))
      fun m s => bits m (result m s) s.registers (statusBits s.p) :=
  modifyRule_of result after hforms (agrees_of_unflagged modifyCycles_operandOfMode hrows) hexec hresult
    (fun m r => (h m r).outside) (fun m _ _ _ hu => by rw [(h m _).registers_after hu])
    fun m _ _ hu => (h m _).bits_after hu

/-- An operation that writes P alone. -/
theorem isCpuOp_setP {flags : State → Byte} {bits : Registers → StatusBits → StatusBits}
    (h : ∀ s, statusBits (flags s) = bits s.registers (statusBits s.p)) :
    IsCpuOp (fun s => s.setP (flags s)) (fun r _ => r) bits :=
  ⟨fun _ => rfl, h, fun _ => rfl⟩

/-! ## The arithmetic of AddCore -/

section
variable (f : StatusBits) (a m : Byte) (c : Bool)

theorem toNat_sumByte : (sumByte a m c).toNat = (a.toNat + m.toNat + c.toNat) % 256 := by
  rw [sumByte, BitVec.toNat_ofNat]

/-- `AddCore(m)` sets the flags of R149. -/
theorem statusBits_addFlags_eq_sumBits (p : Byte) : statusBits (addFlags a m p) = sumBits (statusBits p) a m := by
  have hv : ∀ x y : Byte, (x == 0 && y != 0) = decide (x = 0 ∧ y ≠ 0) := fun x y => by
    rw [Bool.decide_and, bne, beq_eq_decide, beq_eq_decide, decide_not]
  simp only [addFlags, statusBits_setNZ, statusBits_setV, statusBits_setC, hv]
  rfl

/-- The mask $80 compares the signs of two bytes (00_scope.md R8). -/
theorem xor_and_0x80_eq_zero_iff (x y : Byte) : (x ^^^ y) &&& 0x80 = 0 ↔ (x.toNat < 128 ↔ y.toNat < 128) := by
  have hmask : ∀ z : Byte, z &&& 0x80 = 0 ↔ z.msb = false := by decide
  rw [hmask, BitVec.msb_xor, bne_eq_false_iff_eq, BitVec.msb_eq_decide, BitVec.msb_eq_decide, decide_eq_decide]
  omega

theorem sumBits_c : (sumBits f a m).c = true ↔ a.toNat + m.toNat + f.c.toNat > 255 := decide_eq_true_iff

/-- V is two's-complement overflow of the sum (R148). -/
theorem sumBits_v : (sumBits f a m).v = true ↔
    ¬ (-128 ≤ a.toInt + m.toInt + f.c.toNat ∧ a.toInt + m.toInt + f.c.toNat ≤ 127) := by
  have hc : f.c.toNat ≤ 1 := Bool.toNat_le f.c
  have hsign : (sumBits f a m).v = true ↔ _ := decide_eq_true_iff
  rw [hsign, ne_eq, xor_and_0x80_eq_zero_iff, xor_and_0x80_eq_zero_iff, toNat_sumByte, BitVec.toInt_eq_toNat_cond,
    BitVec.toInt_eq_toNat_cond]
  split_ifs <;> omega

/-! The sum with M inverted is the difference (R151). -/

theorem sumByte_not : sumByte a (~~~m) c = differenceByte a m c := by
  apply BitVec.eq_of_toNat_eq
  rw [toNat_sumByte, differenceByte, difference, BitVec.toNat_ofInt, BitVec.toNat_not]
  omega

theorem sumBits_not : sumBits f a (~~~m) = differenceBits f a m := by
  have hc : a.toNat + (~~~m).toNat + f.c.toNat > 255 ↔ difference a m f.c ≥ 0 := by
    rw [difference, BitVec.toNat_not]
    omega
  have hv : (a ^^^ ~~~m) &&& 0x80 = 0 ↔ (a ^^^ m) &&& 0x80 ≠ 0 := by
    rw [ne_eq, xor_and_0x80_eq_zero_iff, xor_and_0x80_eq_zero_iff, BitVec.toNat_not]
    omega
  simp only [sumBits, differenceBits, sumByte_not, hc, hv]

theorem differenceBits_c : (differenceBits f a m).c = true ↔ (a.toNat : Int) - m.toNat - (1 - f.c.toNat) ≥ 0 :=
  decide_eq_true_iff

/-- V is two's-complement overflow of the difference (R148). -/
theorem differenceBits_v : (differenceBits f a m).v = true ↔
    ¬ (-128 ≤ a.toInt - m.toInt - (1 - f.c.toNat) ∧ a.toInt - m.toInt - (1 - f.c.toNat) ≤ 127) := by
  have hnot : (~~~m).toInt = -1 - m.toInt := by
    rw [BitVec.toInt_eq_toNat_cond, BitVec.toInt_eq_toNat_cond, BitVec.toNat_not]
    split_ifs <;> omega
  rw [← sumBits_not, sumBits_v, hnot]
  omega

end

/-! ## ADC and SBC -/

theorem isCpuOp_addCore (m : Byte) :
    IsCpuOp (addCore m) (fun r f => { r with a := sumByte r.a m f.c }) fun r f => sumBits f r.a m :=
  ⟨fun _ => rfl, fun s => statusBits_addFlags_eq_sumBits s.a m s.p, fun s => addCore_outside s m⟩

/-- SBC adds M inverted (R151). -/
theorem isCpuOp_addCore_xor (m : Byte) :
    IsCpuOp (addCore (m ^^^ 0xFF)) (fun r f => { r with a := differenceByte r.a m f.c })
      fun r f => differenceBits f r.a m := by
  have hnot : m ^^^ 0xFF = ~~~m := BitVec.xor_allOnes
  simpa only [hnot, sumByte_not, sumBits_not] using isCpuOp_addCore (m ^^^ 0xFF)

/-- Settles O15: ADC is the read shape with `AddCore(M)`. -/
theorem adcRule : Obligations.AdcRule :=
  ⟨immediateRule_of_isCpuOp isCpuOp_addCore rfl fun _ _ => rfl,
    readRule_of_isCpuOp isCpuOp_addCore (formsAre_of (fun _ => rfl) rfl) rfl fun _ _ => rfl⟩

/-- Settles O16: SBC and *SBC are the read shape with `AddCore` of M inverted. -/
theorem sbcRules : Obligations.SbcRules :=
  ⟨immediateRule_of_isCpuOp isCpuOp_addCore_xor rfl fun _ _ => rfl,
    readRule_of_isCpuOp isCpuOp_addCore_xor (formsAre_of (fun _ => rfl) rfl) rfl fun _ _ => rfl,
    immediateRule_of_isCpuOp isCpuOp_addCore_xor rfl fun _ _ => rfl⟩

/-! ## AND, ORA, EOR and BIT -/

/-- A loaded with a byte that its old value gives. -/
theorem isCpuOp_loadA (value : Byte → Byte) :
    IsCpuOp (fun s => loadA (value s.a) s) (fun r _ => { r with a := value r.a }) fun r f => f.nz (value r.a) :=
  ⟨fun _ => rfl, fun s => statusBits_setNZ s.p (value s.a), fun s => loadA_outside s (value s.a)⟩

theorem isCpuOp_bit (m : Byte) : IsCpuOp (fun s => s.setP (bitFlags s.a m s.p)) (fun r _ => r)
    fun r f => { f with z := decide ((m &&& r.a).toNat = 0), n := m.getLsbD 7, v := m.getLsbD 6 } :=
  isCpuOp_setP fun s => statusBits_bitFlags s.p s.a m

/-- Settles O17: each is the read shape, AND, ORA and EOR with a load of A, BIT with its flags alone. -/
theorem logicAndBitRules : Obligations.LogicAndBitRules :=
  ⟨⟨immediateRule_of_isCpuOp (fun m => isCpuOp_loadA (· &&& m)) rfl fun _ _ => rfl,
      readRule_of_isCpuOp (fun m => isCpuOp_loadA (· &&& m)) (formsAre_of (fun _ => rfl) rfl) rfl fun _ _ => rfl⟩,
    ⟨immediateRule_of_isCpuOp (fun m => isCpuOp_loadA (· ||| m)) rfl fun _ _ => rfl,
      readRule_of_isCpuOp (fun m => isCpuOp_loadA (· ||| m)) (formsAre_of (fun _ => rfl) rfl) rfl fun _ _ => rfl⟩,
    ⟨immediateRule_of_isCpuOp (fun m => isCpuOp_loadA (· ^^^ m)) rfl fun _ _ => rfl,
      readRule_of_isCpuOp (fun m => isCpuOp_loadA (· ^^^ m)) (formsAre_of (fun _ => rfl) rfl) rfl fun _ _ => rfl⟩,
    readRule_of_isCpuOp isCpuOp_bit (formsAre_of (fun _ => rfl) rfl) rfl fun _ _ => rfl⟩

/-! ## Shifts and rotates

The results and the bit shifted out, as arithmetic (R155 to R158). -/

section
variable (v : Byte)

theorem shiftLeft_eq : shiftLeft v = BitVec.ofNat 8 (v.toNat * 2) := by
  apply BitVec.eq_of_toNat_eq
  rw [shiftLeft, BitVec.toNat_shiftLeft, Nat.shiftLeft_eq, BitVec.toNat_ofNat]

theorem shiftRight_eq : shiftRight v = BitVec.ofNat 8 (v.toNat / 2) := by
  apply BitVec.eq_of_toNat_eq
  rw [shiftRight, BitVec.toNat_ushiftRight, Nat.shiftRight_eq_div_pow, BitVec.toNat_ofNat]
  omega

theorem rotateLeft_eq (c : Bool) : rotateLeft c v = BitVec.ofNat 8 (v.toNat * 2 + c.toNat) := by
  revert v c; decide

theorem rotateRight_eq (c : Bool) : rotateRight c v = BitVec.ofNat 8 (v.toNat / 2 + 128 * c.toNat) := by
  revert v c; decide

theorem getLsbD_seven : v.getLsbD 7 = decide (128 ≤ v.toNat) := BitVec.getLsbD_last v

theorem getLsbD_zero : v.getLsbD 0 = decide (v.toNat % 2 = 1) := Nat.testBit_zero v.toNat

end

theorem isCpuOp_shiftFlags (out : Bool) (r : Byte) :
    IsCpuOp (fun s => s.setP (shiftFlags out r s.p)) (fun regs _ => regs) fun _ f => StatusBits.nz { f with c := out } r :=
  isCpuOp_setP fun s => statusBits_shiftFlags s.p out r

theorem isCpuOp_shiftA (result : Byte → Bool → Byte) (out : Byte → Bool) :
    IsCpuOp (fun s => (s.setA (result s.a (flagC s.p))).setP (shiftFlags (out s.a) (result s.a (flagC s.p)) s.p))
      (fun r f => { r with a := result r.a f.c })
      fun r f => StatusBits.nz { f with c := out r.a } (result r.a f.c) :=
  ⟨fun _ => rfl, fun s => statusBits_shiftFlags s.p _ _, fun _ => rfl⟩

/-- A shift or rotate, on A and on memory: of `v` and the carry, `result` is left and `out v` goes to C. -/
theorem shiftRule {mk : Target → Instr} {opcode : Byte} {rows : List Row} (result : Byte → Bool → Byte)
    (out : Byte → Bool) (hop : decodeOpcode opcode = .f1 (mk .acc)) (hforms : FormsAre (fun o => mk (.mem o)) rows)
    (hrows : rows.all (Row.hasShape modifyCycles fun _ => false) = true)
    (hexec : ∀ tgt s, exec (mk tgt) s = shiftThen tgt (fun v s => result v (flagC s.p)) out s) :
    ImpliedRule (mk .acc) opcode 2 (fun s => { s.registers with a := result s.a (statusBits s.p).c })
        (fun s => StatusBits.nz { statusBits s.p with c := out s.a } (result s.a (statusBits s.p).c)) ∧
      ModifyRule (fun o => mk (.mem o)) rows (fun m s => result m (statusBits s.p).c) (fun _ s => s.registers)
        fun m s => StatusBits.nz { statusBits s.p with c := out m } (result m (statusBits s.p).c) :=
  ⟨(isCpuOp_shiftA result out).impliedRule hop fun s => hexec .acc s,
    modifyRule_of_isCpuOp (fun m r => isCpuOp_shiftFlags (out m) r) (fun m s u hu => by rw [hu.p]) hforms hrows
      fun o s => hexec (.mem o) s⟩

/-! The four mnemonics as the shift shape, in this arithmetic. -/

theorem exec_asl (tgt : Target) (s : State) : exec (.asl tgt) s =
    shiftThen tgt (fun v _ => BitVec.ofNat 8 (v.toNat * 2)) (fun v => decide (128 ≤ v.toNat)) s := by
  simp only [exec, execAsl, shiftLeft_eq, getLsbD_seven]

theorem exec_lsr (tgt : Target) (s : State) : exec (.lsr tgt) s =
    shiftThen tgt (fun v _ => BitVec.ofNat 8 (v.toNat / 2)) (fun v => decide (v.toNat % 2 = 1)) s := by
  simp only [exec, execLsr, shiftRight_eq, getLsbD_zero]

theorem exec_rol (tgt : Target) (s : State) : exec (.rol tgt) s =
    shiftThen tgt (fun v s => BitVec.ofNat 8 (v.toNat * 2 + (flagC s.p).toNat)) (fun v => decide (128 ≤ v.toNat)) s := by
  simp only [exec, execRol, rotateLeft_eq, getLsbD_seven]

theorem exec_ror (tgt : Target) (s : State) : exec (.ror tgt) s =
    shiftThen tgt (fun v s => BitVec.ofNat 8 (v.toNat / 2 + 128 * (flagC s.p).toNat))
      (fun v => decide (v.toNat % 2 = 1)) s := by
  simp only [exec, execRor, rotateRight_eq, getLsbD_zero]

/-- Settles O18: both are the shift shape, whose result looks at no carry. -/
theorem shiftRules : Obligations.ShiftRules :=
  ⟨shiftRule (fun v _ => BitVec.ofNat 8 (v.toNat * 2)) _ rfl (formsAre_of (fun _ => rfl) rfl) rfl exec_asl,
    shiftRule (fun v _ => BitVec.ofNat 8 (v.toNat / 2)) _ rfl (formsAre_of (fun _ => rfl) rfl) rfl exec_lsr⟩

/-- Settles O19: both are the shift shape, whose result takes in the carry. -/
theorem rotateRules : Obligations.RotateRules :=
  ⟨shiftRule (fun v c => BitVec.ofNat 8 (v.toNat * 2 + c.toNat)) _ rfl (formsAre_of (fun _ => rfl) rfl) rfl exec_rol,
    shiftRule (fun v c => BitVec.ofNat 8 (v.toNat / 2 + 128 * c.toNat)) _ rfl (formsAre_of (fun _ => rfl) rfl) rfl
      exec_ror⟩

/-! ## Carry, overflow and D in ADC and SBC -/

/-- ADC in any form leaves the bits of the sum. -/
theorem statusBits_of_exec_adc {src : Source} {s t : State} (h : exec (.adc src) s = .next t) :
    statusBits t.p = sumBits (statusBits s.p) s.a (sourceValue src s) := by
  obtain ⟨-, hbits, -⟩ := leaves_of_readThen_next isCpuOp_addCore h
  exact hbits

/-- SBC in any form leaves the bits of the difference. -/
theorem statusBits_of_exec_sbc {src : Source} {s t : State} (h : exec (.sbc src) s = .next t) :
    statusBits t.p = differenceBits (statusBits s.p) s.a (sourceValue src s) := by
  obtain ⟨-, hbits, -⟩ := leaves_of_readThen_next isCpuOp_addCore_xor h
  exact hbits

/-- *SBC is SBC Immediate (45_undocumented.md R240). -/
theorem exec_sbcU (d : Byte) (s : State) : exec (.sbcU d) s = exec (.sbc (.imm d)) s := rfl

/-! No operand is found, read or paid for by P. -/

section
variable (s : State) (p : Byte)

@[simp] theorem State.setP_registers : (s.setP p).registers = s.registers := rfl

@[simp] theorem baseAddress_setP (o : MemOperand) : baseAddress o (s.setP p) = baseAddress o s := by cases o <;> rfl

@[simp] theorem effAddr_setP (o : MemOperand) : effAddr o (s.setP p) = effAddr o s := by cases o <;> rfl

@[simp] theorem crossed_setP (o : MemOperand) : crossed o (s.setP p) = crossed o s := by
  rw [crossed, baseAddress_setP, effAddr_setP, crossed]

theorem readEffect_setP (a : Addr) : readEffect (s.setP p) a = (readEffect s a).setP p := by
  unfold readEffect
  split_ifs <;> rfl

variable (src : Source)

@[simp] theorem sourceValue_setP : sourceValue src (s.setP p) = sourceValue src s := by
  cases src with
  | imm d => rfl
  | mem o => rw [sourceValue, effAddr_setP]; rfl

@[simp] theorem sourceOk_setP : sourceOk src (s.setP p) ↔ sourceOk src s := by
  cases src with
  | imm d => rfl
  | mem o => rw [sourceOk, effAddr_setP]; rfl

@[simp] theorem sourceCycles_setP : sourceCycles src (s.setP p) = sourceCycles src s := by
  cases src with
  | imm d => rfl
  | mem o => simp only [sourceCycles, readCycles, crossed_setP]

@[simp] theorem sourceAfter_setP_outside : (sourceAfter src (s.setP p)).outside = (sourceAfter src s).outside := by
  cases src with
  | imm d => rfl
  | mem o => rw [sourceAfter, effAddr_setP, readEffect_setP, State.setP_outside]; rfl

end

/-- With D set otherwise, an instruction of the read shape whose operation neither looks at D nor writes it leaves the same
but for D. -/
theorem readThen_setD {op : Byte → State → State} {regs : Byte → Registers → StatusBits → Registers}
    {bits : Byte → Registers → StatusBits → StatusBits} (h : ∀ m, IsCpuOp (op m) (regs m) (bits m))
    (hregs : ∀ m r f d, regs m r { f with d := d } = regs m r f)
    (hbits : ∀ m r f d, bits m r { f with d := d } = { bits m r f with d := d })
    {src : Source} {s t : State} (hnext : readThen src op s = .next t) (b : Bool) :
    ∃ t', readThen src op (s.setP (setD b s.p)) = .next t' ∧ t'.registers = t.registers ∧
      statusBits t'.p = { statusBits t.p with d := b } ∧ t'.outside = t.outside := by
  obtain ⟨hr, hf, ho⟩ := leaves_of_readThen_next h hnext
  have hok : sourceOk src (s.setP (setD b s.p)) := (sourceOk_setP s _ src).2 (sourceOk_of_readThen_next hnext)
  obtain ⟨t', hnext', hr', hf', ho'⟩ := readThen_of_isCpuOp h hok
  refine ⟨t', hnext', ?registers, ?bits, ?outside⟩
  case registers => rw [hr', hr, sourceValue_setP, State.setP_p, statusBits_setD, hregs]; rfl
  case bits => rw [hf', hf, sourceValue_setP, State.setP_p, statusBits_setD, hbits]; rfl
  case outside =>
    rw [ho', ho, sourceCycles_setP]
    exact busTick_outside_congr _ (sourceAfter_setP_outside s _ src)

/-- Settles O34: C and V as the sum and the difference have them, in which D has no part (R148). -/
theorem carryAndOverflowOfAdcAndSbc : Obligations.CarryAndOverflowOfAdcAndSbc := by
  intro s i m t h
  refine ⟨⟨?adc, ?sbc⟩, ?decimal⟩
  case adc =>
    intro hi
    have hbits : statusBits t.p = sumBits (statusBits s.p) s.a m := by
      rcases hi with rfl | ⟨o, rfl, rfl⟩
      · exact statusBits_of_exec_adc (src := .imm m) h
      · exact statusBits_of_exec_adc (src := .mem o) h
    rw [hbits]
    exact ⟨sumBits_c _ _ _, sumBits_v _ _ _⟩
  case sbc =>
    intro hi
    have hbits : statusBits t.p = differenceBits (statusBits s.p) s.a m := by
      rcases hi with rfl | rfl | ⟨o, rfl, rfl⟩
      · exact statusBits_of_exec_sbc (src := .imm m) h
      · exact statusBits_of_exec_sbc (src := .imm m) ((exec_sbcU m s).symm.trans h)
      · exact statusBits_of_exec_sbc (src := .mem o) h
    rw [hbits]
    exact ⟨differenceBits_c _ _ _, differenceBits_v _ _ _⟩
  case decimal =>
    rintro ⟨src, rfl | rfl | ⟨d, rfl⟩⟩ b
    · exact readThen_setD isCpuOp_addCore (fun _ _ _ _ => rfl) (fun _ _ _ _ => rfl) h b
    · exact readThen_setD isCpuOp_addCore_xor (fun _ _ _ _ => rfl) (fun _ _ _ _ => rfl) h b
    · exact readThen_setD (src := .imm d) isCpuOp_addCore_xor (fun _ _ _ _ => rfl) (fun _ _ _ _ => rfl) h b

/-! ## ADC, CLC, SBC -/

/-- CLC clears C and writes nothing else (43_incdec_flags.md R197). -/
theorem clc_rule : ImpliedRule .clc 0x18 2 State.registers fun s => { statusBits s.p with c := false } :=
  (isCpuOp_setP (bits := fun _ f => { f with c := false }) fun s => statusBits_setC false s.p).impliedRule rfl
    fun _ => rfl

/-- With the carry inverted, the difference takes back what the sum added. -/
theorem differenceByte_sumByte (a m : Byte) (c : Bool) : differenceByte (sumByte a m c) m (!c) = a := by
  apply BitVec.eq_of_toNat_eq
  have hnot : (!c).toNat + c.toNat = 1 := by cases c <;> rfl
  rw [differenceByte, difference, BitVec.toNat_ofInt, toNat_sumByte]
  omega

/-- Settles O35: A is the sum with the carry, and the difference with the borrow that CLC leaves takes it back (R160). -/
theorem adcClcSbcRestoresA : Obligations.AdcClcSbcRestoresA := by
  intro s m hc
  obtain ⟨hadc, -⟩ := adcRule
  obtain ⟨hsbc, -⟩ := sbcRules
  obtain ⟨-, -, hadc⟩ := hadc m
  obtain ⟨-, -, hclc⟩ := clc_rule
  obtain ⟨-, -, hsbc⟩ := hsbc m
  obtain ⟨t, ht, htregs, -, -⟩ := hadc s
  obtain ⟨u, hu, huregs, hubits, -⟩ := hclc t
  obtain ⟨v, hv, hvregs, hvbits, -⟩ := hsbc u
  refine ⟨t, u, v, ht, hu, hv, ?_, hvbits⟩
  calc v.a = differenceByte u.a m (statusBits u.p).c := congrArg Registers.a hvregs
    _ = differenceByte t.a m false := by rw [hubits, show u.a = t.a from congrArg Registers.a huregs]
    _ = differenceByte (sumByte s.a m true) m (!true) := by
      rw [show t.a = sumByte s.a m (statusBits s.p).c from congrArg Registers.a htregs, hc, Bool.not_true]
    _ = s.a := differenceByte_sumByte s.a m true

end Sys2Proof.Machine

/-! PROOFS. Branches and compares (42_branches_compares.md): the branch shape, taken and not taken, with its
target as arithmetic, then the rule of the eight; the flags of `Compare` as arithmetic, then each compare from its shape. -/

namespace Sys2Proof.Machine

/-! ## Branches -/

/-- An instruction that writes PC and nothing else, in any number of cycles. -/
theorem leaves_setPc (s : State) (pc : Addr) (cycles : Nat) :
    Leaves s cycles { s.registers with pc := pc } (statusBits s.p) (busTick cycles (s.setPc pc)) :=
  leaves_busTick cycles (w := s.setPc pc) rfl

section
variable (off : Byte) (s : State)

theorem branchIf_false : branchIf false off s = .next (busTick 2 (s.setPc (s.pc + 2))) := rfl

/-- A branch taken compares the page of its target with that of the next instruction (R170, D7). -/
theorem branchIf_true : branchIf true off s = .next (busTick
    (if (branchTarget off s).toNat / 256 = (s.pc + 2).toNat / 256 then 3 else 4) (s.setPc (branchTarget off s))) := by
  have hpage : hiByte (branchTarget off s) = hiByte (s.pc + 2) ↔
      (branchTarget off s).toNat / 256 = (s.pc + 2).toNat / 256 := by
    rw [← BitVec.toNat_inj, toNat_hiByte, toNat_hiByte]
  simp only [branchIf, finish, if_true, bne_iff_ne, ne_eq, hpage]
  split_ifs <;> rfl

/-- The offset is signed: sign extension adds $FF00 to an offset byte from $80 on (R170). -/
theorem toNat_branchTarget : (branchTarget off s).toNat =
    (s.pc.toNat + 2 + off.toNat + if off.toNat < 128 then 0 else 0xFF00) % 65536 := by
  have hoff : (off.signExtend 16).toNat = off.toNat + if off.toNat < 128 then 0 else 0xFF00 := by
    rw [BitVec.toNat_signExtend, BitVec.toNat_setWidth_of_le (by decide), BitVec.msb_eq_decide]
    simp only [decide_eq_true_eq]
    split_ifs <;> omega
  rw [branchTarget, BitVec.toNat_add, BitVec.toNat_add, hoff, Nat.mod_add_mod, Nat.add_assoc _ off.toNat]
  rfl

end

/-- A mnemonic of format F2 whose meaning is the branch shape. -/
theorem branchRule_of_branchIf {mk : Byte → Instr} {opcode : Byte} {cond : State → Bool}
    (hop : decodeOpcode opcode = .f2 mk) (hexec : ∀ off s, exec (mk off) s = branchIf (cond s) off s) :
    BranchRule mk opcode cond := by
  intro off
  obtain ⟨hwf, hencodes⟩ := wf_and_encodes_of_decode (decode_bytes hop off 0 [])
  refine ⟨hwf, hencodes, fun s => ?_⟩
  rw [hexec]
  cases cond s with
  | false => exact ⟨_, branchIf_false off s, fun _ => leaves_setPc s _ 2, nofun⟩
  | true =>
    refine ⟨_, branchIf_true off s, nofun, fun _ target htarget => ?_⟩
    obtain rfl : target = branchTarget off s := BitVec.eq_of_toNat_eq (htarget.trans (toNat_branchTarget off s).symm)
    exact leaves_setPc s _ _

/-- Settles O20: each of the eight is the branch shape on one flag of P; evaluated for each are its opcode byte in the map
and its arm of `exec`. -/
theorem branchRules : Obligations.BranchRules :=
  ⟨branchRule_of_branchIf rfl fun _ _ => rfl, branchRule_of_branchIf rfl fun _ _ => rfl,
    branchRule_of_branchIf rfl fun _ _ => rfl, branchRule_of_branchIf rfl fun _ _ => rfl,
    branchRule_of_branchIf rfl fun _ _ => rfl, branchRule_of_branchIf rfl fun _ _ => rfl,
    branchRule_of_branchIf rfl fun _ _ => rfl, branchRule_of_branchIf rfl fun _ _ => rfl⟩

/-! ## Compares -/

/-- `Compare(reg, m)` sets the flags of R179: the wrapped difference of two bytes is the integer difference modulo 256. -/
theorem statusBits_compareFlags_eq_compareBits (reg m p : Byte) :
    statusBits (compareFlags reg m p) = compareBits (statusBits p) reg m := by
  have hdiff : BitVec.ofInt 8 (reg.toNat - m.toNat) = reg - m := by
    apply BitVec.eq_of_toNat_eq
    rw [BitVec.toNat_ofInt, BitVec.toNat_sub]
    omega
  rw [compareBits, hdiff]
  exact statusBits_compareFlags p reg m

/-- `Compare` of a register with M writes P alone. -/
theorem isCpuOp_compareWith (reg : Registers → Byte) (m : Byte) :
    IsCpuOp (fun s => compareWith (reg s.registers) m s) (fun r _ => r) fun r f => compareBits f (reg r) m :=
  isCpuOp_setP fun s => statusBits_compareFlags_eq_compareBits (reg s.registers) m s.p

/-- A compare of the register `reg`, in its Immediate form and its memory forms. -/
theorem compareRule {mk : Source → Instr} {opcode : Byte} {rows : List Row} (reg : Registers → Byte)
    (hop : decodeOpcode opcode = .f2 fun d => mk (.imm d)) (hforms : FormsAre (fun o => mk (.mem o)) rows)
    (hrows : rows.all (Row.hasShape readBaseCycles canCross) = true)
    (hexec : ∀ src s, exec (mk src) s = readThen src (fun m s => compareWith (reg s.registers) m s) s) :
    ImmediateRule (fun d => mk (.imm d)) opcode (fun _ s => s.registers)
        (fun m s => compareBits (statusBits s.p) (reg s.registers) m) ∧
      ReadRule (fun o => mk (.mem o)) rows (fun _ s => s.registers)
        fun m s => compareBits (statusBits s.p) (reg s.registers) m :=
  ⟨immediateRule_of_isCpuOp (isCpuOp_compareWith reg) hop fun d => hexec (.imm d),
    readRule_of_isCpuOp (isCpuOp_compareWith reg) hforms hrows fun o => hexec (.mem o)⟩

/-- Settles O21: each is the read shape with `Compare` of its register and M, in the rows the map has for it. -/
theorem compareRules : Obligations.CompareRules :=
  ⟨compareRule Registers.a rfl (formsAre_of (fun _ => rfl) rfl) rfl fun _ _ => rfl,
    compareRule Registers.x rfl (formsAre_of (fun _ => rfl) rfl) rfl fun _ _ => rfl,
    compareRule Registers.y rfl (formsAre_of (fun _ => rfl) rfl) rfl fun _ _ => rfl⟩

end Sys2Proof.Machine

/-! PROOFS. Increments, decrements and the flag instructions (43_incdec_flags.md): one more and one less of a byte as
arithmetic, then each rule from its shape. -/

namespace Sys2Proof.Machine

/-! ## Increments and decrements -/

section
variable (v : Byte)

/-- A byte counts up modulo 256 (R190). -/
theorem ofNat_toNat_add_one : BitVec.ofNat 8 (v.toNat + 1) = v + 1 := by
  rw [BitVec.ofNat_add, BitVec.ofNat_toNat, BitVec.setWidth_eq]
  rfl

/-- A byte counts down modulo 256 (R191). -/
theorem ofInt_toNat_sub_one : BitVec.ofInt 8 (v.toNat - 1) = v - 1 := by
  have hone : (1 : Byte).toNat = 1 := rfl
  apply BitVec.eq_of_toNat_eq
  rw [BitVec.toNat_ofInt, BitVec.toNat_sub, hone]
  omega

end

/-- INC and DEC set Z and N from the byte written, and do nothing else. -/
theorem isCpuOp_setNZ (v : Byte) : IsCpuOp (fun s => s.setP (setNZ v s.p)) (fun r _ => r) fun _ f => f.nz v :=
  isCpuOp_setP fun s => statusBits_setNZ s.p v

/-- A read-modify-write whose byte to write is `result` of the byte read, with Z and N set from it. -/
theorem modifyRule_setNZ {mk : MemOperand → Instr} {rows : List Row} (result : Byte → Byte) (hforms : FormsAre mk rows)
    (hrows : rows.all (Row.hasShape modifyCycles fun _ => false) = true)
    (hexec : ∀ o s, exec (mk o) s = modifyThen o (fun m _ => result m) (fun _ r s => s.setP (setNZ r s.p)) s) :
    ModifyRule mk rows (fun m _ => result m) (fun _ s => s.registers) fun m s => (statusBits s.p).nz (result m) :=
  modifyRule_of_isCpuOp (fun _ r => isCpuOp_setNZ r) (fun _ _ _ _ => rfl) hforms hrows hexec

/-- Settles O22: INC and DEC are the read-modify-write shape, and the other four load a register with what it held, one up
or one down; evaluated are their opcode bytes, the rows of INC and DEC, and their arms of `exec`. -/
theorem incDecRules : Obligations.IncDecRules := by
  unfold Obligations.IncDecRules
  simp only [ofNat_toNat_add_one, ofInt_toNat_sub_one]
  exact ⟨modifyRule_setNZ (· + 1) (formsAre_of (fun _ => rfl) rfl) rfl fun _ _ => rfl,
    modifyRule_setNZ (· - 1) (formsAre_of (fun _ => rfl) rfl) rfl fun _ _ => rfl,
    isLoad_loadX.transferRule (fun s => s.x + 1) rfl fun _ => rfl,
    isLoad_loadY.transferRule (fun s => s.y + 1) rfl fun _ => rfl,
    isLoad_loadX.transferRule (fun s => s.x - 1) rfl fun _ => rfl,
    isLoad_loadY.transferRule (fun s => s.y - 1) rfl fun _ => rfl⟩

/-! ## Flag instructions -/

/-- An instruction that sets P to `set` of it, and does nothing else. -/
theorem flagRule {i : Instr} {opcode : Byte} {set : Byte → Byte} (bits : StatusBits → StatusBits)
    (hbits : ∀ p, statusBits (set p) = bits (statusBits p)) (hop : decodeOpcode opcode = .f1 i)
    (hexec : ∀ s, exec i s = implied 2 (fun s => s.setP (set s.p)) s) :
    ImpliedRule i opcode 2 State.registers fun s => bits (statusBits s.p) :=
  (isCpuOp_setP (bits := fun _ => bits) fun s => hbits s.p).impliedRule hop hexec

/-- Settles O23: each writes its one flag of P, as `statusBits` of the write says. -/
theorem flagRules : Obligations.FlagRules :=
  ⟨clc_rule,
    flagRule (fun f => { f with c := true }) (statusBits_setC true) rfl fun _ => rfl,
    flagRule (fun f => { f with d := false }) (statusBits_setD false) rfl fun _ => rfl,
    flagRule (fun f => { f with d := true }) (statusBits_setD true) rfl fun _ => rfl,
    flagRule (fun f => { f with i := false }) (statusBits_setI false) rfl fun _ => rfl,
    flagRule (fun f => { f with i := true }) (statusBits_setI true) rfl fun _ => rfl,
    flagRule (fun f => { f with v := false }) (statusBits_setV false) rfl fun _ => rfl⟩

end Sys2Proof.Machine

/-! PROOFS. Jumps, subroutines, returns, stack, BRK and NOP (44_jumps_stack_brk_nop.md), and the *NOPs
(45_undocumented.md R239): the pushes as bus writes and the pops as reads, what each stack operation leaves of the CPU,
then each rule from these. -/

namespace Sys2Proof.Machine

/-- The encoder's bytes of a well-formed instruction are its encoding (30_encoding.md R90). -/
theorem encodes_encode {i : Instr} (hwf : i.wf = true) : Encodes (encode i) i := by
  have hdecode := decodeOfEncode i [] hwf
  rw [List.append_nil] at hdecode
  exact ⟨rfl, hdecode⟩

/-! ## JMP -/

section
variable (w : Addr)

theorem loByte_add_one : loByte (w + 1) = loByte w + 1 := BitVec.setWidth_add w 1 (by decide)

/-- The vector with its low byte alone incremented, as the spec writes it (R210). -/
theorem jumpHighAddr_eq : jumpHighAddr w = (w &&& 0xFF00) ||| ((w + 1) &&& 0x00FF) := by
  rw [and_page, and_offset, word16_or, loByte_add_one, jumpHighAddr]

theorem exec_jmp_abs (s : State) : exec (.jmp (.abs w)) s = .next (busTick 3 (s.setPc w)) := rfl

variable {w} {s : State}

/-- JMP Indirect, where neither pointer read is fatal: low byte first, then the high byte of the same page. -/
theorem exec_jmp_ind (hlo : readOk s w) (hhi : readOk (readEffect s w) (jumpHighAddr w)) :
    exec (.jmp (.ind w)) s = .next (busTick 5 ((readEffect (readEffect s w) (jumpHighAddr w)).setPc
      (word16 (readValue (readEffect s w) (jumpHighAddr w)) (readValue s w)))) := by
  simp only [exec, execJmp, busRead_of_readOk hlo, busRead_of_readOk hhi, andThen_done]
  rfl

theorem exec_jmp_ind_of_fatal_high (hlo : readOk s w) (hhi : ¬ readOk (readEffect s w) (jumpHighAddr w)) :
    exec (.jmp (.ind w)) s = .fault (.unmappedPpuRead (readEffect s w).ppu.v) := by
  simp only [exec, execJmp, busRead_of_readOk hlo, busRead_of_not_readOk hhi, andThen_done, andThen_fatal]

theorem exec_jmp_ind_of_fatal_low (hlo : ¬ readOk s w) :
    exec (.jmp (.ind w)) s = .fault (.unmappedPpuRead s.ppu.v) := by
  simp only [exec, execJmp, busRead_of_not_readOk hlo, andThen_fatal]

end

/-- Settles O24: the two reads of the Indirect form change no CPU register, and either may be the fatal one. -/
theorem jmpRule : Obligations.JmpRule := by
  intro w high hhigh
  obtain rfl : high = jumpHighAddr w := hhigh.trans (jumpHighAddr_eq w).symm
  refine ⟨⟨encodes_encode (i := .jmp (.abs w)) rfl, encodes_encode (i := .jmp (.ind w)) rfl⟩, fun s =>
    ⟨⟨_, exec_jmp_abs w s, leaves_setPc s w 3⟩, ?_, exec_jmp_ind_of_fatal_low⟩⟩
  rintro hlo u rfl
  refine ⟨fun hhi => ⟨_, exec_jmp_ind hlo hhi, ?_⟩, exec_jmp_ind_of_fatal_high hlo⟩
  have hreads := (readEffect_onlyDevices s w).trans (readEffect_onlyDevices _ (jumpHighAddr w))
  rw [← hreads.registers, ← hreads.p]
  exact leaves_setPc _ _ 5

/-! ## Pushes and pops

A push is a bus write at SP, a pop a read one above it (10_state.md R24); SP counts modulo 256 (D5). -/

section
variable (v : Byte)

theorem byte_sub_one_sub_one : v - 1 - 1 = v - 2 := by bv_omega
theorem byte_sub_two_sub_one : v - 2 - 1 = v - 3 := by bv_omega
theorem byte_add_one_add_one : v + 1 + 1 = v + 2 := by bv_omega
theorem byte_add_two_add_one : v + 2 + 1 = v + 3 := by bv_omega

end

section
variable (s : State)

/-- A write to the stack page is a store to RAM, whatever SP is. -/
theorem busWrite_stackAddr (sp d : Byte) : busWrite (stackAddr sp) d s = .done () (writeRam (stackAddr sp) d s) :=
  busWrite_eq_writeRam d s (by rw [toNat_stackAddr]; omega)

/-! The bus writes of several pushes leave what the pushes leave, but for SP. -/

theorem writeBytes_push16 (w : Addr) :
    writeBytes [(stackAddr s.sp, hiByte w), (stackAddr (s.sp - 1), loByte w)] s =
      .done () ((push16 w s).setSp s.sp) := by
  simp only [writeBytes, busWrite_stackAddr, andThen_done]
  rfl

theorem writeBytes_enterTrap (ret : Addr) (status : Byte) :
    writeBytes [(stackAddr s.sp, hiByte ret), (stackAddr (s.sp - 1), loByte ret), (stackAddr (s.sp - 2), status)] s =
      .done () ((push8 status (push16 ret s)).setSp s.sp) := by
  simp only [writeBytes, busWrite_stackAddr, andThen_done, ← byte_sub_one_sub_one]
  rfl

/-! What each leaves of the CPU registers, and what is popped. -/

theorem push16_registers (w : Addr) : (push16 w s).registers = { s.registers with sp := s.sp - 2 } := by
  rw [← byte_sub_one_sub_one]; rfl

theorem enterTrap_registers (ret : Addr) (status : Byte) :
    (enterTrap ret status s).registers = { s.registers with sp := s.sp - 3 } := by
  rw [← byte_sub_two_sub_one, ← byte_sub_one_sub_one]; rfl

theorem pop16State_registers : (pop16State s).registers = { s.registers with sp := s.sp + 2 } := by
  rw [← byte_add_one_add_one]; rfl

theorem leaveTrap_registers : (leaveTrap s).registers = { s.registers with sp := s.sp + 3 } := by
  rw [← byte_add_two_add_one, ← byte_add_one_add_one]; rfl

theorem pop16Value_eq :
    pop16Value s = word16 (readValue s (stackAddr (s.sp + 2))) (readValue s (stackAddr (s.sp + 1))) := by
  rw [← byte_add_one_add_one]; rfl

theorem leaveTrapPc_eq :
    leaveTrapPc s = word16 (readValue s (stackAddr (s.sp + 3))) (readValue s (stackAddr (s.sp + 2))) := by
  rw [← byte_add_two_add_one, ← byte_add_one_add_one]; rfl

end

/-- An instruction that brings the machine to `w` and then writes PC. -/
theorem leaves_setPc_of {u w : State} {r : Registers} {f : StatusBits} (cycles : Nat) (pc : Addr) (hr : w.registers = r)
    (hf : statusBits w.p = f) (ho : w.outside = u.outside) :
    Leaves u cycles { r with pc := pc } f (busTick cycles (w.setPc pc)) :=
  leaves_of (by rw [← hr]; rfl) hf ho

/-- Settles O25: JSR is the push of a word, RTS the pop of one. -/
theorem subroutineRules : Obligations.SubroutineRules := by
  refine ⟨fun w => ⟨encodes_encode (i := .jsr w) rfl, fun s => ⟨_, _, writeBytes_push16 s _, exec_jsr w s, ?jsr⟩⟩,
    encodes_encode (i := .rts) rfl, fun s => ⟨_, exec_rts s, ?rts⟩⟩
  case jsr => exact leaves_setPc_of 6 w (push16_registers s _) rfl rfl
  case rts =>
    rw [pop16Value_eq]
    exact leaves_setPc_of 6 _ (pop16State_registers s) rfl rfl

theorem exec_rti (s : State) : exec .rti s = .next (busTick 6 ((leaveTrap s).setPc (leaveTrapPc s))) := rfl

/-- Settles O26: RTI is the return from a trap. -/
theorem rtiRule : Obligations.RtiRule := by
  refine ⟨encodes_encode (i := .rti) rfl, fun s => ⟨_, exec_rti s, ?_⟩⟩
  rw [leaveTrapPc_eq]
  exact leaves_setPc_of 6 _ (leaveTrap_registers s) (statusBits_pulled _) rfl

/-- Settles O27: each is one push or one pop, and PLA and PLP then load what was popped. -/
theorem stackRules : Obligations.StackRules :=
  ⟨⟨encodes_encode (i := .pha) rfl, fun s => ⟨_, _, busWrite_stackAddr s _ _, exec_pha s, leaves_of rfl rfl rfl⟩⟩,
    ⟨encodes_encode (i := .pla) rfl, fun s => ⟨_, exec_pla s, leaves_of rfl (statusBits_setNZ _ _) rfl⟩⟩,
    ⟨encodes_encode (i := .php) rfl, fun s => ⟨_, _, busWrite_stackAddr s _ _, exec_php s, leaves_of rfl rfl rfl⟩⟩,
    ⟨encodes_encode (i := .plp) rfl, fun s => ⟨_, exec_plp s, leaves_of rfl (statusBits_pulled _) rfl⟩⟩⟩

/-! ## BRK -/

section
variable {s : State}

theorem exec_brk_hardware (h : s.build.brkMode = .hardware) :
    exec .brk s = .next (busTick 7 ((enterTrap (s.pc + 2) (pushedByProgram s.p) s).setPc
      (readWord (enterTrap (s.pc + 2) (pushedByProgram s.p) s) brkVector))) := by
  simp only [exec, execBrk, h]
  rfl

theorem exec_brk_halt (h : s.build.brkMode = .halt) :
    exec .brk s = .next { s with pc := s.pc + 1, halted := true } := by
  simp only [exec, execBrk, h]
  rfl

/-- The pushes of a trap do not reach the vector, which is in the cartridge (20_memory.md R69). -/
theorem readWord_enterTrap_brkVector (ret : Addr) (status : Byte) :
    readWord (enterTrap ret status s) brkVector = word16 (readValue s 0xFFFF) (readValue s 0xFFFE) := by
  have hrom : ∀ a : Addr, 0x8000 ≤ a.toNat → readValue (enterTrap ret status s) a = readValue s a := fun a ha => by
    rw [readValue_rom _ ha, readValue_rom _ ha, enterTrap_cart]
  exact congrArg₂ word16 (hrom 0xFFFF (by decide)) (hrom 0xFFFE (by decide))

end

/-- Settles O28: in Hardware mode BRK enters a trap, by three pushes, and in Halt mode it makes no access. -/
theorem brkRule : Obligations.BrkRule := by
  refine ⟨encodes_encode (i := .brk) rfl, fun s => ⟨fun hmode =>
    ⟨_, _, writeBytes_enterTrap s _ _, exec_brk_hardware hmode, ?_⟩, exec_brk_halt⟩⟩
  rw [readWord_enterTrap_brkVector]
  exact leaves_setPc_of 7 _ (enterTrap_registers s _ _) (statusBits_setI true s.p) rfl

/-! ## NOP and the *NOPs -/

/-- An instruction of one byte that does nothing. -/
theorem impliedRule_of_nop {i : Instr} {op : Byte} (hwf : i.wf = true) (hencode : encode i = [op])
    (hexec : ∀ s, exec i s = implied 2 (fun s => s) s) :
    ImpliedRule i op 2 State.registers fun s => statusBits s.p :=
  impliedRule_of (fun s => s) hwf (hencode ▸ encodes_encode hwf) hexec (fun _ => rfl) (fun _ _ => rfl) fun _ => rfl

/-- The *NOP bytes of a memory form are those of its mode's rows (R239). -/
theorem nopBytes_mem (o : MemOperand) :
    nopBytes (.mem o) = (Rows.nop.filter fun r => r.mode = o.mode).map Row.op := by
  cases o <;> rfl

theorem nopU_mem_wf_iff {op : Byte} {o : MemOperand} :
    (Instr.nopU op (.mem o)).wf = true ↔ ∃ r ∈ Rows.nop, r.op = op ∧ r.mode = o.mode := by
  simp only [Instr.wf, nopBytes_mem, decide_eq_true_eq, List.mem_map, List.mem_filter, and_assoc,
    and_comm (a := Row.mode _ = _)]

theorem exec_nopU_mem (op : Byte) (o : MemOperand) (s : State) :
    exec (.nopU op (.mem o)) s = .next (busTick (readCycles o s) (s.setPc (s.pc + memLength o))) := rfl

/-- Settles O29: the bytes of each form are those that `wf` lists, and no form does more than write PC. -/
theorem nopRules : Obligations.NopRules := by
  refine ⟨impliedRule_of_nop rfl rfl fun _ => rfl, fun op hwf => of_decide_eq_true hwf, fun op hop => ?implied,
    fun op d hwf => of_decide_eq_true hwf, fun op hop => ?immediate, fun op o hwf => nopU_mem_wf_iff.1 hwf,
    fun r hr o hmode => ?memory⟩
  case implied => exact impliedRule_of_nop (decide_eq_true hop) rfl fun _ => rfl
  case immediate =>
    have hwf : ∀ d, (Instr.nopU op (.imm d)).wf = true := fun _ => decide_eq_true hop
    exact immediateRule_of (fun _ s => s) (fun d => ⟨hwf d, encodes_encode (hwf d)⟩) (fun _ _ => rfl) (fun _ _ => rfl)
      (fun _ _ _ _ hu => by rw [hu.registers]) fun _ _ _ hu => by rw [hu.p]
  case memory =>
    have hwf : (Instr.nopU r.op (.mem o)).wf = true := nopU_mem_wf_iff.2 ⟨r, hr, rfl, hmode⟩
    refine ⟨hwf, encodes_encode hwf, fun s => ⟨_, exec_nopU_mem r.op o s, ?_⟩⟩
    obtain ⟨hnext, hcost⟩ := agrees_readCycles (rows := Rows.nop) rfl r hr o s hmode
    rw [hnext, hcost]
    exact leaves_setPc s _ _

end Sys2Proof.Machine

/-! PROOFS. The combined undocumented instructions (45_undocumented.md R232 to R238): *SAX from the store shape; *DCP, *ISB,
*SLO, *RLA, *SRE and *RRA from the read-modify-write shape, where what follows the write is an operation on the CPU alone, for
the last four one that finds in C the bit shifted out. -/

namespace Sys2Proof.Machine

/-! ## *SAX -/

/-- Settles O30: *SAX is the store shape with A & X, in the rows the map has for it. -/
theorem saxRule : Obligations.SaxRule :=
  storeRule_of_rows (formsAre_of (fun _ => rfl) rfl) rfl fun _ _ => rfl

/-! ## *DCP and *ISB -/

/-- Settles O31: the byte written is M one down or one up, and the compare or subtraction with it is an operation on the CPU
alone. -/
theorem dcpIsbRules : Obligations.DcpIsbRules := by
  unfold Obligations.DcpIsbRules
  simp only [ofNat_toNat_add_one, ofInt_toNat_sub_one]
  exact ⟨modifyRule_of_isCpuOp (fun _ => isCpuOp_compareWith Registers.a) (fun _ _ _ _ => rfl)
      (formsAre_of (fun _ => rfl) rfl) rfl fun _ _ => rfl,
    modifyRule_of_isCpuOp (fun _ => isCpuOp_addCore_xor) (fun _ _ _ _ => rfl)
      (formsAre_of (fun _ => rfl) rfl) rfl fun _ _ => rfl⟩

/-! ## *SLO, *RLA, *SRE and *RRA -/

/-- An operation on the CPU alone that begins with C set to `out` finds that in C, and the other bits of P as they were. -/
theorem IsCpuOp.after_setC {op : State → State} {regs : Registers → StatusBits → Registers}
    {bits : Registers → StatusBits → StatusBits} (h : IsCpuOp op regs bits) (out : Bool) :
    IsCpuOp (fun s => op (s.setP (setC out s.p))) (fun r f => regs r { f with c := out })
      fun r f => bits r { f with c := out } where
  registers s := by rw [h.registers, State.setP_registers, State.setP_p, statusBits_setC]
  bits s := by rw [h.bits, State.setP_registers, State.setP_p, statusBits_setC]
  outside s := by rw [h.outside, State.setP_outside]

/-- A shift or rotate of memory, then `op` with the byte written and with C the bit shifted out: of `m` and the carry before,
`result` is written and `out m` goes to C. -/
theorem modifyRule_shift_then {mk : MemOperand → Instr} {rows : List Row} {op : Byte → State → State}
    {regs : Byte → Registers → StatusBits → Registers} {bits : Byte → Registers → StatusBits → StatusBits}
    (h : ∀ r, IsCpuOp (op r) (regs r) (bits r)) (result : Byte → Bool → Byte) (out : Byte → Bool)
    (hforms : FormsAre mk rows) (hrows : rows.all (Row.hasShape modifyCycles fun _ => false) = true)
    (hexec : ∀ o s, exec (mk o) s =
      modifyThen o (fun m s => result m (flagC s.p)) (fun m r s => op r (s.setP (setC (out m) s.p))) s) :
    ModifyRule mk rows (fun m s => result m (statusBits s.p).c)
      (fun m s => regs (result m (statusBits s.p).c) s.registers { statusBits s.p with c := out m })
      fun m s => bits (result m (statusBits s.p).c) s.registers { statusBits s.p with c := out m } :=
  modifyRule_of_isCpuOp (fun m r => (h r).after_setC (out m)) (fun m s u hu => by rw [hu.p]) hforms hrows hexec

/-- Settles O32: each is a shift or rotate of memory, then a load of A or `AddCore` with the byte written; *RRA's sum so takes
in the bit rotated out. -/
theorem sloRlaSreRraRules : Obligations.SloRlaSreRraRules := by
  unfold Obligations.SloRlaSreRraRules
  simp only [← shiftLeft_eq, ← rotateLeft_eq, ← shiftRight_eq, ← rotateRight_eq, ← getLsbD_seven, ← getLsbD_zero]
  exact ⟨modifyRule_shift_then (fun r => isCpuOp_loadA (· ||| r)) (fun m _ => shiftLeft m) _
      (formsAre_of (fun _ => rfl) rfl) rfl fun _ _ => rfl,
    modifyRule_shift_then (fun r => isCpuOp_loadA (· &&& r)) (fun m c => rotateLeft c m) _
      (formsAre_of (fun _ => rfl) rfl) rfl fun _ _ => rfl,
    modifyRule_shift_then (fun r => isCpuOp_loadA (· ^^^ r)) (fun m _ => shiftRight m) _
      (formsAre_of (fun _ => rfl) rfl) rfl fun _ _ => rfl,
    modifyRule_shift_then isCpuOp_addCore (fun m c => rotateRight c m) _
      (formsAre_of (fun _ => rfl) rfl) rfl fun _ _ => rfl⟩

end Sys2Proof.Machine

/-! PROOFS. The devices (60_exceptions.md sections 5 and 8): the ports of the PPU at every mirror, the joypads, and what the
host does between steps. -/

namespace Sys2Proof.Machine

/-! ## The ports of the PPU -/

/-! The port an address reaches, by its low three bits (20_memory.md R55). -/

section
variable {a : Addr}

theorem portOf_ctrl (h : a.toNat % 8 = 0) : portOf a = .ctrl := by simp only [portOf, h]
theorem portOf_mask (h : a.toNat % 8 = 1) : portOf a = .mask := by simp only [portOf, h]
theorem portOf_oamAddr (h : a.toNat % 8 = 3) : portOf a = .oamAddr := by simp only [portOf, h]
theorem portOf_oamData (h : a.toNat % 8 = 4) : portOf a = .oamData := by simp only [portOf, h]
theorem portOf_scroll (h : a.toNat % 8 = 5) : portOf a = .scroll := by simp only [portOf, h]
theorem portOf_addr (h : a.toNat % 8 = 6) : portOf a = .addr := by simp only [portOf, h]

end

/-! What a write makes of `t`, bit by bit. -/

section
variable (d : Byte) (u : Ppu)

/-- PPUCTRL: bits 11 and 10 of `t` are the low two bits of the byte (60_exceptions.md R292). -/
theorem getLsbD_ppuWriteCtrl_t {k : Nat} (hk : k < 15) : (ppuWriteCtrl d u).t.getLsbD k =
    if k = 10 then d.getLsbD 0 else if k = 11 then d.getLsbD 1 else u.t.getLsbD k := by
  simp only [ppuWriteCtrl]
  interval_cases k <;> simp

/-- The NMI request a write of PPUCTRL leaves: bit 7 rises while VBlank is set (60_exceptions.md R292, D23). -/
theorem ppuWriteCtrl_nmiPending : (ppuWriteCtrl d u).nmiPending = (u.nmiPending ||
    decide (u.ctrl.getLsbD 7 = false ∧ d.getLsbD 7 = true ∧ u.status.getLsbD 7 = true)) := by
  simp only [ppuWriteCtrl, Bool.decide_and, Bool.decide_eq_true, Bool.decide_eq_false, Bool.and_assoc]

variable {u}

/-- PPUADDR, first write (60_exceptions.md R296). -/
theorem ppuWriteAddr_first (hw : u.w = false) : ∃ t : VramAddr,
    (∀ k, k < 15 → t.getLsbD k = if k = 14 then false else if k < 8 then u.t.getLsbD k else d.getLsbD (k - 8)) ∧
    ppuWriteAddr d u = { u with t := t, w := true } := by
  refine ⟨_, fun k hk => ?_, by rw [ppuWriteAddr, hw]; rfl⟩
  interval_cases k <;> simp

/-- PPUADDR, second write (60_exceptions.md R296). -/
theorem ppuWriteAddr_second (hw : u.w = true) : ∃ t : VramAddr,
    (∀ k, k < 15 → t.getLsbD k = if k < 8 then d.getLsbD k else u.t.getLsbD k) ∧
    ppuWriteAddr d u = { u with t := t, v := t, w := false } := by
  refine ⟨_, fun k hk => ?_, by rw [ppuWriteAddr, hw]; rfl⟩
  interval_cases k <;> simp

/-- PPUSCROLL, first write (60_exceptions.md R299, D24). -/
theorem ppuWriteScroll_first (hw : u.w = false) : ∃ t : VramAddr,
    (∀ k, k < 15 → t.getLsbD k = if k < 5 then d.getLsbD (k + 3) else u.t.getLsbD k) ∧
    ppuWriteScroll d u = { u with t := t, x := BitVec.ofNat 3 d.toNat, w := true } := by
  refine ⟨_, fun k hk => ?_, by rw [ppuWriteScroll, hw]; rfl⟩
  interval_cases k <;> simp

/-- PPUSCROLL, second write (60_exceptions.md R299, D24). -/
theorem ppuWriteScroll_second (hw : u.w = true) : ∃ t : VramAddr,
    (∀ k, k < 15 → t.getLsbD k = if 12 ≤ k then d.getLsbD (k - 12) else if 5 ≤ k ∧ k < 10 then d.getLsbD (k - 2)
      else u.t.getLsbD k) ∧
    ppuWriteScroll d u = { u with t := t, w := false } := by
  refine ⟨_, fun k hk => ?_, by rw [ppuWriteScroll, hw]; rfl⟩
  interval_cases k <;> simp

end

/-- Settles O46: each write is the write of the port that the low three bits of the address name. -/
theorem ppuControlPorts : Obligations.PpuControlPorts := by
  intro a d s hlo hhi
  have hwrite := busWrite_port (a := a) d s hlo hhi
  refine ⟨fun h => ?ctrl, fun h => ?mask, fun h => ?oamAddr, fun h => ?oamData⟩
  case ctrl =>
    refine ⟨(ppuWriteCtrl d s.ppu).t, fun k => getLsbD_ppuWriteCtrl_t d s.ppu, ?_⟩
    rw [hwrite, portOf_ctrl h, ← ppuWriteCtrl_nmiPending]
    rfl
  case mask => rw [hwrite, portOf_mask h]; rfl
  case oamAddr => rw [hwrite, portOf_oamAddr h]; rfl
  case oamData => rw [hwrite, portOf_oamData h, ofNat_toNat_add_one]; rfl

/-- Settles O47: `w` says which of the two writes it is. -/
theorem ppuAddressPorts : Obligations.PpuAddressPorts := by
  intro a d s hlo hhi
  have hwrite := busWrite_port (a := a) d s hlo hhi
  refine ⟨fun h hw => ?addr1, fun h hw => ?addr2, fun h hw => ?scroll1, fun h hw => ?scroll2⟩
  case addr1 =>
    obtain ⟨t, hbits, hport⟩ := ppuWriteAddr_first d hw
    exact ⟨t, hbits, by rw [hwrite, portOf_addr h, portWrite, hport]; rfl⟩
  case addr2 =>
    obtain ⟨t, hbits, hport⟩ := ppuWriteAddr_second d hw
    exact ⟨t, hbits, by rw [hwrite, portOf_addr h, portWrite, hport]; rfl⟩
  case scroll1 =>
    obtain ⟨t, hbits, hport⟩ := ppuWriteScroll_first d hw
    exact ⟨t, hbits, by rw [hwrite, portOf_scroll h, portWrite, hport]; rfl⟩
  case scroll2 =>
    obtain ⟨t, hbits, hport⟩ := ppuWriteScroll_second d hw
    exact ⟨t, hbits, by rw [hwrite, portOf_scroll h, portWrite, hport]; rfl⟩

/-! ### PPUDATA -/

section
variable {a : Addr} (d : Byte) (s : State)

/-- A $2007 write where it is not fatal (60_exceptions.md R298). -/
theorem busWrite_data (hp : isPpu a = true) (h : a.toNat % 8 = 7) (hlo : 0x2000 ≤ s.ppu.v.toNat)
    (hhi : s.ppu.v.toNat < 0x4000) : busWrite a d s = .done () (s.setPpu (ppuWriteData s.cart d s.ppu)) := by
  have hok : ppuWriteDataFatal s.ppu = false := by
    simp only [ppuWriteDataFatal, decide_eq_false_iff_not]
    omega
  obtain ⟨hge, hlt⟩ := (isPpu_iff a).1 hp
  rw [busWrite_port d s hge hlt, portOf_eq_data.2 h, portWrite, hok]
  rfl

/-- A $2007 write where it is fatal (60_exceptions.md R270). -/
theorem busWrite_data_fatal (hp : isPpu a = true) (h : a.toNat % 8 = 7)
    (hv : s.ppu.v.toNat < 0x2000 ∨ 0x4000 ≤ s.ppu.v.toNat) : busWrite a d s = .fatal (.unmappedPpuWrite s.ppu.v) := by
  have hfatal : ppuWriteDataFatal s.ppu = true := decide_eq_true hv
  obtain ⟨hge, hlt⟩ := (isPpu_iff a).1 hp
  rw [busWrite_port d s hge hlt, portOf_eq_data.2 h, portWrite, hfatal]
  rfl

end

/-- `v` after an access to $2007, modulo 32768 (60_exceptions.md R297, R298, D22). -/
theorem eq_ppuNextV {u : Ppu} {next : VramAddr}
    (h : next.toNat = (u.v.toNat + (if u.ctrl.getLsbD 2 then 32 else 1)) % 32768) : next = ppuNextV u := by
  apply BitVec.eq_of_toNat_eq
  rw [h, ppuNextV, BitVec.toNat_add]
  split <;> rfl

/-- Settles O48, one rule of the port for each range of `v`. -/
theorem ppuDataPort : Obligations.PpuDataPort := by
  rintro a d s v next hlo hhi hport rfl hnext
  obtain rfl := eq_ppuNextV hnext
  have hp : isPpu a = true := (isPpu_iff a).2 ⟨hlo, hhi⟩
  refine ⟨fun h => ⟨?chrRead, busWrite_data_fatal d s hp hport (.inl h)⟩, fun h h' => ⟨?vramRead, ?vramWrite⟩,
    fun h h' => ⟨?palRead, ?palWrite⟩,
    fun h => ⟨busRead_data_fatal s hp hport h, busWrite_data_fatal d s hp hport (.inr h)⟩⟩
  case chrRead =>
    rw [busRead_data s hp hport (by omega), if_pos (by omega), ppuAfterReadData, ppuNextBuf, if_pos h]
    rfl
  case vramRead =>
    rw [busRead_data s hp hport (by omega), if_pos h', ppuAfterReadData, ppuNextBuf, if_neg (by omega)]
    rfl
  case palRead =>
    rw [busRead_data s hp hport h', if_neg (by omega), ppuAfterReadData, ppuNextBuf, if_neg (by omega)]
    rfl
  case vramWrite =>
    rw [busWrite_data d s hp hport h (by omega), ppuWriteData, if_pos h']
    rfl
  case palWrite =>
    rw [busWrite_data d s hp hport (by omega) h', ppuWriteData, if_neg (by omega)]
    rfl

/-! ## The joypads and the host -/

/-- The effect of a read of $4016 (60_exceptions.md R316). -/
theorem readEffect_joy1 {a : Addr} (h : a.toNat = 0x4016) (s : State) :
    readEffect s a = s.setJoy1 (joypadAfterRead s.joy1) := by
  have hread := busRead_of_readOk (readOk_of_ge s (by omega : 0x4000 ≤ a.toNat))
  rw [busRead_joy1 s h] at hread
  exact (Access.done.inj hread).2.symm

/-- A read of $4016 after any number of reads of it: none is fatal (60_exceptions.md R318). -/
theorem busRead_joy1_iterate {a : Addr} (h : a.toNat = 0x4016) (s : State) (n : Nat) :
    busRead a ((fun s => readEffect s a)^[n] s) =
      .done (joypadReadValue ((fun s => readEffect s a)^[n] s).joy1) ((fun s => readEffect s a)^[n + 1] s) := by
  rw [busRead_joy1 _ h, Function.iterate_succ_apply', readEffect_joy1 h]

/-- While strobed, no read moves the index from button A (60_exceptions.md R315). -/
theorem iterate_readEffect_strobed {a : Addr} (h : a.toNat = 0x4016) (s : State) (b : Byte) (n : Nat) :
    (fun s => readEffect s a)^[n] (s.setJoy1 { b := b, i := 0, s := true }) = s.setJoy1 { b := b, i := 0, s := true } := by
  refine Function.iterate_fixed ?_ n
  rw [readEffect_joy1 h]
  rfl

/-- With the strobe clear, each read moves the index by one, up to 8 (60_exceptions.md R315). -/
theorem iterate_readEffect_serial {a : Addr} (h : a.toNat = 0x4016) (s : State) (b : Byte) (n : Nat) :
    (fun s => readEffect s a)^[n] (s.setJoy1 { b := b, i := 0, s := false }) =
      s.setJoy1 { b := b, i := min n 8, s := false } := by
  induction n with
  | zero => rfl
  | succ n ih =>
    rw [Function.iterate_succ_apply', ih, readEffect_joy1 h, State.setJoy1_joy1]
    rcases Nat.lt_or_ge n 8 with hlt | hge
    · rw [joypadAfterRead_of_le (by simp only; omega), Nat.min_eq_left (by omega), Nat.min_eq_left (by omega)]
      rfl
    · rw [joypadAfterRead_of_gt (by simp only; omega), Nat.min_eq_right (by omega), Nat.min_eq_right (by omega)]
      rfl

/-- Settles O51: the two writes leave the index at 0, with the strobe set and then clear. -/
theorem joypadReadSequence : Obligations.JoypadReadSequence := by
  intro s a d0 d1 ha hd1 hd0
  refine ⟨s.setJoy1 { b := s.joy1.b, i := 0, s := true }, s.setJoy1 { b := s.joy1.b, i := 0, s := false }, ?set, ?clear,
    fun n => ?strobed, fun n => ?serial⟩
  case set => rw [busWrite_strobe d1 s ha, joypadWrite_eq, hd1]; rfl
  case clear => rw [busWrite_strobe d0 _ ha, joypadWrite_eq, hd0]; rfl
  case strobed =>
    rw [busRead_joy1_iterate ha, iterate_readEffect_strobed ha, State.setJoy1_joy1,
      joypadReadValue_of_le (Nat.zero_le 7)]
  case serial =>
    rw [busRead_joy1_iterate ha, iterate_readEffect_serial ha, State.setJoy1_joy1]
    split
    · rw [joypadReadValue_of_le (by simp only; omega), Nat.min_eq_left (by omega)]
    · rw [joypadReadValue_of_gt (by simp only; omega)]

/-- A pressed button is set, the others are as they were (60_exceptions.md R317). -/
theorem getLsbD_joypadPress (bit : Fin 8) (j : Joypad) (k : Nat) :
    (joypadPress bit j).b.getLsbD k = if k = bit then true else j.b.getLsbD k :=
  getLsbD_withBit bit k true j.b bit.isLt

/-- A released button is clear, the others are as they were (60_exceptions.md R317). -/
theorem getLsbD_joypadRelease (bit : Fin 8) (j : Joypad) (k : Nat) :
    (joypadRelease bit j).b.getLsbD k = if k = bit then false else j.b.getLsbD k :=
  getLsbD_withBit bit k false j.b bit.isLt

/-- No host action moves a joypad's index or touches a memory or the PPU; reset writes P with B 0 and U 1. -/
theorem hostAct_inv (h : HostAction) {s : State} (hs : s.Inv) : (hostAct h s).Inv := by
  cases h with
  | reset => exact { hs with flagB := (by decide : flagB 0x24 = false), flagU := (by decide : flagU 0x24 = true) }
  | takeFrameReady | press1 | release1 | press2 | release2 => exact { hs with }

/-- Settles O60: a button is one bit of its joypad's byte. -/
theorem hostActions : Obligations.HostActions := fun s bit k _ =>
  ⟨rfl, ⟨_, rfl, getLsbD_joypadPress bit s.joy1 k⟩, ⟨_, rfl, getLsbD_joypadRelease bit s.joy1 k⟩,
    ⟨_, rfl, getLsbD_joypadPress bit s.joy2 k⟩, ⟨_, rfl, getLsbD_joypadRelease bit s.joy2 k⟩,
    fun hs h => hostAct_inv h hs⟩

end Sys2Proof.Machine

/-! PROOFS. Time (60_exceptions.md sections 4, 6 and 7): what dots do to the position, the two timed events and Sprite-0 hit,
the tick of the Bus, and OAM DMA. -/

namespace Sys2Proof.Machine

/-! ## One dot -/

section
variable {u : Ppu}

/-- The position is legal (10_state.md R40). -/
def InFrame (u : Ppu) : Prop := u.dot < 341 ∧ u.scanline < 262

theorem InFrame.position_lt (h : InFrame u) : ppuPosition u < 89342 := by
  obtain ⟨hd, hs⟩ := h
  unfold ppuPosition
  omega

/-- A legal position is that of one scanline and dot. -/
theorem InFrame.position_eq_iff (h : InFrame u) {scanline dot : Nat} (hdot : dot < 341) :
    ppuPosition u = scanline * 341 + dot ↔ u.scanline = scanline ∧ u.dot = dot := by
  obtain ⟨hd, hs⟩ := h
  unfold ppuPosition
  omega

theorem inFrame_ppuDot (cart : Cartridge) (h : InFrame u) : InFrame (ppuDot cart u) := by
  obtain ⟨hd, hs⟩ := h
  rw [InFrame, ppuDot_dot, ppuDot_scanline]
  simp only [ppuAdvance]
  split_ifs <;> omega

/-- One dot moves the position by one (60_exceptions.md R300). -/
theorem ppuPosition_ppuDot (cart : Cartridge) (h : InFrame u) :
    ppuPosition (ppuDot cart u) = (ppuPosition u + 1) % 89342 := by
  rw [ppuDot_position, ppuAdvance_position h.1 h.2]

/-- `f` toggles where the position wraps (60_exceptions.md R300, D28). -/
theorem f_ppuDot (cart : Cartridge) (h : InFrame u) :
    (ppuDot cart u).f = if ppuPosition u + 1 = 89342 then !u.f else u.f := by
  obtain ⟨hd, hs⟩ := h
  have hwrap : ppuPosition u + 1 = 89342 ↔ u.dot + 1 = 341 ∧ u.scanline + 1 = 262 := by
    unfold ppuPosition
    omega
  simp only [hwrap]
  rfl

end

/-! ## n dots -/

section
variable (cart : Cartridge) {u : Ppu} (h : InFrame u) (n : Nat)
include h

theorem inFrame_ppuTick : InFrame (ppuTick cart n u) := by
  induction n generalizing u with
  | zero => exact h
  | succ n ih => exact ih (inFrame_ppuDot cart h)

theorem ppuPosition_ppuTick : ppuPosition (ppuTick cart n u) = (ppuPosition u + n) % 89342 := by
  induction n generalizing u with
  | zero => rw [ppuTick_zero, Nat.add_zero, Nat.mod_eq_of_lt h.position_lt]
  | succ n ih =>
    rw [ppuTick_succ, ih (inFrame_ppuDot cart h), ppuPosition_ppuDot cart h]
    omega

theorem f_ppuTick : (ppuTick cart n u).f = if (ppuPosition u + n) / 89342 % 2 = 0 then u.f else !u.f := by
  induction n generalizing u with
  | zero => simp [Nat.div_eq_of_lt h.position_lt]
  | succ n ih =>
    have hlt := h.position_lt
    rw [ppuTick_succ, ih (inFrame_ppuDot cart h), ppuPosition_ppuDot cart h, f_ppuDot cart h]
    by_cases hwrap : ppuPosition u + 1 = 89342
    · have hparity : (ppuPosition u + (n + 1)) / 89342 = n / 89342 + 1 := by omega
      rw [if_pos hwrap, hwrap, hparity]
      simp only [Nat.mod_self, Nat.zero_add]
      by_cases heven : n / 89342 % 2 = 0
      · rw [if_pos heven, if_neg (by omega)]
      · rw [if_neg heven, if_pos (by omega), Bool.not_not]
    · rw [if_neg hwrap, Nat.mod_eq_of_lt (by omega : ppuPosition u + 1 < 89342), Nat.add_right_comm, Nat.add_assoc]

end

/-- Settles O53: by induction over the dots. -/
theorem ppuPositionAndParity : Obligations.PpuPositionAndParity := by
  rintro cart u w n hd hs rfl
  have h : InFrame u := ⟨hd, hs⟩
  obtain ⟨hd', hs'⟩ := inFrame_ppuTick cart h n
  exact ⟨hd', hs', ppuPosition_ppuTick cart h n, f_ppuTick cart h n, ppuTick_samePorts cart n u⟩

/-! ## Vblank -/

/-- Where vblank begins and ends, as positions (60_exceptions.md R301). -/
def vblankStart : Nat := 241 * 341 + 1
def vblankEnd : Nat := 261 * 341 + 1

theorem atVblankStart_iff {u : Ppu} (h : InFrame u) : atVblankStart u = true ↔ ppuPosition u = vblankStart := by
  rw [vblankStart, h.position_eq_iff (by decide), atVblankStart, Bool.and_eq_true, beq_iff_eq, beq_iff_eq]

theorem atVblankEnd_iff {u : Ppu} (h : InFrame u) : atVblankEnd u = true ↔ ppuPosition u = vblankEnd := by
  rw [vblankEnd, h.position_eq_iff (by decide), atVblankEnd, Bool.and_eq_true, beq_iff_eq, beq_iff_eq]

/-- What the timed events write: VBlank and Sprite-overflow of PPUSTATUS, and the NMI request. -/
structure Vblank where
  vblank : Bool
  overflow : Bool
  nmi : Bool

def Ppu.vblank (u : Ppu) : Vblank := ⟨u.status.getLsbD 7, u.status.getLsbD 5, u.nmiPending⟩

/-- What the events make of them, where the counter has arrived (60_exceptions.md R301). -/
theorem vblank_ppuEvents (u : Ppu) : (ppuEvents u).vblank =
    if atVblankStart u then ⟨true, u.status.getLsbD 5, u.nmiPending || u.ctrl.getLsbD 7⟩
    else if atVblankEnd u then ⟨false, false, false⟩
    else u.vblank := by
  simp only [ppuEvents, Ppu.vblank]
  split_ifs <;> simp

/-- Sprite-0 hit is another bit of PPUSTATUS. -/
theorem vblank_ppuSpriteZero (cart : Cartridge) (u : Ppu) : (ppuSpriteZero cart u).vblank = u.vblank := by
  simp only [ppuSpriteZero, Ppu.vblank]
  split <;> simp

/-! One dot, by where it arrives. -/

section
variable (cart : Cartridge) {u : Ppu} (h : InFrame u)
include h

theorem vblank_ppuDot_of_start (hp : ppuPosition (ppuDot cart u) = vblankStart) :
    (ppuDot cart u).vblank = ⟨true, u.status.getLsbD 5, u.nmiPending || u.ctrl.getLsbD 7⟩ := by
  have hstart : atVblankStart (ppuAdvance u) = true := (atVblankStart_iff (inFrame_ppuDot cart h)).2 hp
  rw [ppuDot, vblank_ppuSpriteZero, vblank_ppuEvents, if_pos hstart]
  rfl

theorem vblank_ppuDot_of_end (hp : ppuPosition (ppuDot cart u) = vblankEnd) :
    (ppuDot cart u).vblank = ⟨false, false, false⟩ := by
  have hend : atVblankEnd (ppuAdvance u) = true := (atVblankEnd_iff (inFrame_ppuDot cart h)).2 hp
  have hstart : ¬ atVblankStart (ppuAdvance u) = true := fun e =>
    absurd (hp.symm.trans ((atVblankStart_iff (inFrame_ppuDot cart h)).1 e)) (by decide)
  rw [ppuDot, vblank_ppuSpriteZero, vblank_ppuEvents, if_neg hstart, if_pos hend]

theorem vblank_ppuDot_of_neither (hs : ppuPosition (ppuDot cart u) ≠ vblankStart)
    (he : ppuPosition (ppuDot cart u) ≠ vblankEnd) : (ppuDot cart u).vblank = u.vblank := by
  have hstart : ¬ atVblankStart (ppuAdvance u) = true := fun e => hs ((atVblankStart_iff (inFrame_ppuDot cart h)).1 e)
  have hend : ¬ atVblankEnd (ppuAdvance u) = true := fun e => he ((atVblankEnd_iff (inFrame_ppuDot cart h)).1 e)
  rw [ppuDot, vblank_ppuSpriteZero, vblank_ppuEvents, if_neg hstart, if_neg hend]
  rfl

end

/-- `n` dots from position `p` arrive at position `q`. -/
def Passes (p n q : Nat) : Prop := ∃ k, 1 ≤ k ∧ k ≤ n ∧ (p + k) % 89342 = q

section
variable (cart : Cartridge) {u : Ppu} (h : InFrame u) {n : Nat}
include h

/-- Dots that pass neither event leave what the events write. -/
theorem vblank_ppuTick_of_neither (hs : ¬ Passes (ppuPosition u) n vblankStart)
    (he : ¬ Passes (ppuPosition u) n vblankEnd) : (ppuTick cart n u).vblank = u.vblank := by
  induction n generalizing u with
  | zero => rfl
  | succ n ih =>
    have hnext := ppuPosition_ppuDot cart h
    have hlater : ∀ q, Passes (ppuPosition (ppuDot cart u)) n q → Passes (ppuPosition u) (n + 1) q := by
      rintro q ⟨k, hk, hkn, rfl⟩
      exact ⟨k + 1, by omega, by omega, by omega⟩
    have hnow : ∀ q, ppuPosition (ppuDot cart u) = q → Passes (ppuPosition u) (n + 1) q := by
      rintro q rfl
      exact ⟨1, by omega, by omega, hnext.symm⟩
    rw [ppuTick_succ, ih (inFrame_ppuDot cart h) (mt (hlater _) hs) (mt (hlater _) he),
      vblank_ppuDot_of_neither cart h (mt (hnow _) hs) (mt (hnow _) he)]

/-- The two events are more than 1566 dots apart, so a tick of at most 1566 dots that passes one leaves what the dot that
arrives there writes. -/
theorem vblank_ppuTick_of_passes (hn : n ≤ 1566) {q : Nat} (hq : q = vblankStart ∨ q = vblankEnd)
    (hpass : Passes (ppuPosition u) n q) : ∃ v, InFrame v ∧ v.vblank = u.vblank ∧ v.ctrl = u.ctrl ∧
      ppuPosition (ppuDot cart v) = q ∧ (ppuTick cart n u).vblank = (ppuDot cart v).vblank := by
  obtain ⟨k, hk, hkn, hpos⟩ := hpass
  obtain ⟨m, rfl⟩ : ∃ m, n = (k - 1) + (m + 1) := ⟨n - k, by omega⟩
  have hv := inFrame_ppuTick cart h (k - 1)
  have hvpos := ppuPosition_ppuTick cart h (k - 1)
  have harrive : ppuPosition (ppuDot cart (ppuTick cart (k - 1) u)) = q := by
    rw [ppuPosition_ppuDot cart hv, hvpos]
    omega
  have hplt := h.position_lt
  have hbefore : ∀ q', (q' = vblankStart ∨ q' = vblankEnd) → ¬ Passes (ppuPosition u) (k - 1) q' := by
    rintro q' hq' ⟨j, hj, hjk, hj'⟩
    unfold vblankStart vblankEnd at hq hq'
    omega
  have hafter : ∀ q', (q' = vblankStart ∨ q' = vblankEnd) → ¬ Passes q m q' := by
    rintro q' hq' ⟨j, hj, hjm, hj'⟩
    unfold vblankStart vblankEnd at hq hq'
    omega
  refine ⟨_, hv, vblank_ppuTick_of_neither cart h (hbefore _ (.inl rfl)) (hbefore _ (.inr rfl)),
    (ppuTick_samePorts cart (k - 1) u).2.2.2.1, harrive, ?_⟩
  rw [ppuTick_add, ppuTick_succ]
  exact vblank_ppuTick_of_neither cart (inFrame_ppuDot cart hv) (harrive ▸ hafter _ (.inl rfl))
    (harrive ▸ hafter _ (.inr rfl))

end

theorem Ppu.vblank_eq_iff {u : Ppu} {v : Vblank} :
    u.vblank = v ↔ u.status.getLsbD 7 = v.vblank ∧ u.status.getLsbD 5 = v.overflow ∧ u.nmiPending = v.nmi := by
  cases v
  exact Vblank.mk.injEq .. ▸ Iff.rfl

/-- Settles O54: the tick passes at most one of the two events, once. -/
theorem vblankEvents : Obligations.VblankEvents := by
  rintro cart u w n passes hd hs hn rfl hpasses
  have h : InFrame u := ⟨hd, hs⟩
  refine ⟨fun hstart => ?start, fun hend => ?end_, fun hstart hend => ?neither⟩
  case start =>
    obtain ⟨v, hv, hsame, hctrl, hpos, heq⟩ := vblank_ppuTick_of_passes cart h hn (.inl rfl) ((hpasses _).1 hstart)
    obtain ⟨-, hoverflow, hnmi⟩ := Ppu.vblank_eq_iff.1 hsame
    rw [vblank_ppuDot_of_start cart hv hpos, hoverflow, hnmi, hctrl] at heq
    exact Ppu.vblank_eq_iff.1 heq
  case end_ =>
    obtain ⟨v, hv, -, -, hpos, heq⟩ := vblank_ppuTick_of_passes cart h hn (.inr rfl) ((hpasses _).1 hend)
    rw [vblank_ppuDot_of_end cart hv hpos] at heq
    exact Ppu.vblank_eq_iff.1 heq
  case neither =>
    exact Ppu.vblank_eq_iff.1 (vblank_ppuTick_of_neither cart h (mt (hpasses _).2 hstart) (mt (hpasses _).2 hend))

/-! ## Sprite-0 hit -/

/-- The bit as the events leave it: cleared at the end of vblank, otherwise as it was (60_exceptions.md R301). -/
theorem getLsbD_ppuEvents_spriteZero (u : Ppu) :
    (ppuEvents u).status.getLsbD 6 = (!atVblankEnd u && u.status.getLsbD 6) := by
  have hboth : atVblankStart u = true → atVblankEnd u = false := by
    simp only [atVblankStart, atVblankEnd, Bool.and_eq_true, beq_iff_eq]
    rintro ⟨hs, -⟩
    simp [hs]
  simp only [ppuEvents]
  split_ifs <;> simp_all

/-- The bit as the draw leaves it. -/
theorem getLsbD_ppuSpriteZero (cart : Cartridge) (u : Ppu) :
    (ppuSpriteZero cart u).status.getLsbD 6 = (spriteZeroHits cart u || u.status.getLsbD 6) := by
  simp only [ppuSpriteZero]
  split_ifs with h <;> simp [h]

theorem spriteZeroHits_iff (cart : Cartridge) (u : Ppu) : spriteZeroHits cart u = true ↔
    u.scanline < 240 ∧ (u.mask.getLsbD 3 = true ∨ u.mask.getLsbD 4 = true) ∧
      Config.spriteZeroOverlap (ppuSnapshot cart u) = true ∧ Config.s0Policy u.s0Draws = true := by
  simp only [spriteZeroHits, ppuRendering, Bool.and_eq_true, Bool.or_eq_true, decide_eq_true_eq, and_assoc]

/-- Over one dot the bit is set by a draw that hits, or kept but at the end of vblank (60_exceptions.md R305). -/
theorem getLsbD_ppuDot_spriteZero {cart : Cartridge} {u w : Ppu} (hw : w = ppuDot cart u) :
    w.status.getLsbD 6 = true ↔
      (w.scanline < 240 ∧ (w.mask.getLsbD 3 = true ∨ w.mask.getLsbD 4 = true) ∧
        Config.spriteZeroOverlap (ppuSnapshot cart w) = true ∧ Config.s0Policy u.s0Draws = true) ∨
      ¬ (w.scanline = 261 ∧ w.dot = 1) ∧ u.status.getLsbD 6 = true := by
  have hdot : (ppuDot cart u).status.getLsbD 6 = (spriteZeroHits cart (ppuEvents (ppuAdvance u)) ||
      (!atVblankEnd (ppuAdvance u) && u.status.getLsbD 6)) := by
    rw [ppuDot, getLsbD_ppuSpriteZero, getLsbD_ppuEvents_spriteZero]
    rfl
  have hend : atVblankEnd (ppuAdvance u) = true ↔ w.scanline = 261 ∧ w.dot = 1 := by
    rw [atVblankEnd, Bool.and_eq_true, beq_iff_eq, beq_iff_eq, hw]
    rfl
  rw [← hend, Bool.not_eq_true, ← Bool.not_eq_true', hw, hdot, Bool.or_eq_true, Bool.and_eq_true, spriteZeroHits_iff]
  rfl

/-- Settles O55: no dot of vblank's last scanline draws, and neither Sprite-0 hit nor an event sets Sprite-overflow. -/
theorem spriteZeroHit : Obligations.SpriteZeroHit := by
  intro cart u w hw
  have hbit := getLsbD_ppuDot_spriteZero hw
  refine ⟨fun hend => ?cleared, fun hend => ?set, fun hoverflow => ?overflow⟩
  case cleared =>
    rw [← Bool.not_eq_true, hbit]
    rintro (⟨hdraws, -⟩ | ⟨hnot, -⟩)
    · omega
    · exact hnot hend
  case set => rw [hbit, or_comm, and_iff_right hend]
  case overflow =>
    subst hw
    have hevents : (ppuDot cart u).vblank = (ppuEvents (ppuAdvance u)).vblank := vblank_ppuSpriteZero cart _
    rw [vblank_ppuEvents] at hevents
    split_ifs at hevents
    · exact (congrArg Vblank.overflow hevents).trans hoverflow
    · exact congrArg Vblank.overflow hevents
    · exact (congrArg Vblank.overflow hevents).trans hoverflow

/-! ## The tick of the Bus -/

/-- Dots raise the NMI request where they arrive at the start of vblank with PPUCTRL bit 7 set (60_exceptions.md R301). -/
theorem ppuTick_raises_nmi (cart : Cartridge) {u : Ppu} (h : InFrame u) {n : Nat} (hbefore : u.nmiPending = false)
    (hafter : (ppuTick cart n u).nmiPending = true) :
    u.ctrl.getLsbD 7 = true ∧ Passes (ppuPosition u) n vblankStart := by
  induction n generalizing u with
  | zero => exact absurd (hbefore.symm.trans hafter) (by decide)
  | succ n ih =>
    have hnext := ppuPosition_ppuDot cart h
    cases hdot : (ppuDot cart u).nmiPending with
    | false =>
      obtain ⟨hctrl, k, hk, hkn, hpos⟩ := ih (inFrame_ppuDot cart h) hdot hafter
      exact ⟨hctrl, k + 1, by omega, by omega, by omega⟩
    | true =>
      by_cases hs : ppuPosition (ppuDot cart u) = vblankStart
      · obtain ⟨-, -, hnmi⟩ := Ppu.vblank_eq_iff.1 (vblank_ppuDot_of_start cart h hs)
        rw [hdot, hbefore, Bool.false_or] at hnmi
        exact ⟨hnmi.symm, 1, by omega, by omega, hnext.symm.trans hs⟩
      · by_cases he : ppuPosition (ppuDot cart u) = vblankEnd
        · obtain ⟨-, -, hnmi⟩ := Ppu.vblank_eq_iff.1 (vblank_ppuDot_of_end cart h he)
          exact absurd (hdot.symm.trans hnmi) (by decide)
        · obtain ⟨-, -, hnmi⟩ := Ppu.vblank_eq_iff.1 (vblank_ppuDot_of_neither cart h hs he)
          exact absurd (hdot.symm.trans (hnmi.trans hbefore)) (by decide)

/-- Settles O52: only the start of vblank raises the request that sets `frame_ready`. -/
theorem busTickAndPoll : Obligations.BusTickAndPoll := by
  intro c s
  refine ⟨pollNmi_of_pending, fun h => ⟨pollNmi_of_not_pending h, takePendingNmi_of_not_pending h⟩, ?tick, ?rise⟩
  case tick =>
    simp only [busTick, tickedPpu, Nat.add_assoc, Bool.decide_or, Bool.decide_and, Bool.decide_eq_true,
      Bool.decide_eq_false]
  case rise =>
    intro hd hs hbefore hafter
    rw [busTick_frameReady, hbefore, Bool.false_or, Bool.and_eq_true, Bool.not_eq_true'] at hafter
    obtain ⟨hnmi, htick⟩ := hafter
    exact ⟨hnmi, ppuTick_raises_nmi s.cart ⟨hd, hs⟩ hnmi htick⟩

/-! ## OAM DMA -/

/-- Ascending addresses, modulo 65536. -/
theorem addr_add_succ (a : Addr) (n : Nat) : a + BitVec.ofNat 16 (n + 1) = a + 1 + BitVec.ofNat 16 n := by
  rw [BitVec.ofNat_add, BitVec.add_assoc, BitVec.add_comm (BitVec.ofNat 16 n)]
  rfl

/-- The states of the copy from `src`, byte by byte (60_exceptions.md R310). -/
def dmaState (src : Addr) (s : State) : Nat → State
  | 0 => s
  | n + 1 => dmaNext (src + BitVec.ofNat 16 n) (dmaState src s n)

/-- The first byte, then the copy from the next address. -/
theorem dmaState_succ_eq_next (src : Addr) (s : State) (n : Nat) :
    dmaState src s (n + 1) = dmaState (src + 1) (dmaNext src s) n := by
  induction n with
  | zero => rw [dmaState, dmaState, BitVec.add_zero]; rfl
  | succ n ih => rw [dmaState, ih, addr_add_succ, dmaState]

/-- A copy that completes has read every byte, and ends in the last of these states. -/
theorem dmaCopy_done {n : Nat} {src : Addr} {s t : State} (h : dmaCopy n src s = .done () t) :
    (∀ k, k < n → readOk (dmaState src s k) (src + BitVec.ofNat 16 k)) ∧ t = dmaState src s n := by
  induction n generalizing src s with
  | zero => cases h; exact ⟨fun k hk => absurd hk (Nat.not_lt_zero k), rfl⟩
  | succ n ih =>
    rcases dmaCopy_succ_cases n src s with ⟨hok, hstep⟩ | ⟨-, hfatal⟩
    · obtain ⟨hreads, ht⟩ := ih (hstep.symm.trans h)
      refine ⟨fun k hk => ?_, ht.trans (dmaState_succ_eq_next src s n).symm⟩
      cases k with
      | zero => rw [BitVec.add_zero]; exact hok
      | succ k =>
        rw [dmaState_succ_eq_next, addr_add_succ]
        exact hreads k (by omega)
    · cases hfatal.symm.trans h

/-- The address of byte `n` of a page. -/
theorem word16_zero_add (d : Byte) {n : Nat} (hn : n < 256) :
    word16 d 0x00 + BitVec.ofNat 16 n = word16 d (BitVec.ofNat 8 n) := by
  apply BitVec.eq_of_toNat_eq
  have hd := d.isLt
  have hoffset : (0x00 : Byte).toNat = 0 := rfl
  rw [BitVec.toNat_add, toNat_word16, toNat_word16, hoffset, BitVec.toNat_ofNat, BitVec.toNat_ofNat]
  omega

/-- 513 cycles, one more where `Bus.cycles` is odd (60_exceptions.md R310, D19). -/
theorem dmaStallFor_eq (cycles : Nat) : dmaStallFor cycles = 513 + cycles % 2 := by
  unfold dmaStallFor
  split <;> omega

/-- What a write to $4014 leaves where it is not fatal. -/
theorem oamDma_of_dmaOk {d : Byte} {s : State} (h : dmaOk s d) :
    (∀ n, n < 256 → readOk (dmaState (word16 d 0x00) s n) (word16 d (BitVec.ofNat 8 n))) ∧
    oamDma d s = .done () { dmaState (word16 d 0x00) s 256 with dmaStall := s.dmaStall + 513 + s.cycles % 2 } := by
  obtain ⟨t, ht⟩ := (dmaCopy_done_iff d s).2 h
  obtain ⟨honly, hstall⟩ : OnlyDevices s t ∧ t.dmaStall = s.dmaStall := by
    rcases dmaCopy_cases 256 (word16 d 0x00) s with ⟨t', ht', honly, -, hstall, -⟩ | ⟨f, hf⟩
    · cases ht.symm.trans ht'
      exact ⟨honly, hstall⟩
    · cases ht.symm.trans hf
  obtain ⟨hreads, rfl⟩ := dmaCopy_done ht
  refine ⟨fun n hn => word16_zero_add d hn ▸ hreads n hn, ?_⟩
  rw [oamDma, ht, andThen_done, hstall, honly.cycles, dmaStallFor_eq, Nat.add_assoc]
  rfl

theorem busWrite_oamDma {a : Addr} (h : a.toNat = 0x4014) (d : Byte) (s : State) : busWrite a d s = oamDma d s := by
  rw [busWrite, if_neg (by omega), if_neg (by omega), if_pos h]

/-- An address whose read has no effect and looks at no device: RAM, ROM, or one that reads 0 (20_memory.md R52). -/
def IsPlain (a : Addr) : Prop := isPpu a = false ∧ a.toNat ≠ 0x4016 ∧ a.toNat ≠ 0x4017

section
variable {a : Addr} (h : IsPlain a) (s : State)
include h

theorem readEffect_of_isPlain : readEffect s a = s := by
  obtain ⟨hport, hjoy1, hjoy2⟩ := h
  rw [readEffect, hport, if_neg Bool.false_ne_true, if_neg hjoy1, if_neg hjoy2]

theorem readValue_setPpu_of_isPlain (u : Ppu) : readValue (s.setPpu u) a = readValue s a := by
  obtain ⟨hport, -, -⟩ := h
  rw [← Bool.not_eq_true, isPpu_iff] at hport
  unfold readValue
  by_cases hram : a.toNat < 0x2000
  · rw [if_pos hram, if_pos hram]
    rfl
  · have hports : ¬ a.toNat < 0x4000 := by omega
    rw [if_neg hram, if_neg hram, if_neg hports, if_neg hports]
    rfl

end

theorem isPlain_of_range {a : Addr} (h : a.toNat < 0x2000 ∨ 0x4000 ≤ a.toNat) (h1 : a.toNat ≠ 0x4016)
    (h2 : a.toNat ≠ 0x4017) : IsPlain a := by
  refine ⟨?_, h1, h2⟩
  rw [← Bool.not_eq_true, isPpu_iff]
  omega

/-- The state of the copy from a page that is plain, after `n` bytes: they stand in OAM from `oam_addr` on, wrapping, and
nothing else has changed (60_exceptions.md R310). -/
theorem dmaState_of_isPlain {d : Byte} {s : State} (hs : s.Sound) (hplain : ∀ b, IsPlain (word16 d b)) {n : Nat}
    (hn : n ≤ 256) : ∃ oam, Memory.wf oam = true ∧
      dmaState (word16 d 0x00) s n =
        s.setPpu { s.ppu with oam := oam, oamAddr := s.ppu.oamAddr + BitVec.ofNat 8 n } ∧
      ∀ k, k < n → memGet oam ((s.ppu.oamAddr.toNat + k) % 256) = readValue s (word16 d (BitVec.ofNat 8 k)) := by
  induction n with
  | zero =>
    exact ⟨s.ppu.oam, hs.ppu.oam.1, by rw [dmaState, BitVec.add_zero]; rfl, fun k hk => absurd hk (Nat.not_lt_zero k)⟩
  | succ n ih =>
    obtain ⟨oam, hwf, hstate, hbytes⟩ := ih (by omega)
    have haddr : (s.ppu.oamAddr + BitVec.ofNat 8 n).toNat = (s.ppu.oamAddr.toNat + n) % 256 := by
      rw [BitVec.toNat_add, BitVec.toNat_ofNat, Nat.add_mod_mod]
    refine ⟨memSet oam ((s.ppu.oamAddr.toNat + n) % 256) (readValue s (word16 d (BitVec.ofNat 8 n))),
      memSet_wf _ _ hwf, ?state, fun k hk => ?bytes⟩
    case state =>
      rw [dmaState, word16_zero_add d (by omega), hstate, dmaNext, readEffect_of_isPlain (hplain _),
        readValue_setPpu_of_isPlain (hplain _), ← haddr, BitVec.ofNat_add, ← BitVec.add_assoc]
      rfl
    case bytes =>
      rw [memGet_memSet _ _ _ _ hwf]
      by_cases hlast : k = n
      · rw [if_pos (by rw [hlast]), hlast]
      · rw [if_neg (by omega), hbytes k (by omega)]

/-- Settles O50: the states of the copy are those of its bytes one by one; where it stops is `oamDma_cases`. -/
theorem oamDmaRule : Obligations.OamDma := by
  intro a d s ha
  rw [busWrite_oamDma ha]
  refine ⟨fun hok => ?done, fun hfatal => ?fatal, fun hs hd => ?plain⟩
  case done =>
    obtain ⟨hreads, hdone⟩ := oamDma_of_dmaOk hok
    refine ⟨dmaState (word16 d 0x00) s, rfl, fun n hn => ⟨_, _, busRead_of_readOk (hreads n hn), ?_⟩, hdone⟩
    rw [dmaState, word16_zero_add d hn, ofNat_toNat_add_one]
    rfl
  case fatal =>
    rcases oamDma_cases d s with ⟨hok, -⟩ | ⟨-, v, hv, hfatalV⟩
    · exact absurd hok hfatal
    · exact ⟨v, hfatalV, hv⟩
  case plain =>
    have hok : dmaOk s d := fun hlo hhi => by omega
    have hplain : ∀ b, IsPlain (word16 d b) := fun b => by
      have hb := b.isLt
      have hpage := toNat_word16 d b
      exact isPlain_of_range (by omega) (by omega) (by omega)
    obtain ⟨oam, -, hstate, hbytes⟩ := dmaState_of_isPlain hs hplain (Nat.le_refl 256)
    refine ⟨oam, ?_, hbytes⟩
    have hwraps : s.ppu.oamAddr + BitVec.ofNat 8 256 = s.ppu.oamAddr := BitVec.add_zero s.ppu.oamAddr
    rw [(oamDma_of_dmaOk hok).2, hstate, hwraps]
    rfl

end Sys2Proof.Machine

/-! PROOFS. Traps and the fetch (60_exceptions.md sections 1 and 3): what a trap pushes and a return pops, the NMI entry, and
the instruction that the bus reads of a step give. -/

namespace Sys2Proof.Machine

/-! ## Entering a trap and leaving it -/

/-- A push leaves every byte of RAM and ROM but the one SP named. -/
theorem readValue_push8_of_not_same {s : State} {a : Addr} (d : Byte) (ha : isStorage a = true)
    (h : ¬ sameRamByte a (stackAddr s.sp)) : readValue (push8 d s) a = readValue s a := by
  have hstack := stackAddr_lt s.sp
  exact (readValue_congr ha rfl rfl).trans (readValue_writeRam_of_not_same s d hstack ha h)

theorem State.setPc_registers (s : State) (pc : Addr) : (s.setPc pc).registers = { s.registers with pc := pc } := rfl

theorem busTick_registers (c : Nat) (s : State) : (busTick c s).registers = s.registers := rfl

section
variable {s : State} (ret : Addr) (status : Byte)

/-- The three bytes a trap pushes, from wherever SP points (10_state.md R24, D3, D5). -/
theorem readValue_enterTrap_pushed (h : s.Sound) :
    readValue (enterTrap ret status s) (stackAddr s.sp) = hiByte ret ∧
    readValue (enterTrap ret status s) (stackAddr (s.sp - 1)) = loByte ret ∧
    readValue (enterTrap ret status s) (stackAddr (s.sp - 2)) = status := by
  have hram : (enterTrap ret status s).ram = (push8 status (push8 (loByte ret) (push8 (hiByte ret) s))).ram := rfl
  simp only [readValue_stackAddr, hram]
  refine ⟨?high, ?low, ?status⟩
  case high =>
    rw [memGet_push8_of_ne _ (by simp only [push8_sp]; bv_omega), memGet_push8_of_ne _ (by rw [push8_sp]; bv_omega),
      memGet_push8_self h]
  case low =>
    rw [memGet_push8_of_ne _ (by simp only [push8_sp]; bv_omega), ← push8_sp s (hiByte ret),
      memGet_push8_self (push8_sound h _)]
  case status =>
    rw [← byte_sub_one_sub_one, ← push8_sp s (hiByte ret), ← push8_sp _ (loByte ret),
      memGet_push8_self (push8_sound (push8_sound h _) _)]

/-- Every other byte of RAM and ROM reads as before (20_memory.md R54). -/
theorem readValue_enterTrap_of_not_pushed {a : Addr} (ha : isStorage a = true)
    (h0 : ¬ sameRamByte a (stackAddr s.sp)) (h1 : ¬ sameRamByte a (stackAddr (s.sp - 1)))
    (h2 : ¬ sameRamByte a (stackAddr (s.sp - 2))) : readValue (enterTrap ret status s) a = readValue s a := by
  rw [← byte_sub_one_sub_one] at h2
  calc readValue (enterTrap ret status s) a
      = readValue (push8 status (push16 ret s)) a := readValue_congr ha rfl rfl
    _ = readValue (push16 ret s) a := readValue_push8_of_not_same _ ha h2
    _ = readValue (push8 (hiByte ret) s) a := readValue_push8_of_not_same _ ha h1
    _ = readValue s a := readValue_push8_of_not_same _ ha h0

/-- RTI in a state that has the RAM and SP of a trap entry goes back to where the trap was entered, with the status pushed
(60_exceptions.md R276). -/
theorem rti_after_enterTrap (h : s.Sound) {t : State} {vector : Addr} (hram : t.ram = (enterTrap ret status s).ram)
    (hregisters : t.registers = { s.registers with sp := s.sp - 3, pc := vector }) :
    ∃ u, exec .rti t = .next u ∧ u.registers = { s.registers with pc := ret } ∧ u.p = pulledStatus status := by
  have hread : ∀ sp, readValue t (stackAddr sp) = readValue (enterTrap ret status s) (stackAddr sp) := fun sp => by
    rw [readValue_stackAddr, readValue_stackAddr, hram]
  obtain ⟨hhigh, hlow, hstatus⟩ := readValue_enterTrap_pushed ret status h
  have hsp : t.sp = s.sp - 3 := congrArg Registers.sp hregisters
  have hsp1 : t.sp + 1 = s.sp - 2 := by rw [hsp]; bv_omega
  have hsp2 : t.sp + 2 = s.sp - 1 := by rw [hsp]; bv_omega
  have hsp3 : t.sp + 3 = s.sp := by rw [hsp]; bv_omega
  refine ⟨_, exec_rti t, ?registers, ?status⟩
  case registers =>
    rw [busTick_registers, State.setPc_registers, leaveTrap_registers, hregisters, hsp3, leaveTrapPc_eq, hsp3, hsp2, hread,
      hread, hhigh, hlow, word16_bytes]
    rfl
  case status => rw [busTick_p, State.setPc_p, leaveTrap_p, pop8Value, hsp1, hread, hstatus]

end

/-! ## The NMI entry -/

/-- The machine with its NMI request consumed in the Bus and in the PPU (60_exceptions.md R283, D14). -/
def polled (s : State) : State := { s with pendingNmi := false, ppu := { s.ppu with nmiPending := false } }

/-- The machine in which the service of a pending NMI has pushed PC and P (60_exceptions.md R274). -/
def nmiTrap (s : State) : State := enterTrap s.pc (pushedByNmi s.p) (polled s)

theorem pollNmi_eq_polled {s : State} (h : s.pendingNmi = true) : pollNmi s = polled s := pollNmi_of_pending h

theorem polled_sound {s : State} (h : s.Sound) : (polled s).Sound := { h with ppu := { h.ppu with } }

section
variable (s : State)

@[simp] theorem nmiTrap_cart : (nmiTrap s).cart = s.cart := enterTrap_cart (polled s) s.pc (pushedByNmi s.p)
@[simp] theorem nmiTrap_dmaStall : (nmiTrap s).dmaStall = s.dmaStall :=
  enterTrap_dmaStall (polled s) s.pc (pushedByNmi s.p)
@[simp] theorem nmiTrap_cycles : (nmiTrap s).cycles = s.cycles := enterTrap_cycles (polled s) s.pc (pushedByNmi s.p)
@[simp] theorem nmiTrap_frameReady : (nmiTrap s).frameReady = s.frameReady :=
  enterTrap_frameReady (polled s) s.pc (pushedByNmi s.p)
@[simp] theorem nmiTrap_ppu : (nmiTrap s).ppu = { s.ppu with nmiPending := false } :=
  enterTrap_ppu (polled s) s.pc (pushedByNmi s.p)
@[simp] theorem nmiTrap_joy1 : (nmiTrap s).joy1 = s.joy1 := enterTrap_joy1 (polled s) s.pc (pushedByNmi s.p)
@[simp] theorem nmiTrap_joy2 : (nmiTrap s).joy2 = s.joy2 := enterTrap_joy2 (polled s) s.pc (pushedByNmi s.p)
@[simp] theorem nmiTrap_build : (nmiTrap s).build = s.build := enterTrap_build (polled s) s.pc (pushedByNmi s.p)
@[simp] theorem nmiTrap_halted : (nmiTrap s).halted = s.halted := enterTrap_halted (polled s) s.pc (pushedByNmi s.p)
@[simp] theorem nmiTrap_p : (nmiTrap s).p = setI true s.p := enterTrap_p (polled s) s.pc (pushedByNmi s.p)

end

theorem nmiTrap_registers (s : State) : (nmiTrap s).registers = { s.registers with sp := s.sp - 3 } :=
  enterTrap_registers (polled s) s.pc (pushedByNmi s.p)

/-- The three bytes the service pushes (60_exceptions.md R274, D3). -/
theorem readValue_nmiTrap_pushed {s : State} (h : s.Sound) :
    readValue (nmiTrap s) (stackAddr s.sp) = hiByte s.pc ∧
    readValue (nmiTrap s) (stackAddr (s.sp - 1)) = loByte s.pc ∧
    readValue (nmiTrap s) (stackAddr (s.sp - 2)) = pushedByNmi s.p := by
  have hsp : (polled s).sp = s.sp := rfl
  have hpushed := readValue_enterTrap_pushed s.pc (pushedByNmi s.p) (polled_sound h)
  rw [hsp] at hpushed
  exact hpushed

theorem readValue_nmiTrap_of_not_pushed {s : State} {a : Addr} (ha : isStorage a = true)
    (h0 : ¬ sameRamByte a (stackAddr s.sp)) (h1 : ¬ sameRamByte a (stackAddr (s.sp - 1)))
    (h2 : ¬ sameRamByte a (stackAddr (s.sp - 2))) : readValue (nmiTrap s) a = readValue s a :=
  (readValue_enterTrap_of_not_pushed (s := polled s) s.pc (pushedByNmi s.p) ha h0 h1 h2).trans (readValue_congr ha rfl rfl)

/-- The service ticks and goes to the vector, which the pushes do not reach (60_exceptions.md R274; 20_memory.md R69). -/
theorem takePendingNmi_eq {s : State} (h : s.pendingNmi = true) : takePendingNmi s =
    (busTick 2 (nmiTrap s)).setPc (word16 (readValue s 0xFFFB) (readValue s 0xFFFA)) := by
  have hrom : ∀ a : Addr, 0x8000 ≤ a.toNat → readValue (busTick 2 (nmiTrap s)) a = readValue s a := fun a ha => by
    rw [readValue_rom _ ha, readValue_rom _ ha, busTick_cart, nmiTrap_cart]
  rw [takePendingNmi_of_pending h, pollNmi_eq_polled h, serviceNmi_eq]
  exact congrArg (State.setPc _) (congrArg₂ word16 (hrom 0xFFFB (by decide)) (hrom 0xFFFA (by decide)))

theorem takePendingNmi_registers {s : State} (h : s.pendingNmi = true) : (takePendingNmi s).registers =
    { s.registers with sp := s.sp - 3, pc := word16 (readValue s 0xFFFB) (readValue s 0xFFFA) } := by
  rw [takePendingNmi_eq h, State.setPc_registers, busTick_registers, nmiTrap_registers]

/-- The tick of the service is six dots, where no stall is left over (60_exceptions.md R280, D32). -/
theorem tickedPpu_nmiTrap {s : State} (h : s.dmaStall = 0) :
    tickedPpu 2 (nmiTrap s) = ppuTick s.cart 6 { s.ppu with nmiPending := false } := by
  rw [tickedPpu, nmiTrap_dmaStall, nmiTrap_cart, nmiTrap_ppu, h]

/-- Settles O7: the entry is a trap of the polled machine, then a tick that changes neither RAM nor the CPU registers. -/
theorem nmiEntry : Obligations.NmiEntry := by
  rintro s t hs hpending rfl
  have hread : ∀ {a}, isStorage a = true → readValue (takePendingNmi s) a = readValue (nmiTrap s) a := fun ha => by
    rw [takePendingNmi_eq hpending]
    exact readValue_congr ha rfl rfl
  obtain ⟨hhigh, hlow, hstatus⟩ := readValue_nmiTrap_pushed hs.toSound
  refine ⟨(hread (isStorage_stackAddr _)).trans hhigh, (hread (isStorage_stackAddr _)).trans hlow,
    (hread (isStorage_stackAddr _)).trans hstatus,
    fun a ha h0 h1 h2 => (hread ha).trans (readValue_nmiTrap_of_not_pushed ha h0 h1 h2), ?_⟩
  rw [takePendingNmi_eq hpending, State.setPc_ppu, busTick_ppu, tickedPpu_nmiTrap hs.dmaStall]
  refine ⟨?registers, ?status, rfl, ?cycles, rfl, ?pendingNmi, ?frameReady, nmiTrap_joy1 s, nmiTrap_joy2 s,
    nmiTrap_cart s, nmiTrap_build s, nmiTrap_halted s⟩
  case registers => rw [← takePendingNmi_eq hpending, takePendingNmi_registers hpending]
  case status => rw [State.setPc_p, busTick_p, nmiTrap_p, statusBits_setI]
  case cycles => rw [State.setPc_cycles, busTick_cycles, nmiTrap_cycles, nmiTrap_dmaStall, hs.dmaStall]
  case pendingNmi => rw [State.setPc_pendingNmi, busTick_pendingNmi, tickedPpu_nmiTrap hs.dmaStall]
  case frameReady =>
    rw [State.setPc_frameReady, busTick_frameReady, tickedPpu_nmiTrap hs.dmaStall, nmiTrap_frameReady, nmiTrap_ppu,
      Bool.not_false, Bool.true_and, Bool.or_eq_true]

/-- Settles O36: each entry pushed a status that is pulled back as P, since B is 0 and U is 1 in it. -/
theorem rtiUndoesTheTraps : Obligations.RtiUndoesTheTraps := by
  intro s hs
  refine ⟨fun hpending => ?nmi, fun hmode => ?brk⟩
  case nmi =>
    have hram : (takePendingNmi s).ram = (enterTrap s.pc (pushedByNmi s.p) (polled s)).ram := by
      rw [takePendingNmi_eq hpending, State.setPc_ram, busTick_ram, nmiTrap]
    obtain ⟨u, hexec, hregisters, hp⟩ :=
      rti_after_enterTrap s.pc (pushedByNmi s.p) (polled_sound hs.toSound) hram (takePendingNmi_registers hpending)
    exact ⟨u, hexec, hregisters, hp.trans (pulled_pushedByNmi s.p hs.flagB hs.flagU)⟩
  case brk =>
    obtain ⟨u, hexec, hregisters, hp⟩ := rti_after_enterTrap (s.pc + 2) (pushedByProgram s.p) hs.toSound
      (t := busTick 7 ((enterTrap (s.pc + 2) (pushedByProgram s.p) s).setPc
        (readWord (enterTrap (s.pc + 2) (pushedByProgram s.p) s) brkVector)))
      (by rw [busTick_ram, State.setPc_ram]) (by rw [busTick_registers, State.setPc_registers, enterTrap_registers])
    exact ⟨_, u, exec_brk_hardware hmode, hexec, hregisters, hp.trans (pulled_pushedByProgram s.p hs.flagB hs.flagU)⟩

/-! ## The fetch -/

/-! What the fetch reads, by the entry of the opcode byte (60_exceptions.md R260; `fetchInstr_of_f1` is the first case). -/

theorem fetchInstr_of_f2 {s u v : State} {op d : Byte} {mk : Byte → Instr} (hop : decodeOpcode op = .f2 mk)
    (hread : busRead s.pc s = .done op u) (hread1 : busRead (s.pc + 1) u = .done d v) :
    fetchInstr s = .done (mk d) v := by
  simp only [fetchInstr, hread, hread1, andThen_done, hop]

theorem fetchInstr_of_f2skip {s u : State} {op : Byte} {mk : Byte → Instr} (hop : decodeOpcode op = .f2skip mk)
    (hread : busRead s.pc s = .done op u) : fetchInstr s = .done (mk (readValue u (s.pc + 1))) u := by
  simp only [fetchInstr, hread, andThen_done, hop]

theorem fetchInstr_of_f3 {s u v w : State} {op lo hi : Byte} {mk : Addr → Instr} (hop : decodeOpcode op = .f3 mk)
    (hread : busRead s.pc s = .done op u) (hread1 : busRead (s.pc + 1) u = .done lo v)
    (hread2 : busRead (s.pc + 2) v = .done hi w) : fetchInstr s = .done (mk (word16 hi lo)) w := by
  simp only [fetchInstr, hread, hread1, hread2, andThen_done, hop]

theorem fetchInstr_of_fatal {s : State} {f : Fault} (hread : busRead s.pc s = .fatal f) : fetchInstr s = .fatal f := by
  rw [fetchInstr, hread, andThen_fatal]

/-- A fatal read of the fetch is the outcome of the step (60_exceptions.md R266). -/
theorem step_of_fetchInstr_fatal {s : State} {f : Fault} (hrun : s.halted = false)
    (hfetch : fetchInstr (takePendingNmi s) = .fatal f) : step s = .fault f := by
  simp [step, hrun, hfetch]

/-- A bus read that completes gives the value of the map. -/
theorem readValue_of_busRead {s u : State} {a : Addr} {b : Byte} (h : busRead a s = .done b u) : readValue s a = b := by
  rcases busRead_cases s a with ⟨-, hread⟩ | ⟨-, hfatal⟩
  · exact (Access.done.inj (hread.symm.trans h)).1
  · cases hfatal.symm.trans h

/-- Where the three bytes at PC can be read without effect, the fetch is of the instruction they decode to. -/
theorem fetchInstr_of_decode {s : State} {op d hi : Byte} {i : Instr} {rest : List Byte}
    (h0 : busRead s.pc s = .done op s) (h1 : busRead (s.pc + 1) s = .done d s) (h2 : busRead (s.pc + 2) s = .done hi s)
    (hdecode : decode [op, d, hi] = .ok (i, rest)) : fetchInstr s = .done i s := by
  cases hop : decodeOpcode op with
  | f1 j =>
    cases (decode_bytes hop 0 0 [d, hi]).symm.trans hdecode
    exact fetchInstr_of_f1 h0 hop
  | f2 mk =>
    cases (decode_bytes hop d 0 [hi]).symm.trans hdecode
    exact fetchInstr_of_f2 hop h0 h1
  | f2skip mk =>
    cases (decode_bytes hop d 0 [hi]).symm.trans hdecode
    have hd : readValue s (s.pc + 1) = d := readValue_of_busRead h1
    exact hd ▸ fetchInstr_of_f2skip hop h0
  | f3 mk =>
    have hword := decode_bytes hop 0 (word16 hi d) []
    simp only [Form.bytes, loByte_word16, hiByte_word16] at hword
    cases hword.symm.trans hdecode
    exact fetchInstr_of_f3 hop h0 h1 h2

/-- Settles O5: the decoder reads the bytes that the fetch reads. -/
theorem stepRunsDecodedInstruction : Obligations.StepRunsDecodedInstruction := by
  rintro s w i rest hrun rfl hreads hdecode
  refine step_of_fetchInstr hrun (fetchInstr_of_decode ?_ (hreads 1 (by decide)) (hreads 2 (by decide)) hdecode)
  simpa using hreads 0 (by decide)

/-- The entry's operand byte is skipped, not read (45_undocumented.md R239). -/
def isSkip : Form → Bool
  | .f2skip _ => true
  | .f1 _ | .f2 _ | .f3 _ => false

/-- The map skips the operand byte of no instruction but the Immediate *NOPs (45_undocumented.md R239). -/
theorem mem_nopBytes_of_isSkip : ∀ op : Byte, isSkip (decodeOpcode op) = true → op ∈ nopBytes (.imm 0) := by decide

theorem decodeOpcode_nop_imm {op : Byte} (h : op ∈ nopBytes (.imm 0)) :
    decodeOpcode op = .f2skip fun d => .nopU op (.imm d) :=
  List.map_inj_left.1 (map_decodeOpcode_nopBytes (.imm 0)) op h

/-- The first of several bus reads, then the others. -/
theorem readBytes_cons {n : Nat} {a : Addr} {s u : State} {b : Byte} {bs : List Byte}
    (h : readBytes (n + 1) a s = .done (b :: bs) u) :
    ∃ v, busRead a s = .done b v ∧ readBytes n (a + 1) v = .done bs u := by
  rw [readBytes] at h
  cases hread : busRead a s with
  | fatal f => rw [hread] at h; cases h
  | done b' v =>
    rw [hread, andThen_done] at h
    cases hrest : readBytes n (a + 1) v with
    | fatal f => rw [hrest] at h; cases h
    | done bs' w =>
      rw [hrest, andThen_done] at h
      cases h
      exact ⟨v, rfl, hrest⟩

/-- Bus reads of the encoding of an instruction, other than Immediate *NOP, are its fetch (60_exceptions.md R260, D8). -/
theorem fetchInstr_of_readBytes {s u : State} {i : Instr} (hwf : i.wf = true) (hi : ∀ op d, i ≠ .nopU op (.imm d))
    (h : readBytes (encode i).length s.pc s = .done (encode i) u) : fetchInstr s = .done i u := by
  obtain ⟨op, d, w, rfl, -⟩ := exists_form_of_decode (decodeOfEncode i [] hwf)
  rw [(encode_decodeOpcode op d w).2] at h
  cases hop : decodeOpcode op with
  | f1 j =>
    rw [hop] at h
    obtain ⟨v, hread, hend⟩ := readBytes_cons h
    cases hend
    exact fetchInstr_of_f1 hread hop
  | f2 mk =>
    rw [hop] at h
    obtain ⟨v, hread, hrest⟩ := readBytes_cons h
    obtain ⟨v', hread1, hend⟩ := readBytes_cons hrest
    cases hend
    exact fetchInstr_of_f2 hop hread hread1
  | f2skip mk =>
    have hnop := decodeOpcode_nop_imm (mem_nopBytes_of_isSkip op (by rw [hop]; rfl))
    exact absurd (by rw [hnop]; rfl) (hi op d)
  | f3 mk =>
    rw [hop] at h
    obtain ⟨v, hread, hrest⟩ := readBytes_cons h
    obtain ⟨v', hread1, hrest'⟩ := readBytes_cons hrest
    obtain ⟨v'', hread2, hend⟩ := readBytes_cons hrest'
    cases hend
    rw [BitVec.add_assoc] at hread2
    rw [fetchInstr_of_f3 hop hread hread1 hread2, word16_bytes]
    rfl

/-- Settles O6: the reads of an encoding are the fetch of the entry of its opcode byte. -/
theorem stepFetchesThroughTheBus : Obligations.StepFetchesThroughTheBus := by
  rintro s w hrun rfl
  refine ⟨fun i u hwf hi hread => step_of_fetchInstr hrun (fetchInstr_of_readBytes hwf hi hread),
    fun op u hop hread => step_of_fetchInstr hrun (fetchInstr_of_f2skip (decodeOpcode_nop_imm hop) hread),
    fun f hfatal => step_of_fetchInstr_fatal hrun (fetchInstr_of_fatal hfatal)⟩

end Sys2Proof.Machine

/-! PROOFS. The outcomes (60_exceptions.md sections 1, 2 and 4): how an instruction and a step can end, the cause of each fatal
outcome, the cycles of an instruction, and the devices it leaves alone. -/

namespace Sys2Proof.Machine

/-! ## How an instruction can end -/

/-- What each fatal outcome of an instruction means (60_exceptions.md R266 to R270, 40_loads_stores_transfers.md R128). -/
inductive HasCause (i : Instr) (s : State) : Fault → Prop
  /-- The instruction is an undefined byte. -/
  | undefined (b : Byte) (h : i = .undefined b) : HasCause i s (.unknownOpcode b s.pc)
  /-- It stores to ROM. -/
  | rom (a : Addr) (ha : a ∈ targetAddrs i s) (hrom : 0x8000 ≤ a.toNat) : HasCause i s (.writeToRom a)
  /-- It reads $2007 where `v` is in $4000-$7FFF. -/
  | read (a : Addr) (ha : a ∈ sourceAddrs i s) (hport : isPort .data a = true) (hv : 0x4000 ≤ s.ppu.v.toNat) :
      HasCause i s (.unmappedPpuRead s.ppu.v)
  /-- It starts an OAM DMA that reads $2007 where `v` has come to $4000-$7FFF. -/
  | dma (v : VramAddr) (ha : 0x4014 ∈ targetAddrs i s) (hv : dmaFatalV s v) : HasCause i s (.unmappedPpuRead v)
  /-- It writes $2007 where `v`, after its reads, is outside $2000-$3FFF. -/
  | write (a : Addr) (v : VramAddr) (ha : a ∈ targetAddrs i s) (hport : isPort .data a = true)
      (hv : v = ((sourceAddrs i s).foldl readEffect s).ppu.v) (hfatal : v.toNat < 0x2000 ∨ 0x4000 ≤ v.toNat) :
      HasCause i s (.unmappedPpuWrite v)

/-- The outcomes of an instruction: a next state, or a fault with its cause. -/
inductive Ends (i : Instr) (s : State) : Host.Outcome State Fault Refusal → Prop
  | next (t : State) : Ends i s (.next t)
  | fault (f : Fault) (h : HasCause i s f) : Ends i s (.fault f)

/-- A read that is not safe reaches $2007 with `v` in $4000-$7FFF (60_exceptions.md R269). -/
theorem not_readOk_iff {s : State} {a : Addr} : ¬ readOk s a ↔ isPort .data a = true ∧ 0x4000 ≤ s.ppu.v.toNat := by
  rw [readOk, Classical.not_imp, Nat.not_lt]

section
variable {i : Instr} {s : State}

theorem HasCause.of_not_readOk {a : Addr} (ha : a ∈ sourceAddrs i s) (h : ¬ readOk s a) :
    HasCause i s (.unmappedPpuRead s.ppu.v) := by
  obtain ⟨hport, hv⟩ := not_readOk_iff.1 h
  exact .read a ha hport hv

/-- A fatal write, in the state that the reads of the instruction have left. -/
theorem HasCause.of_busWrite {r : State} {a : Addr} {d : Byte} {f : Fault} (ha : a ∈ targetAddrs i s)
    (hr : r = (sourceAddrs i s).foldl readEffect s) (hsame : a.toNat = 0x4014 → r = s)
    (h : busWrite a d r = .fatal f) : HasCause i s f := by
  rcases busWrite_cases a d r with ⟨-, t, hdone, -⟩ | ⟨hok, f', hfatal, hcause⟩
  · cases hdone.symm.trans h
  · cases hfatal.symm.trans h
    rcases hcause with ⟨hrom, rfl⟩ | ⟨hport, rfl⟩ | ⟨hdma, v, rfl, hv⟩
    · exact .rom a ha hrom
    · refine .write a _ ha hport (by rw [hr]) ?_
      have hrange := (isPpu_iff a).1 (isPort_isPpu hport)
      by_contra hin
      exact hok ⟨by omega, fun _ => by omega, fun h4014 => by omega⟩
    · obtain rfl : a = 0x4014 := BitVec.eq_of_toNat_eq hdma
      exact .dma v ha (hsame hdma ▸ hv)

/-! The shapes. -/

theorem ends_finish (pc : Addr) (c : Nat) (w : State) : Ends i s (finish pc c w) := .next _

theorem ends_branchIf (cond : Bool) (off : Byte) (w : State) : Ends i s (branchIf cond off w) := by
  cases cond <;> exact .next _

theorem ends_readThen {src : Source} {op : Byte → State → State}
    (hsrc : ∀ o, src = .mem o → effAddr o s ∈ sourceAddrs i s) : Ends i s (readThen src op s) := by
  rcases readThen_cases src op s with ⟨-, hnext⟩ | ⟨hok, hfault⟩
  · exact hnext ▸ .next _
  · cases src with
    | imm d => exact absurd trivial hok
    | mem o => exact hfault ▸ .fault _ (.of_not_readOk (hsrc o rfl) hok)

theorem ends_storeByte {o : MemOperand} {d : Byte} (hsrc : sourceAddrs i s = []) (htgt : targetAddrs i s = [effAddr o s]) :
    Ends i s (storeByte o d s) := by
  rcases storeByte_cases o d s with ⟨-, u, -, hnext⟩ | ⟨-, f, hfatal, hfault⟩
  · exact hnext ▸ .next _
  · exact hfault ▸ .fault f (.of_busWrite (by simp [htgt]) (by rw [hsrc]; rfl) (fun _ => rfl) hfatal)

/-- A read of $4014 has no effect (20_memory.md R52). -/
theorem readEffect_4014 {a : Addr} (h : a.toNat = 0x4014) (s : State) : readEffect s a = s :=
  readEffect_of_isPlain (isPlain_of_range (by omega) (by omega) (by omega)) s

theorem ends_modifyThen {o : MemOperand} {result : Byte → State → Byte} {after : Byte → Byte → State → State}
    (hsrc : sourceAddrs i s = [effAddr o s]) (htgt : targetAddrs i s = [effAddr o s]) :
    Ends i s (modifyThen o result after s) := by
  rcases modifyThen_cases o result after s with ⟨-, r, u, -, -, -, hnext⟩ | ⟨hok, hfault⟩ | ⟨-, r, f, -, -, hfatal, hfault⟩
  · exact hnext ▸ .next _
  · exact hfault ▸ .fault _ (.of_not_readOk (by simp [hsrc]) hok)
  · exact hfault ▸ .fault f (.of_busWrite (by simp [htgt]) (by rw [hsrc]; rfl) (fun h => readEffect_4014 h s) hfatal)

end

/-- No read moves `v` but one of $2007 (60_exceptions.md R297). -/
theorem readEffect_v {s : State} {a : Addr} (h : isPort .data a = false) : (readEffect s a).ppu.v = s.ppu.v := by
  rcases readEffect_cases s a with ⟨hp, e⟩ | ⟨-, e⟩ | ⟨-, e⟩ | ⟨-, -, -, e⟩ <;> rw [e]
  · have hport : portOf a ≠ .data := fun hdata => by simp [isPort, hp, hdata] at h
    rw [State.setPpu_ppu]
    generalize portOf a = port at hport
    cases port with
    | data => exact absurd rfl hport
    | ctrl | mask | status | oamAddr | oamData | scroll | addr => rfl
  · rfl
  · rfl

/-- The two pointer bytes of JMP Indirect are not both at $2007: their addresses differ in the low three bits. -/
theorem not_data_of_jumpHighAddr {w : Addr} (h : isPort .data (jumpHighAddr w) = true) : isPort .data w = false := by
  have hhigh := portOf_eq_data.1 (isPort_portOf h)
  rw [jumpHighAddr, toNat_word16, BitVec.toNat_add, toNat_loByte] at hhigh
  rw [← Bool.not_eq_true]
  intro hlow
  have hw := portOf_eq_data.1 (isPort_portOf hlow)
  have hone : (1 : Byte).toNat = 1 := rfl
  omega

/-- Every instruction ends so. -/
theorem exec_ends (i : Instr) (s : State) : Ends i s (exec i s) := by
  cases i with
  | tax | tay | tsx | txa | txs | tya | inx | iny | dex | dey | clc | sec | cld | sed | cli | sei | clv | nop
  | jsr | rts | rti | pha | pla | php | plp => exact .next _
  | bcc off | bcs off | beq off | bne off | bmi off | bpl off | bvc off | bvs off => exact ends_branchIf _ off s
  | lda src | ldx src | ldy src | adc src | sbc src | and src | ora src | eor src | cmp src | cpx src | cpy src =>
    exact ends_readThen fun o e => e ▸ List.mem_singleton.2 rfl
  | bit o | lax o => exact ends_readThen (src := .mem o) fun o' e => by cases e; exact List.mem_singleton.2 rfl
  | sbcU d =>
    simp only [exec, execSbcU]
    exact ends_readThen fun o e => by cases e
  | sta o | stx o | sty o | sax o => exact ends_storeByte rfl rfl
  | inc o | dec o | dcp o | isb o | slo o | rla o | sre o | rra o =>
    simp only [exec, execInc, execDec, execDcp, execIsb, execSlo, execRla, execSre, execRra]
    exact ends_modifyThen rfl rfl
  | asl tgt | lsr tgt | rol tgt | ror tgt =>
    cases tgt with
    | acc => exact .next _
    | mem o =>
      simp only [exec, execAsl, execLsr, execRol, execRor, shiftThen]
      exact ends_modifyThen rfl rfl
  | nopU op n => cases n <;> exact .next _
  | undefined op => exact .fault _ (.undefined op rfl)
  | brk =>
    cases hmode : s.build.brkMode with
    | hardware => exact exec_brk_hardware hmode ▸ .next _
    | halt => exact exec_brk_halt hmode ▸ .next _
  | jmp j =>
    cases j with
    | abs w => exact .next _
    | ind w =>
      by_cases hlo : readOk s w
      · by_cases hhi : readOk (readEffect s w) (jumpHighAddr w)
        · exact exec_jmp_ind hlo hhi ▸ .next _
        · rw [exec_jmp_ind_of_fatal_high hlo hhi]
          obtain ⟨hport, hv⟩ := not_readOk_iff.1 hhi
          rw [readEffect_v (not_data_of_jumpHighAddr hport)] at hv ⊢
          exact .fault _ (.read (jumpHighAddr w) (by simp [sourceAddrs]) hport hv)
      · rw [exec_jmp_ind_of_fatal_low hlo]
        exact .fault _ (.of_not_readOk (a := w) (by simp [sourceAddrs]) hlo)

theorem hasCause_of_exec_fault {i : Instr} {s : State} {f : Fault} (h : exec i s = .fault f) : HasCause i s f := by
  have hends := exec_ends i s
  rw [h] at hends
  cases hends with
  | fault f hcause => exact hcause

/-- Settles O9: each cause is named as the statement has it. -/
theorem fatalOutcomesHaveTheirCauses : Obligations.FatalOutcomesHaveTheirCauses := by
  intro i s f h
  cases hasCause_of_exec_fault h with
  | undefined b hi => exact ⟨hi, rfl⟩
  | rom a ha hrom => exact ⟨ha, hrom⟩
  | read a ha hport hv => exact .inl ⟨hv, rfl, a, ha, hport⟩
  | dma v ha hv => exact .inr ⟨hv, _, ha, rfl⟩
  | write a v ha hport hv hfatal => exact ⟨hfatal, hv, a, ha, hport⟩

theorem andThen_eq_fatal {α β : Type} {r : Access α} {k : α → State → Access β} {f : Fault}
    (h : andThen r k = .fatal f) : r = .fatal f ∨ ∃ v s, r = .done v s ∧ k v s = .fatal f := by
  cases r with
  | done v s => exact .inr ⟨v, s, rfl, h⟩
  | fatal f' => cases h; exact .inl rfl

/-- The fetch is fatal only where one of its reads is (60_exceptions.md R269). -/
theorem fetchInstr_fatal {s : State} {f : Fault} (h : fetchInstr s = .fatal f) :
    ∃ a u, busRead a u = .fatal f := by
  rcases andThen_eq_fatal h with hread | ⟨op, u, -, hrest⟩
  · exact ⟨_, _, hread⟩
  · cases hop : decodeOpcode op with
    | f1 i => simp [hop] at hrest
    | f2skip mk => simp [hop] at hrest
    | f2 mk =>
      simp only [hop] at hrest
      rcases andThen_eq_fatal hrest with hread | ⟨d, v, -, hdone⟩
      · exact ⟨_, _, hread⟩
      · cases hdone
    | f3 mk =>
      simp only [hop] at hrest
      rcases andThen_eq_fatal hrest with hread | ⟨lo, v, -, hhigh⟩
      · exact ⟨_, _, hread⟩
      · rcases andThen_eq_fatal hhigh with hread | ⟨hi, w, -, hdone⟩
        · exact ⟨_, _, hread⟩
        · cases hdone

/-- How a step ends: with the end of its run, with a fatal read of its fetch, or as its instruction does (60_exceptions.md
R260, R266). -/
theorem step_cases (s : State) :
    (s.halted = true ∧ step s = .fault .runEnded) ∨
    (s.halted = false ∧ ∃ v, step s = .fault (.unmappedPpuRead v)) ∨
    (s.halted = false ∧ ∃ i u, step s = exec i u) := by
  cases hrun : s.halted with
  | true => exact .inl ⟨rfl, by simp [step, hrun]⟩
  | false =>
    cases hfetch : fetchInstr (takePendingNmi s) with
    | fatal f =>
      obtain ⟨a, u, hread⟩ := fetchInstr_fatal hfetch
      obtain ⟨rfl, -, -⟩ := busRead_fatal hread
      exact .inr (.inl ⟨rfl, _, step_of_fetchInstr_fatal hrun hfetch⟩)
    | done i u => exact .inr (.inr ⟨rfl, i, u, step_of_fetchInstr hrun hfetch⟩)

/-- Settles O8: no instruction is refused, and none has a cause of `runEnded`. -/
theorem stepOutcomes : Obligations.StepOutcomes := by
  intro s
  rcases step_cases s with ⟨hhalted, hstep⟩ | ⟨hrun, v, hstep⟩ | ⟨hrun, i, u, hstep⟩
  · simp [hstep, hhalted]
  · simp [hstep, hrun]
  · have hends := exec_ends i u
    rw [← hstep] at hends
    generalize step s = outcome at hends
    cases hends with
    | next t => simp [hrun]
    | fault f hcause => cases hcause <;> simp [hrun]

/-- Settles O10: the tick of 2 to 8 cycles, and a stall of at most 514. -/
theorem instructionTicksAreBounded : Obligations.InstructionTicksAreBounded := by
  intro i s t hstall h
  rcases exec_completes h with ⟨w, c, heffect, hlo, hhi, rfl⟩ | ⟨hi, hmode, rfl⟩
  · have hcycles : (busTick c w).cycles = s.cycles + (c + w.dmaStall) := by rw [busTick_cycles, heffect.cycles]
    have hbound := heffect.stall.2
    rw [hcycles]
    exact ⟨by omega, fun _ => by omega⟩
  · exact ⟨Nat.le_add_right _ _, fun hnot => absurd ⟨hi, hmode⟩ hnot⟩

/-- Settles O41: the accesses leave the devices, then the tick moves the PPU. -/
theorem devicesChangeOnlyThroughTheirAddresses : Obligations.DevicesChangeOnlyThroughTheirAddresses := by
  intro i s t h hstorage
  rcases exec_completes h with ⟨w, c, heffect, -, -, rfl⟩ | ⟨-, -, rfl⟩
  · obtain ⟨hppu, hjoy1, hjoy2⟩ := heffect.devices hstorage
    have hcycles : (busTick c w).cycles = s.cycles + (c + w.dmaStall) := by rw [busTick_cycles, heffect.cycles]
    refine ⟨?_, by omega, hjoy1, hjoy2⟩
    rw [hcycles, Nat.add_sub_cancel_left, busTick_ppu, tickedPpu, heffect.cart, hppu]
  · refine ⟨?_, Nat.le_refl _, rfl, rfl⟩
    have hcycles : ((s.setPc (s.pc + 1)).setHalted true).cycles - s.cycles = 0 := Nat.sub_self s.cycles
    rw [hcycles]
    rfl

end Sys2Proof.Machine

/-! PROOFS. Reset and the time after it (70_reset_and_hazards.md): what `Cpu.reset` writes, and the quiet of the machine
while PPUCTRL keeps the NMI disabled. -/

namespace Sys2Proof.Machine

/-! ## Reset -/

/-- Settles O57: the statement is the assignments of `cpuReset`, with `resetTarget` written out. -/
theorem cpuResetRule : Obligations.CpuReset := by
  rintro s t rfl
  exact ⟨rfl, rfl, rfl⟩

/-! ## No NMI while it is disabled -/

/-- A request that rises only where it was there before or the NMI is enabled. -/
theorem eq_false_of_rises_only {before enabled after : Bool} (hbefore : before = false) (hdisabled : enabled = false)
    (hrises : after = true → before = true ∨ enabled = true) : after = false := by
  simpa [hbefore, hdisabled] using hrises

theorem tickedPpu_ctrl (c : Nat) (s : State) : (tickedPpu c s).ctrl = s.ppu.ctrl :=
  (ppuTick_samePorts s.cart (3 * (c + s.dmaStall)) s.ppu).2.2.2.1

/-- A tick with PPUCTRL bit 7 clear raises no NMI request (60_exceptions.md R301). -/
theorem tickedPpu_nmiPending_of_disabled {s : State} (c : Nat) (hnmi : s.ppu.nmiPending = false)
    (hctrl : s.ppu.ctrl.getLsbD 7 = false) : (tickedPpu c s).nmiPending = false :=
  eq_false_of_rises_only hnmi hctrl (ppuTick_nmi _ _ _)

/-- An instruction that leaves PPUCTRL bit 7 clear raises the request neither by its accesses (60_exceptions.md R292) nor by
its tick, so that the tick has no rise to set `frame_ready` for (R281). -/
theorem Completes.quiet {i : Instr} {s t : State} (h : Completes i s t) (hnmi : s.ppu.nmiPending = false)
    (hctrl : t.ppu.ctrl.getLsbD 7 = false) : t.ppu.nmiPending = false ∧ t.frameReady = s.frameReady := by
  rcases h with ⟨w, c, heffect, -, -, rfl⟩ | ⟨-, -, rfl⟩
  · rw [busTick_ppu, tickedPpu_ctrl] at hctrl
    have hw : w.ppu.nmiPending = false := eq_false_of_rises_only hnmi hctrl heffect.nmi
    have hticked := tickedPpu_nmiPending_of_disabled c hw hctrl
    refine ⟨hticked, ?_⟩
    rw [busTick_frameReady, hticked, Bool.and_false, Bool.or_false, heffect.frameReady]
  · exact ⟨hnmi, rfl⟩

/-- Settles O56: no service is due, the fetch only reads, and the instruction is quiet; the Bus's copy follows the PPU's flag
by the invariant after the step. -/
theorem noNmiUntilEnabled : Obligations.NoNmiUntilEnabled := by
  intro s t hs _ hpending h hctrl
  obtain ⟨-, i, u, -, hfetch, hexec⟩ := step_next h
  rw [takePendingNmi_of_not_pending hpending] at hfetch
  have hnmi : u.ppu.nmiPending = false := by rw [hfetch.nmi, ← hs.pendingNmi, hpending]
  obtain ⟨hquiet, hready⟩ := (exec_completes hexec).quiet hnmi hctrl
  have ht : t.Inv := invKeptByStep s t hs h
  exact ⟨ht.pendingNmi.trans hquiet, hquiet, hready.trans hfetch.only.frameReady⟩

end Sys2Proof.Machine
